-- ==== Sys2Proof/Word.lean ====
section
/-! DEFINITION. The words of the block: limbs, command words, immediates (00_scope.md R2, R9; 30_encoding.md R80). -/

namespace Sys2Proof

/-- One limb: "unsigned 64-bit limbs" (00_scope.md R9). RES and RES2 have the same width (10_state.md R34). -/
abbrev Limb := BitVec 64

/-- A command word CMD (00_scope.md R2). -/
abbrev CmdWord := BitVec 32

/-- The scalar operand IMM presented with a command word (00_scope.md R2; 30_encoding.md R80). -/
abbrev Imm := BitVec 64

/-- The storage vector of one wide register, limb 0 (the least significant) first (00_scope.md R10;
20_memory.md R62). -/
abbrev Limbs := List Limb

end Sys2Proof
end

