-- ==== Sys2Proof/Config.lean ====
section
/-! DEFINITION. What an implementation fixes, and the one free value (00_scope.md R6 to R9; 93 U3, U6). The width N itself
is the field `bits` of State, so that every statement about every state is a statement about every N (log 3). -/

namespace Sys2Proof

/-- The smallest width a block can have (00_scope.md R6). -/
def Config.minBits : Nat := 65

/-- The largest width a block can have (00_scope.md R6: the limb index has 12 bits). -/
def Config.maxBits : Nat := 262144

/-- The width of the block that `State.reset` describes: the width of the spec's examples.
DESIGN CHOICE (log 3), safe: N is a parameter, and no statement fixes it. -/
def Config.resetBits : Nat := 80

/-- A block of width `n` exists (00_scope.md R6): "A block built with N outside this range does not exist; a model
refuses such a configuration." -/
def widthOk (n : Nat) : Bool := decide (Config.minBits ≤ n) && decide (n ≤ Config.maxBits)

/-- W, the number of limbs of a wide register: `ceil(N/64)` (00_scope.md R7). -/
def limbCount (n : Nat) : Nat := (n + 63) / 64

/-- P, the number of padding bits (00_scope.md R8). -/
def padCount (n : Nat) : Nat := 64 * limbCount n - n

/-- FREE VALUE: what the host register port returns while BUSY = 1 (70_reset_and_hazards.md R294: "A value read while
BUSY = 1 is unspecified and may mix old and new bits"; 93 U3). The first argument numbers the draw, the second is the host
register's number. It has no body, so nothing can be proved of it (log 6). -/
opaque Config.hregWhileBusy : Nat → BitVec 3 → BitVec 64

end Sys2Proof
end

