-- ==== Sys2Proof/Syntax.lean ====
section
/-! DEFINITION. Syntax: the wide registers' names and one constructor for each row of the opcode map (30_encoding.md R87), in
its order. Operand order is the assembler's, destination first (30_encoding.md R93). IMM is no part of a constructor: decoding
reads CMD alone (R91), and the meaning reads IMM from the state, where acceptance put it. -/

namespace Sys2Proof

/-- The wide registers (10_state.md R30, R31). -/
inductive Reg where
  | x0 | x1 | x2 | x3 | x4 | x5 | x6 | x7
  deriving DecidableEq, Repr

/-- The 3-bit field value that names a register: "Field value i selects Xi" (10_state.md R31). -/
def Reg.bits : Reg → BitVec 3
  | .x0 => 0 | .x1 => 1 | .x2 => 2 | .x3 => 3 | .x4 => 4 | .x5 => 5 | .x6 => 6 | .x7 => 7

/-- The commands (30_encoding.md R87). -/
inductive Instr where
  -- 41_storage_bits.md
  | ldU (rd : Reg)
  | ldS (rd : Reg)
  | mov (rd rs1 : Reg)
  | wrlimb (rd : Reg) (j : BitVec 12)
  | rdlimb (rs1 : Reg) (j : BitVec 12)
  | getbit (rs1 : Reg)
  | setbit (rd rs1 : Reg)
  | bitaddr
  -- 42_addsub.md
  | add (rd rs1 rs2 : Reg)
  | addiU (rd rs1 : Reg)
  | addiS (rd rs1 : Reg)
  | sub (rd rs1 rs2 : Reg)
  | subiU (rd rs1 : Reg)
  | subiS (rd rs1 : Reg)
  | neg (rd rs1 : Reg)
  -- 43_multiply.md
  | mul (rd rs1 rs2 : Reg)
  | muliU (rd rs1 : Reg)
  | muliS (rd rs1 : Reg)
  | mulw (rd rs1 : Reg)
  -- 44_divide.md
  | divU (rd rs1 rs2 : Reg)
  | divS (rd rs1 rs2 : Reg)
  | modU (rd rs1 rs2 : Reg)
  | modS (rd rs1 rs2 : Reg)
  | divmodU (rd rd2 rs1 rs2 : Reg)
  | divmodS (rd rd2 rs1 rs2 : Reg)
  -- 45_shift.md
  | shl (rd rs1 : Reg)
  | shrU (rd rs1 : Reg)
  | shrS (rd rs1 : Reg)
  -- 46_compare.md
  | cmpU (rs1 rs2 : Reg)
  | cmpS (rs1 rs2 : Reg)
  | seqU (rs1 rs2 : Reg)
  | seqS (rs1 rs2 : Reg)
  | sneU (rs1 rs2 : Reg)
  | sneS (rs1 rs2 : Reg)
  | sltU (rs1 rs2 : Reg)
  | sltS (rs1 rs2 : Reg)
  | sleU (rs1 rs2 : Reg)
  | sleS (rs1 rs2 : Reg)
  | sgtU (rs1 rs2 : Reg)
  | sgtS (rs1 rs2 : Reg)
  | sgeU (rs1 rs2 : Reg)
  | sgeS (rs1 rs2 : Reg)
  | isnegU (rs1 : Reg)
  | isnegS (rs1 : Reg)
  -- 47_bitwise.md
  | and (rd rs1 rs2 : Reg)
  | or (rd rs1 rs2 : Reg)
  | xor (rd rs1 rs2 : Reg)
  | not (rd rs1 : Reg)
  | clz (rs1 : Reg)
  deriving DecidableEq, Repr

/-- The mnemonic of a command, as the opcode map spells it (30_encoding.md R87). -/
def Instr.mnemonic : Instr → String
  | .ldU _ => "LD.U"
  | .ldS _ => "LD.S"
  | .mov _ _ => "MOV"
  | .wrlimb _ _ => "WRLIMB"
  | .rdlimb _ _ => "RDLIMB"
  | .getbit _ => "GETBIT"
  | .setbit _ _ => "SETBIT"
  | .bitaddr => "BITADDR"
  | .add _ _ _ => "ADD"
  | .addiU _ _ => "ADDI.U"
  | .addiS _ _ => "ADDI.S"
  | .sub _ _ _ => "SUB"
  | .subiU _ _ => "SUBI.U"
  | .subiS _ _ => "SUBI.S"
  | .neg _ _ => "NEG"
  | .mul _ _ _ => "MUL"
  | .muliU _ _ => "MULI.U"
  | .muliS _ _ => "MULI.S"
  | .mulw _ _ => "MULW"
  | .divU _ _ _ => "DIV.U"
  | .divS _ _ _ => "DIV.S"
  | .modU _ _ _ => "MOD.U"
  | .modS _ _ _ => "MOD.S"
  | .divmodU _ _ _ _ => "DIVMOD.U"
  | .divmodS _ _ _ _ => "DIVMOD.S"
  | .shl _ _ => "SHL"
  | .shrU _ _ => "SHR.U"
  | .shrS _ _ => "SHR.S"
  | .cmpU _ _ => "CMP.U"
  | .cmpS _ _ => "CMP.S"
  | .seqU _ _ => "SEQ.U"
  | .seqS _ _ => "SEQ.S"
  | .sneU _ _ => "SNE.U"
  | .sneS _ _ => "SNE.S"
  | .sltU _ _ => "SLT.U"
  | .sltS _ _ => "SLT.S"
  | .sleU _ _ => "SLE.U"
  | .sleS _ _ => "SLE.S"
  | .sgtU _ _ => "SGT.U"
  | .sgtS _ _ => "SGT.S"
  | .sgeU _ _ => "SGE.U"
  | .sgeS _ _ => "SGE.S"
  | .isnegU _ => "ISNEG.U"
  | .isnegS _ => "ISNEG.S"
  | .and _ _ _ => "AND"
  | .or _ _ _ => "OR"
  | .xor _ _ _ => "XOR"
  | .not _ _ => "NOT"
  | .clz _ => "CLZ"

end Sys2Proof
end

