-- ==== Sys2Proof/WellFormed.lean ====
section
/-! DEFINITION. Which commands are well formed: the one check the fields' widths do not make (30_encoding.md R90). -/

namespace Sys2Proof

/-- "A DIVMOD CMD with `rd == rd2` is illegal" (30_encoding.md R90). Every other constructor is well formed with any operands:
a register name and the 12-bit limb index have no illegal value, and j >= W is a fault of the execution (41_storage_bits.md
R112), not of the encoding. -/
def Instr.wf : Instr → Bool
  | .divmodU rd rd2 _ _ | .divmodS rd rd2 _ _ => rd != rd2
  | .ldU _ | .ldS _ | .mov _ _ | .wrlimb _ _ | .rdlimb _ _ | .getbit _ | .setbit _ _ | .bitaddr
  | .add _ _ _ | .addiU _ _ | .addiS _ _ | .sub _ _ _ | .subiU _ _ | .subiS _ _ | .neg _ _
  | .mul _ _ _ | .muliU _ _ | .muliS _ _ | .mulw _ _
  | .divU _ _ _ | .divS _ _ _ | .modU _ _ _ | .modS _ _ _
  | .shl _ _ | .shrU _ _ | .shrS _ _
  | .cmpU _ _ | .cmpS _ _ | .seqU _ _ | .seqS _ _ | .sneU _ _ | .sneS _ _ | .sltU _ _ | .sltS _ _
  | .sleU _ _ | .sleS _ _ | .sgtU _ _ | .sgtS _ _ | .sgeU _ _ | .sgeS _ _ | .isnegU _ | .isnegS _
  | .and _ _ _ | .or _ _ _ | .xor _ _ _ | .not _ _ | .clz _ => true

end Sys2Proof
end

