-- ==== Sys2Proof/Decode.lean ====
section
/-! DEFINITION. Decode and encode (30_encoding.md R80 to R92). The decoder is the opcode map itself: rows of match and mask over
CMD, and the check of R90 after the match. It reads CMD alone. The encoder is written from the field positions of R81. -/

namespace Sys2Proof

/-- The register a 3-bit field names (10_state.md R31). -/
def Reg.ofBits (b : BitVec 3) : Reg :=
  match b.toNat with
  | 0 => .x0 | 1 => .x1 | 2 => .x2 | 3 => .x3 | 4 => .x4 | 5 => .x5 | 6 => .x6 | _ => .x7

/-- The fields of CMD (30_encoding.md R81). A field not given is 0, as R84 asks of an unused one. -/
structure Fields where
  op  : BitVec 6
  s   : BitVec 1 := 0
  x   : BitVec 1 := 0
  rd  : BitVec 3 := 0
  rs1 : BitVec 3 := 0
  rs2 : BitVec 3 := 0
  f3  : BitVec 3 := 0
  j   : BitVec 12 := 0
  deriving DecidableEq, Repr

/-- The fields at their positions: op 31:26, S 25, X 24, rd 23:21, rs1 20:18, rs2 17:15, f3 14:12, j 11:0 (R81). -/
def Fields.ofWord (w : CmdWord) : Fields where
  op  := w.extractLsb' 26 6
  s   := w.extractLsb' 25 1
  x   := w.extractLsb' 24 1
  rd  := w.extractLsb' 21 3
  rs1 := w.extractLsb' 18 3
  rs2 := w.extractLsb' 15 3
  f3  := w.extractLsb' 12 3
  j   := w.extractLsb' 0 12

/-- CMD laid out from its fields, op first (R81). -/
def Fields.toWord (f : Fields) : CmdWord :=
  f.op ++ f.s ++ f.x ++ f.rd ++ f.rs1 ++ f.rs2 ++ f.f3 ++ f.j

/-- One row of the opcode map: "A CMD selects a row when `(CMD & mask) == match`" (R87). `pattern` is the map's "match". -/
structure Row where
  mnemonic : String
  pattern  : CmdWord
  mask     : CmdWord
  build    : Fields → Instr

/-- CMD selects the row (R87). -/
def Row.selects (r : Row) (w : CmdWord) : Bool := (w &&& r.mask) == r.pattern

/-- The rows of 41_storage_bits.md (30_encoding.md R87). -/
def storageRows : List Row := [
  ⟨"LD.U", 0x04000000, 0xFF1FFFFF, fun f => .ldU (Reg.ofBits f.rd)⟩,
  ⟨"LD.S", 0x06000000, 0xFF1FFFFF, fun f => .ldS (Reg.ofBits f.rd)⟩,
  ⟨"MOV", 0x08000000, 0xFF03FFFF, fun f => .mov (Reg.ofBits f.rd) (Reg.ofBits f.rs1)⟩,
  ⟨"WRLIMB", 0x0C000000, 0xFF1FF000, fun f => .wrlimb (Reg.ofBits f.rd) f.j⟩,
  ⟨"RDLIMB", 0x10000000, 0xFFE3F000, fun f => .rdlimb (Reg.ofBits f.rs1) f.j⟩,
  ⟨"GETBIT", 0x14000000, 0xFFE3FFFF, fun f => .getbit (Reg.ofBits f.rs1)⟩,
  ⟨"SETBIT", 0x18000000, 0xFF03FFFF, fun f => .setbit (Reg.ofBits f.rd) (Reg.ofBits f.rs1)⟩,
  ⟨"BITADDR", 0x1C000000, 0xFFFFFFFF, fun _ => .bitaddr⟩]

/-- The rows of 42_addsub.md (30_encoding.md R87). -/
def adderRows : List Row := [
  ⟨"ADD", 0x20000000, 0xFF007FFF, fun f => .add (Reg.ofBits f.rd) (Reg.ofBits f.rs1) (Reg.ofBits f.rs2)⟩,
  ⟨"ADDI.U", 0x21000000, 0xFF03FFFF, fun f => .addiU (Reg.ofBits f.rd) (Reg.ofBits f.rs1)⟩,
  ⟨"ADDI.S", 0x23000000, 0xFF03FFFF, fun f => .addiS (Reg.ofBits f.rd) (Reg.ofBits f.rs1)⟩,
  ⟨"SUB", 0x24000000, 0xFF007FFF, fun f => .sub (Reg.ofBits f.rd) (Reg.ofBits f.rs1) (Reg.ofBits f.rs2)⟩,
  ⟨"SUBI.U", 0x25000000, 0xFF03FFFF, fun f => .subiU (Reg.ofBits f.rd) (Reg.ofBits f.rs1)⟩,
  ⟨"SUBI.S", 0x27000000, 0xFF03FFFF, fun f => .subiS (Reg.ofBits f.rd) (Reg.ofBits f.rs1)⟩,
  ⟨"NEG", 0x28000000, 0xFF03FFFF, fun f => .neg (Reg.ofBits f.rd) (Reg.ofBits f.rs1)⟩]

/-- The rows of 43_multiply.md (30_encoding.md R87). -/
def multiplierRows : List Row := [
  ⟨"MUL", 0x2C000000, 0xFF007FFF, fun f => .mul (Reg.ofBits f.rd) (Reg.ofBits f.rs1) (Reg.ofBits f.rs2)⟩,
  ⟨"MULI.U", 0x2D000000, 0xFF03FFFF, fun f => .muliU (Reg.ofBits f.rd) (Reg.ofBits f.rs1)⟩,
  ⟨"MULI.S", 0x2F000000, 0xFF03FFFF, fun f => .muliS (Reg.ofBits f.rd) (Reg.ofBits f.rs1)⟩,
  ⟨"MULW", 0x30000000, 0xFF03FFFF, fun f => .mulw (Reg.ofBits f.rd) (Reg.ofBits f.rs1)⟩]

/-- The rows of 44_divide.md (30_encoding.md R87). -/
def dividerRows : List Row := [
  ⟨"DIV.U", 0x34000000, 0xFF007FFF, fun f => .divU (Reg.ofBits f.rd) (Reg.ofBits f.rs1) (Reg.ofBits f.rs2)⟩,
  ⟨"DIV.S", 0x36000000, 0xFF007FFF, fun f => .divS (Reg.ofBits f.rd) (Reg.ofBits f.rs1) (Reg.ofBits f.rs2)⟩,
  ⟨"MOD.U", 0x38000000, 0xFF007FFF, fun f => .modU (Reg.ofBits f.rd) (Reg.ofBits f.rs1) (Reg.ofBits f.rs2)⟩,
  ⟨"MOD.S", 0x3A000000, 0xFF007FFF, fun f => .modS (Reg.ofBits f.rd) (Reg.ofBits f.rs1) (Reg.ofBits f.rs2)⟩,
  ⟨"DIVMOD.U", 0x3C000000, 0xFF000FFF, fun f => .divmodU (Reg.ofBits f.rd) (Reg.ofBits f.f3) (Reg.ofBits f.rs1) (Reg.ofBits f.rs2)⟩,
  ⟨"DIVMOD.S", 0x3E000000, 0xFF000FFF, fun f => .divmodS (Reg.ofBits f.rd) (Reg.ofBits f.f3) (Reg.ofBits f.rs1) (Reg.ofBits f.rs2)⟩]

/-- The rows of 45_shift.md (30_encoding.md R87). -/
def shifterRows : List Row := [
  ⟨"SHL", 0x40000000, 0xFF03FFFF, fun f => .shl (Reg.ofBits f.rd) (Reg.ofBits f.rs1)⟩,
  ⟨"SHR.U", 0x44000000, 0xFF03FFFF, fun f => .shrU (Reg.ofBits f.rd) (Reg.ofBits f.rs1)⟩,
  ⟨"SHR.S", 0x46000000, 0xFF03FFFF, fun f => .shrS (Reg.ofBits f.rd) (Reg.ofBits f.rs1)⟩]

/-- The rows of 46_compare.md (30_encoding.md R87). -/
def comparatorRows : List Row := [
  ⟨"CMP.U", 0x48000000, 0xFFE07FFF, fun f => .cmpU (Reg.ofBits f.rs1) (Reg.ofBits f.rs2)⟩,
  ⟨"CMP.S", 0x4A000000, 0xFFE07FFF, fun f => .cmpS (Reg.ofBits f.rs1) (Reg.ofBits f.rs2)⟩,
  ⟨"SEQ.U", 0x4C000000, 0xFFE07FFF, fun f => .seqU (Reg.ofBits f.rs1) (Reg.ofBits f.rs2)⟩,
  ⟨"SEQ.S", 0x4E000000, 0xFFE07FFF, fun f => .seqS (Reg.ofBits f.rs1) (Reg.ofBits f.rs2)⟩,
  ⟨"SNE.U", 0x4C001000, 0xFFE07FFF, fun f => .sneU (Reg.ofBits f.rs1) (Reg.ofBits f.rs2)⟩,
  ⟨"SNE.S", 0x4E001000, 0xFFE07FFF, fun f => .sneS (Reg.ofBits f.rs1) (Reg.ofBits f.rs2)⟩,
  ⟨"SLT.U", 0x4C002000, 0xFFE07FFF, fun f => .sltU (Reg.ofBits f.rs1) (Reg.ofBits f.rs2)⟩,
  ⟨"SLT.S", 0x4E002000, 0xFFE07FFF, fun f => .sltS (Reg.ofBits f.rs1) (Reg.ofBits f.rs2)⟩,
  ⟨"SLE.U", 0x4C003000, 0xFFE07FFF, fun f => .sleU (Reg.ofBits f.rs1) (Reg.ofBits f.rs2)⟩,
  ⟨"SLE.S", 0x4E003000, 0xFFE07FFF, fun f => .sleS (Reg.ofBits f.rs1) (Reg.ofBits f.rs2)⟩,
  ⟨"SGT.U", 0x4C004000, 0xFFE07FFF, fun f => .sgtU (Reg.ofBits f.rs1) (Reg.ofBits f.rs2)⟩,
  ⟨"SGT.S", 0x4E004000, 0xFFE07FFF, fun f => .sgtS (Reg.ofBits f.rs1) (Reg.ofBits f.rs2)⟩,
  ⟨"SGE.U", 0x4C005000, 0xFFE07FFF, fun f => .sgeU (Reg.ofBits f.rs1) (Reg.ofBits f.rs2)⟩,
  ⟨"SGE.S", 0x4E005000, 0xFFE07FFF, fun f => .sgeS (Reg.ofBits f.rs1) (Reg.ofBits f.rs2)⟩,
  ⟨"ISNEG.U", 0x50000000, 0xFFE3FFFF, fun f => .isnegU (Reg.ofBits f.rs1)⟩,
  ⟨"ISNEG.S", 0x52000000, 0xFFE3FFFF, fun f => .isnegS (Reg.ofBits f.rs1)⟩]

/-- The rows of 47_bitwise.md (30_encoding.md R87). -/
def bitwiseRows : List Row := [
  ⟨"AND", 0x54000000, 0xFF007FFF, fun f => .and (Reg.ofBits f.rd) (Reg.ofBits f.rs1) (Reg.ofBits f.rs2)⟩,
  ⟨"OR", 0x58000000, 0xFF007FFF, fun f => .or (Reg.ofBits f.rd) (Reg.ofBits f.rs1) (Reg.ofBits f.rs2)⟩,
  ⟨"XOR", 0x5C000000, 0xFF007FFF, fun f => .xor (Reg.ofBits f.rd) (Reg.ofBits f.rs1) (Reg.ofBits f.rs2)⟩,
  ⟨"NOT", 0x60000000, 0xFF03FFFF, fun f => .not (Reg.ofBits f.rd) (Reg.ofBits f.rs1)⟩,
  ⟨"CLZ", 0x64000000, 0xFFE3FFFF, fun f => .clz (Reg.ofBits f.rs1)⟩]

/-- The opcode map (R87). -/
def opcodeMap : List Row :=
  storageRows ++ adderRows ++ multiplierRows ++ dividerRows ++ shifterRows ++ comparatorRows ++ bitwiseRows

/-- Why a CMD is illegal: the conditions that 60_exceptions.md R260 lists for ILLEGAL. The hardware records code 1 for all of
them; the names are the model's (log 17). -/
inductive Illegal where
  /-- Opcode 0x00 or 0x1A to 0x3F (30_encoding.md R88). -/
  | reservedOpcode
  /-- S<cond> with f3 = 6 or 7 (R89). -/
  | reservedCondition
  /-- A field the command does not use is not 0 (R84). -/
  | reservedField
  /-- DIVMOD with rd = rd2 (R90). -/
  | sameDestination
  deriving DecidableEq, Repr

/-- The decoder's answer: total, and a rejection has a name. -/
inductive Decoded where
  | instr (i : Instr)
  | illegal (why : Illegal)
  deriving DecidableEq, Repr

/-- The name of a rejection when no row matches. -/
def unmatched (w : CmdWord) : Illegal :=
  let f := Fields.ofWord w
  if f.op = 0 ∨ 0x1A ≤ f.op then .reservedOpcode
  else if f.op = 0x13 ∧ 6 ≤ f.f3 then .reservedCondition
  else .reservedField

/-- The row CMD selects, if any (R87, R91 step 1). -/
def rowOf (w : CmdWord) : Option Row := opcodeMap.find? (·.selects w)

/-- The decode procedure (R91): a row, then the check of R90, then the row's command. -/
def decode (w : CmdWord) : Decoded :=
  match rowOf w with
  | none => .illegal (unmatched w)
  | some r =>
    let i := r.build (Fields.ofWord w)
    if i.wf then .instr i else .illegal .sameDestination

/-- The fields of a command's CMD word: the "Encoding" line of its rule; op, S, X and f3 by the opcode map (R87, R89). -/
def Instr.fields : Instr → Fields
  | .ldU rd => { op := 0x01, rd := rd.bits }
  | .ldS rd => { op := 0x01, s := 1, rd := rd.bits }
  | .mov rd rs1 => { op := 0x02, rd := rd.bits, rs1 := rs1.bits }
  | .wrlimb rd j => { op := 0x03, rd := rd.bits, j := j }
  | .rdlimb rs1 j => { op := 0x04, rs1 := rs1.bits, j := j }
  | .getbit rs1 => { op := 0x05, rs1 := rs1.bits }
  | .setbit rd rs1 => { op := 0x06, rd := rd.bits, rs1 := rs1.bits }
  | .bitaddr => { op := 0x07 }
  | .add rd rs1 rs2 => { op := 0x08, rd := rd.bits, rs1 := rs1.bits, rs2 := rs2.bits }
  | .addiU rd rs1 => { op := 0x08, x := 1, rd := rd.bits, rs1 := rs1.bits }
  | .addiS rd rs1 => { op := 0x08, s := 1, x := 1, rd := rd.bits, rs1 := rs1.bits }
  | .sub rd rs1 rs2 => { op := 0x09, rd := rd.bits, rs1 := rs1.bits, rs2 := rs2.bits }
  | .subiU rd rs1 => { op := 0x09, x := 1, rd := rd.bits, rs1 := rs1.bits }
  | .subiS rd rs1 => { op := 0x09, s := 1, x := 1, rd := rd.bits, rs1 := rs1.bits }
  | .neg rd rs1 => { op := 0x0A, rd := rd.bits, rs1 := rs1.bits }
  | .mul rd rs1 rs2 => { op := 0x0B, rd := rd.bits, rs1 := rs1.bits, rs2 := rs2.bits }
  | .muliU rd rs1 => { op := 0x0B, x := 1, rd := rd.bits, rs1 := rs1.bits }
  | .muliS rd rs1 => { op := 0x0B, s := 1, x := 1, rd := rd.bits, rs1 := rs1.bits }
  | .mulw rd rs1 => { op := 0x0C, rd := rd.bits, rs1 := rs1.bits }
  | .divU rd rs1 rs2 => { op := 0x0D, rd := rd.bits, rs1 := rs1.bits, rs2 := rs2.bits }
  | .divS rd rs1 rs2 => { op := 0x0D, s := 1, rd := rd.bits, rs1 := rs1.bits, rs2 := rs2.bits }
  | .modU rd rs1 rs2 => { op := 0x0E, rd := rd.bits, rs1 := rs1.bits, rs2 := rs2.bits }
  | .modS rd rs1 rs2 => { op := 0x0E, s := 1, rd := rd.bits, rs1 := rs1.bits, rs2 := rs2.bits }
  | .divmodU rd rd2 rs1 rs2 => { op := 0x0F, rd := rd.bits, rs1 := rs1.bits, rs2 := rs2.bits, f3 := rd2.bits }
  | .divmodS rd rd2 rs1 rs2 => { op := 0x0F, s := 1, rd := rd.bits, rs1 := rs1.bits, rs2 := rs2.bits, f3 := rd2.bits }
  | .shl rd rs1 => { op := 0x10, rd := rd.bits, rs1 := rs1.bits }
  | .shrU rd rs1 => { op := 0x11, rd := rd.bits, rs1 := rs1.bits }
  | .shrS rd rs1 => { op := 0x11, s := 1, rd := rd.bits, rs1 := rs1.bits }
  | .cmpU rs1 rs2 => { op := 0x12, rs1 := rs1.bits, rs2 := rs2.bits }
  | .cmpS rs1 rs2 => { op := 0x12, s := 1, rs1 := rs1.bits, rs2 := rs2.bits }
  | .seqU rs1 rs2 => { op := 0x13, rs1 := rs1.bits, rs2 := rs2.bits }
  | .seqS rs1 rs2 => { op := 0x13, s := 1, rs1 := rs1.bits, rs2 := rs2.bits }
  | .sneU rs1 rs2 => { op := 0x13, rs1 := rs1.bits, rs2 := rs2.bits, f3 := 1 }
  | .sneS rs1 rs2 => { op := 0x13, s := 1, rs1 := rs1.bits, rs2 := rs2.bits, f3 := 1 }
  | .sltU rs1 rs2 => { op := 0x13, rs1 := rs1.bits, rs2 := rs2.bits, f3 := 2 }
  | .sltS rs1 rs2 => { op := 0x13, s := 1, rs1 := rs1.bits, rs2 := rs2.bits, f3 := 2 }
  | .sleU rs1 rs2 => { op := 0x13, rs1 := rs1.bits, rs2 := rs2.bits, f3 := 3 }
  | .sleS rs1 rs2 => { op := 0x13, s := 1, rs1 := rs1.bits, rs2 := rs2.bits, f3 := 3 }
  | .sgtU rs1 rs2 => { op := 0x13, rs1 := rs1.bits, rs2 := rs2.bits, f3 := 4 }
  | .sgtS rs1 rs2 => { op := 0x13, s := 1, rs1 := rs1.bits, rs2 := rs2.bits, f3 := 4 }
  | .sgeU rs1 rs2 => { op := 0x13, rs1 := rs1.bits, rs2 := rs2.bits, f3 := 5 }
  | .sgeS rs1 rs2 => { op := 0x13, s := 1, rs1 := rs1.bits, rs2 := rs2.bits, f3 := 5 }
  | .isnegU rs1 => { op := 0x14, rs1 := rs1.bits }
  | .isnegS rs1 => { op := 0x14, s := 1, rs1 := rs1.bits }
  | .and rd rs1 rs2 => { op := 0x15, rd := rd.bits, rs1 := rs1.bits, rs2 := rs2.bits }
  | .or rd rs1 rs2 => { op := 0x16, rd := rd.bits, rs1 := rs1.bits, rs2 := rs2.bits }
  | .xor rd rs1 rs2 => { op := 0x17, rd := rd.bits, rs1 := rs1.bits, rs2 := rs2.bits }
  | .not rd rs1 => { op := 0x18, rd := rd.bits, rs1 := rs1.bits }
  | .clz rs1 => { op := 0x19, rs1 := rs1.bits }

/-- CMD of a command (R81, R87). -/
def encode (i : Instr) : CmdWord := i.fields.toWord

/-- A register's field at bit p of CMD, as the "Encoding" lines of the rules write it (`rd<<21`). -/
def Reg.field (r : Reg) (p : Nat) : CmdWord := r.bits.setWidth 32 <<< p

/-- A command as the block takes it at the handshake: CMD and IMM (R80). -/
structure Command where
  cmd : CmdWord
  imm : Imm
  deriving DecidableEq, Repr

/-- A command from the number that holds its words, CMD first: CMD is bits 31:0, IMM bits 95:32; `nbits` says how many bits
of the number are given, and the bits above them are 0 (log 9). -/
def Command.ofNat (nbits w : Nat) : Command :=
  let v := w % 2 ^ nbits
  ⟨BitVec.ofNat 32 v, BitVec.ofNat 64 (v / 2 ^ 32)⟩

/-- What the decoder reads from a table word (bit 0 the least significant bit of CMD); none where it refuses. -/
def decodeTableWord (nbits w : Nat) : Option Instr :=
  match decode (Command.ofNat nbits w).cmd with
  | .instr i => some i
  | .illegal _ => none

end Sys2Proof
end

