-- ==== Sys2Proof/Machine/State.lean ====
section
/-! DEFINITION. The state of the block (10_state.md), what can stop the model, and the state right after reset. There is no
memory: "The block has no address space" (20_memory.md R60). -/

namespace Sys2Proof.Machine

/-- One wide register: its storage limbs, and for each limb whether a command has written it since reset
(10_state.md R30, R33). -/
structure WideReg where
  limbs   : Limbs
  written : List Bool
  deriving DecidableEq, Repr

/-- The wide register file, X0 to X7 (10_state.md R30). -/
structure RegFile where
  x0 : WideReg
  x1 : WideReg
  x2 : WideReg
  x3 : WideReg
  x4 : WideReg
  x5 : WideReg
  x6 : WideReg
  x7 : WideReg
  deriving DecidableEq, Repr

/-- The fault codes (60_exceptions.md R260). "CAUSE takes only the values 0 to 4. No other value is legal or reachable"
(10_state.md R40), so there is one constructor for each code and no other. -/
inductive Cause where
  | none | illegal | bitIndex | divZero | limbIndex
  deriving DecidableEq, Repr

/-- What the host does at the block's ports (10_state.md R46; 70_reset_and_hazards.md R290 to R294), one event at a time. -/
inductive HostEvent where
  /-- `cmd_valid` = 1 with this command, held until the block accepts it (R293). -/
  | command (c : Command)
  /-- As `command`, and `rst` = 1 at an edge while the block executes it (R291). -/
  | commandAbandoned (c : Command)
  /-- An edge with `rst` = 1 (R290). -/
  | reset
  /-- An edge with `rst` = 0 and `cmd_valid` = 0 (60_exceptions.md R274). -/
  | idle
  /-- The host reads the host register of this number (10_state.md R39; 20_memory.md R66). -/
  | hostRead (addr : BitVec 3)
  deriving DecidableEq, Repr

/-- The state of the block, and what the host will do next. -/
structure State where
  /-- N, the width: CFG_BITS, hardwired (00_scope.md R6; 10_state.md R41; log 3). -/
  bits     : Nat
  /-- X0 to X7 (10_state.md R30). -/
  regs     : RegFile
  /-- RES (10_state.md R34). -/
  res      : BitVec 64
  /-- RES2 (10_state.md R34). -/
  res2     : BitVec 64
  /-- FAULT (10_state.md R38). -/
  fault    : Bool
  /-- CAUSE (10_state.md R38). -/
  cause    : Cause
  /-- FAULT_CMD (10_state.md R38). -/
  faultCmd : CmdWord
  /-- FAULT_IMM (10_state.md R38). -/
  faultImm : Imm
  /-- BUSY: a command is executing (10_state.md R40). -/
  busy     : Bool
  /-- CMD of the command that is executing, sampled at acceptance (10_state.md R46); 0 between commands (log 11). -/
  cmd      : CmdWord
  /-- IMM of the command that is executing, sampled at acceptance (10_state.md R46); 0 between commands (log 11). -/
  imm      : Imm
  /-- `rst` was 1 at the last edge: the block is held in reset (70_reset_and_hazards.md R290). -/
  inReset  : Bool
  /-- k, the host command index (10_state.md R36). -/
  k        : Nat
  /-- What the host does next, first first: an input of the block (log 7). -/
  inputs   : List HostEvent
  deriving DecidableEq, Repr

/-- Why the model stops. `step` raises neither: the hardware's own faults are entered, and the block goes on in the fault state
(60_exceptions.md R262, R264). Both belong to `Safety.strictStep`, the conservative reading that the spec recommends to a
model; stopping there is safe, since the hardware goes on. -/
inductive Fault where
  /-- A command reads a limb no command has written since reset (10_state.md R33; 93 U1). Raised by `Safety.strictStep`
  only. Safe. -/
  | unwrittenLimb
  /-- FAULT = 1: "a fault outcome that no later step leaves" (60_exceptions.md R264; 93 U2). Raised by `Safety.strictStep`
  only. Safe. -/
  | faultState
  deriving DecidableEq, Repr

/-- What the model gives no meaning. -/
inductive Refusal where
  /-- An instruction without a meaning yet, by its mnemonic: raised by a refused arm of `exec`. Safe. -/
  | notModelled (mnemonic : String)
  /-- N outside 65..262144: "a model refuses such a configuration" (00_scope.md R6; 93 U6). Raised by `step`. Safe: no such
  block exists. -/
  | widthOutOfRange
  deriving DecidableEq, Repr

/-- A wide register after reset: W limbs, none written, "padding bits 0" (10_state.md R45). The spec leaves bits N-1:0
unspecified; 0 is a DESIGN CHOICE, unsafe (log 1). -/
def WideReg.reset (n : Nat) : WideReg where
  limbs   := List.replicate (limbCount n) 0
  written := List.replicate (limbCount n) false

/-- The register file after reset (10_state.md R45). -/
def RegFile.reset (n : Nat) : RegFile :=
  let w := WideReg.reset n
  ⟨w, w, w, w, w, w, w, w⟩

/-- A block of width `n` right after reset has ended (10_state.md R45; 70_reset_and_hazards.md R290). RES and RES2 are
unspecified in the spec; 0 is a DESIGN CHOICE, unsafe (log 2). -/
def State.resetAt (n : Nat) : State where
  bits     := n
  regs     := RegFile.reset n
  res      := 0
  res2     := 0
  fault    := false
  cause    := .none
  faultCmd := 0
  faultImm := 0
  busy     := false
  cmd      := 0
  imm      := 0
  inReset  := false
  k        := 0
  inputs   := []

/-- The machine right after reset; its width is a DESIGN CHOICE (log 3). -/
def State.reset : State := State.resetAt Config.resetBits

end Sys2Proof.Machine
end

