-- ==== Sys2Proof/Machine/Limbs.lean ====
section
/-! DEFINITION. Limb storage: indices, values, truncation, extension and padding (00_scope.md R8 to R15, R20, R22). Storage is a
list of limbs, least significant first; `n` is the width N throughout. -/

namespace Sys2Proof.Machine

/-- `word_index(p) = p / 64` (00_scope.md R11). -/
def wordIndex (p : Nat) : Nat := p / 64

/-- `bit_index(p) = p % 64` (00_scope.md R11). -/
def bitIndex (p : Nat) : Nat := p % 64

/-- Limb j of a storage vector, `st[64j+63 : 64j]` (00_scope.md R10). -/
def limbAt (st : Limbs) (j : Nat) : Limb := st.getD j 0

/-- Bit p of a storage vector: bit `bit_index(p)` of limb `word_index(p)` (00_scope.md R11). -/
def bitAt (st : Limbs) (p : Nat) : Bool := (limbAt st (wordIndex p)).getLsbD (bitIndex p)

/-- A storage vector of W limbs, given limb by limb. -/
def mkLimbs (n : Nat) (f : Nat → Limb) : Limbs := (List.range (limbCount n)).map f

/-- The unsigned value of a storage vector (00_scope.md R12; the whole storage: on a vector with padding 0, u of its N bits). -/
def uval : Limbs → Nat
  | [] => 0
  | l :: st => l.toNat + 2 ^ 64 * uval st

/-- The sign bit of the signed view, bit N-1 (00_scope.md R12). -/
def signBit (n : Nat) (st : Limbs) : Bool := bitAt st (n - 1)

/-- The two's-complement value, `u(v) - 2^N * v[N-1]` (00_scope.md R12). -/
def sval (n : Nat) (st : Limbs) : Int := (uval st : Int) - 2 ^ n * (if signBit n st then 1 else 0)

/-- The bits of limb W-1 that are not padding: all but bits `63 : 64-P` (00_scope.md R8). -/
def topMask (n : Nat) : Limb := BitVec.ofNat 64 (2 ^ (64 - padCount n) - 1)

/-- Limb W-1, the one that holds the padding (00_scope.md R8). -/
def isTop (n j : Nat) : Bool := j + 1 == limbCount n

/-- `clear_pad`: storage bits `64W-1 : N` become 0 (00_scope.md R20). The result has W limbs. -/
def clearPad (n : Nat) (st : Limbs) : Limbs :=
  mkLimbs n fun j => if isTop n j then limbAt st j &&& topMask n else limbAt st j

/-- `fill_pad`: the same bits become 1 (00_scope.md R20). -/
def fillPad (n : Nat) (st : Limbs) : Limbs :=
  mkLimbs n fun j => if isTop n j then limbAt st j ||| ~~~topMask n else limbAt st j

/-- `bv_N(k)`: the N-bit vector with `u(v) = k mod 2^N` (00_scope.md R13), as storage with padding 0. -/
def bvN (n : Nat) (k : Int) : Limbs :=
  let u := (k % 2 ^ n).toNat
  mkLimbs n fun j => BitVec.ofNat 64 (u / 2 ^ (64 * j))

/-- `zext_N(w) = bv_N(u64(w))` (00_scope.md R14). -/
def zextN (n : Nat) (w : BitVec 64) : Limbs := bvN n w.toNat

/-- `sext_N(w) = bv_N(s64(w))` (00_scope.md R14). -/
def sextN (n : Nat) (w : BitVec 64) : Limbs := bvN n w.toInt

/-- The storage with bit p set to 1 and every other bit unchanged (41_storage_bits.md R117). -/
def setBit (st : Limbs) (p : Nat) : Limbs :=
  st.set (wordIndex p) (limbAt st (wordIndex p) ||| BitVec.twoPow 64 (bitIndex p))

/-- The canonical form of a wide register: W limbs with every padding bit 0, and one written mark a limb
(10_state.md R30, R32, R33). -/
def WideReg.wf (n : Nat) (w : WideReg) : Bool :=
  w.limbs == clearPad n w.limbs && w.written.length == limbCount n

end Sys2Proof.Machine
end

