-- ==== Sys2Proof/Machine/Adder.lean ====
section
/-! DEFINITION. The multi-limb adder with carry propagation (42_addsub.md R140, R141, R146). -/

namespace Sys2Proof.Machine

/-- The carry chain over the limbs, least significant first (42_addsub.md R140); the final carry is dropped. -/
def carryChain : Limbs → Limbs → Bool → Limbs
  | a :: as, b :: bs, carry =>
    let r := if carry then a + b + 1 else a + b
    let carry' := if carry then decide (r ≤ a) else decide (r < a)
    r :: carryChain as bs carry'
  | _, _, _ => []

/-- `add_limbs(a, b)` (42_addsub.md R140). -/
def addLimbs (n : Nat) (a b : Limbs) : Limbs := clearPad n (carryChain a b false)

/-- The borrow chain over the limbs, least significant first (42_addsub.md R141); the final borrow is dropped. -/
def borrowChain : Limbs → Limbs → Bool → Limbs
  | a :: as, b :: bs, borrow =>
    let r := a - b - (if borrow then 1 else 0)
    let borrow' := if borrow then decide (r ≥ a) else decide (r > a)
    r :: borrowChain as bs borrow'
  | _, _, _ => []

/-- `sub_limbs(a, b)` (42_addsub.md R141). -/
def subLimbs (n : Nat) (a b : Limbs) : Limbs := clearPad n (borrowChain a b false)

/-- Every bit of the storage inverted, padding cleared (42_addsub.md R146; 47_bitwise.md R243). -/
def invert (n : Nat) (a : Limbs) : Limbs := clearPad n (a.map fun l => ~~~l)

/-- Two's-complement negation: invert, plus one (42_addsub.md R146). -/
def negLimbs (n : Nat) (a : Limbs) : Limbs := addLimbs n (invert n a) (zextN n 1)

end Sys2Proof.Machine
end

