-- ==== Sys2Proof/Machine/Operands.lean ====
section
/-! DEFINITION. Operand forms: wide registers (00_scope.md R15; 10_state.md R30 to R33), IMM extended to N bits, IMM as an
unsigned number, and j (30_encoding.md R81, R85, R86). -/

namespace Sys2Proof.Machine

/-- The wide register a name selects (10_state.md R31). -/
def RegFile.get (f : RegFile) : Reg → WideReg
  | .x0 => f.x0 | .x1 => f.x1 | .x2 => f.x2 | .x3 => f.x3 | .x4 => f.x4 | .x5 => f.x5 | .x6 => f.x6 | .x7 => f.x7

/-- The register file with one wide register replaced: none is hardwired or has an alias (10_state.md R30). -/
def RegFile.set (f : RegFile) (r : Reg) (w : WideReg) : RegFile :=
  match r with
  | .x0 => { f with x0 := w } | .x1 => { f with x1 := w } | .x2 => { f with x2 := w } | .x3 => { f with x3 := w }
  | .x4 => { f with x4 := w } | .x5 => { f with x5 := w } | .x6 => { f with x6 := w } | .x7 => { f with x7 := w }

/-- `x[r]`: the N-bit value of a wide register "with its padding bits excluded", as storage with padding 0
(00_scope.md R15). -/
def State.x (s : State) (r : Reg) : Limbs := clearPad s.bits (s.regs.get r).limbs

/-- `u(x[r])` (00_scope.md R12). -/
def State.u (s : State) (r : Reg) : Nat := uval (s.x r)

/-- `s(x[r])` (00_scope.md R12). -/
def State.sgn (s : State) (r : Reg) : Int := sval s.bits (s.x r)

/-- A wide register that holds the N-bit vector `v`, all W limbs written, padding 0 (00_scope.md R15; 10_state.md R32,
R33). -/
def WideReg.ofBits (n : Nat) (v : Limbs) : WideReg :=
  ⟨clearPad n v, List.replicate (limbCount n) true⟩

/-- `x[r] <- v` (00_scope.md R15). -/
def State.setX (s : State) (r : Reg) (v : Limbs) : State :=
  { s with regs := s.regs.set r (WideReg.ofBits s.bits v) }

/-- `limb(r, j)`: limb j of the storage (00_scope.md R15). -/
def State.limb (s : State) (r : Reg) (j : Nat) : Limb := limbAt (s.regs.get r).limbs j

/-- The wide register with limb j replaced by a value and marked written; limb W-1 is masked
(41_storage_bits.md R113; 10_state.md R33). -/
def WideReg.setLimb (n : Nat) (w : WideReg) (j : Nat) (v : Limb) : WideReg :=
  let st := w.limbs.set j v
  ⟨if isTop n j then clearPad n st else st, w.written.set j true⟩

/-- IMM extended with S = 0: `zext_N(IMM)` (30_encoding.md R85). -/
def State.immU (s : State) : Limbs := zextN s.bits s.imm

/-- IMM extended with S = 1: `sext_N(IMM)` (30_encoding.md R85). -/
def State.immS (s : State) : Limbs := sextN s.bits s.imm

/-- `u64(IMM)`: a shift distance, a bit position (30_encoding.md R86). -/
def State.immCount (s : State) : Nat := s.imm.toNat

end Sys2Proof.Machine
end

