-- ==== Sys2Proof/Machine/Ops.lean ====
section
/-! DEFINITION. The shared operations: scalar results, TAKING A FAULT and the way out of it (60_exceptions.md R262 to R266;
70_reset_and_hazards.md R290), the operand checks, acceptance and completion of a command (70 R293), and the host register
port (10_state.md R39, R40, R46). -/

namespace Sys2Proof.Machine

/-- The outcome type of every meaning. -/
abbrev Result := Host.Outcome State Fault Refusal

/-- `RES <- w` (00_scope.md R15). -/
def State.setRes (s : State) (w : BitVec 64) : State := { s with res := w }

/-- `RES2 <- w` (00_scope.md R15). -/
def State.setRes2 (s : State) (w : BitVec 64) : State := { s with res2 := w }

/-- The 4-bit code of a cause (60_exceptions.md R260). -/
def Cause.code : Cause → BitVec 4
  | .none => 0 | .illegal => 1 | .bitIndex => 2 | .divZero => 3 | .limbIndex => 4

/-- Fault entry (60_exceptions.md R262): the record takes the code, CMD and IMM of the command, and nothing else is written.
With FAULT = 1 nothing changes: "The first fault's record stays until reset" (R264). No mode, vector or return point exists
(R262, R268). -/
def State.raise (s : State) (c : Cause) : State :=
  if s.fault then s
  else { s with fault := true, cause := c, faultCmd := s.cmd, faultImm := s.imm }

/-- An edge with `rst` = 1 (70_reset_and_hazards.md R290): every piece of state takes its value after reset (10_state.md R45),
and the block is held in reset. This is the only way out of the fault state (60_exceptions.md R266). What the host does next is
no state of the block and stays. -/
def State.resetEdge (s : State) : State :=
  { State.resetAt s.bits with inReset := true, inputs := s.inputs }

/-- The limb-index check (41_storage_bits.md R112), then the command. -/
def State.checkLimb (s : State) (j : BitVec 12) (k : Result) : Result :=
  if j.toNat ≥ limbCount s.bits then .next (s.raise .limbIndex) else k

/-- The bit-position check (41_storage_bits.md R115), then the command. -/
def State.checkBit (s : State) (k : Result) : Result :=
  if s.immCount ≥ s.bits then .next (s.raise .bitIndex) else k

/-- The zero-divisor guard (44_divide.md R182), then the command. -/
def State.checkDivisor (s : State) (rs2 : Reg) (k : Result) : Result :=
  if s.u rs2 = 0 then .next (s.raise .divZero) else k

/-- The check of DIVMOD's destinations (30_encoding.md R90), then the command. The decoder makes it first, so no step reaches
the fault here (log 12). -/
def State.checkDests (s : State) (rd rd2 : Reg) (k : Result) : Result :=
  if rd = rd2 then .next (s.raise .illegal) else k

/-- Acceptance (70_reset_and_hazards.md R293): CMD and IMM are sampled, BUSY = 1, and the host's index advances by 1
(10_state.md R36). -/
def State.accept (s : State) (c : Command) : State :=
  { s with busy := true, cmd := c.cmd, imm := c.imm, k := s.k + 1 }

/-- Completion (70_reset_and_hazards.md R293): BUSY = 0; the sampled command is gone (10_state.md R43; log 11). -/
def State.complete (s : State) : State :=
  { s with busy := false, cmd := 0, imm := 0 }

/-- Completion of whatever a meaning answers. -/
def completed : Result → Result
  | .next s => .next s.complete
  | .fault r => .fault r
  | .refused r => .refused r

/-- `cmd_ready`: "idle: not in reset, and with BUSY = 0" (70_reset_and_hazards.md R293). -/
def State.cmdReady (s : State) : Bool := !s.inReset && !s.busy

/-- `fault_o`: "it equals STATUS.FAULT" (60_exceptions.md R267). -/
def State.faultO (s : State) : Bool := s.fault

/-- STATUS (10_state.md R40): FAULT at 0, BUSY at 1, CAUSE at 7:4, every other bit 0. -/
def State.status (s : State) : BitVec 64 :=
  (s.cause.code ++ 0#2 ++ BitVec.ofBool s.busy ++ BitVec.ofBool s.fault).setWidth 64

/-- The content of a host register (10_state.md R39). -/
def State.hostReg (s : State) (addr : BitVec 3) : BitVec 64 :=
  match addr.toNat with
  | 0 => s.status
  | 1 => s.faultCmd.setWidth 64
  | 2 => s.faultImm
  | 3 => BitVec.ofNat 64 s.bits
  | 4 => BitVec.ofNat 64 (limbCount s.bits)
  | 5 => s.res
  | 6 => s.res2
  | _ => 0

/-- `hreg_data` (10_state.md R46): the content of the addressed host register; while BUSY = 1 a free value
(70_reset_and_hazards.md R294; 93 U3; log 6), of which `draw` numbers the read. -/
def State.hregData (s : State) (draw : Nat) (addr : BitVec 3) : BitVec 64 :=
  if s.busy then Config.hregWhileBusy draw addr else s.hostReg addr

end Sys2Proof.Machine
end

