-- ==== Sys2Proof/Machine/AddSub.lean ====
section
/-! DEFINITION. Meanings: addition, subtraction and negation (42_addsub.md). Carry-out, borrow-out and signed overflow are
discarded (10_state.md R37; 60_exceptions.md R261). -/

namespace Sys2Proof.Machine

/-- ADD (R142). -/
def execAdd (rd rs1 rs2 : Reg) (s : State) : Result := .next (s.setX rd (addLimbs s.bits (s.x rs1) (s.x rs2)))

/-- ADDI.U (R143). -/
def execAddiU (rd rs1 : Reg) (s : State) : Result := .next (s.setX rd (addLimbs s.bits (s.x rs1) s.immU))

/-- ADDI.S (R143). -/
def execAddiS (rd rs1 : Reg) (s : State) : Result := .next (s.setX rd (addLimbs s.bits (s.x rs1) s.immS))

/-- SUB (R144): rs1 is the minuend. -/
def execSub (rd rs1 rs2 : Reg) (s : State) : Result := .next (s.setX rd (subLimbs s.bits (s.x rs1) (s.x rs2)))

/-- SUBI.U (R145). -/
def execSubiU (rd rs1 : Reg) (s : State) : Result := .next (s.setX rd (subLimbs s.bits (s.x rs1) s.immU))

/-- SUBI.S (R145). -/
def execSubiS (rd rs1 : Reg) (s : State) : Result := .next (s.setX rd (subLimbs s.bits (s.x rs1) s.immS))

/-- NEG (R146). -/
def execNeg (rd rs1 : Reg) (s : State) : Result := .next (s.setX rd (negLimbs s.bits (s.x rs1)))

end Sys2Proof.Machine
end

