-- ==== Sys2Proof/Machine/Shifter.lean ====
section
/-! DEFINITION. The variable-distance shifter (45_shift.md R200, R201). No 64-bit shift by 64 is formed (00_scope.md R22). -/

namespace Sys2Proof.Machine

/-- `ws`, the word shift: `min(n / 64, W)` (45_shift.md R200). -/
def wordShift (n dist : Nat) : Nat := min (dist / 64) (limbCount n)

/-- `bs`, the bit shift (45_shift.md R200). -/
def bitShift (dist : Nat) : Nat := dist % 64

/-- `shl_limbs(a, dist)` (45_shift.md R200). -/
def shlLimbs (n : Nat) (a : Limbs) (dist : Nat) : Limbs :=
  let ws := wordShift n dist
  let bs := bitShift dist
  clearPad n <| mkLimbs n fun w =>
    if w < ws then 0
    else if bs = 0 then limbAt a (w - ws)
    else if 1 ≤ w - ws then limbAt a (w - ws) <<< bs ||| limbAt a (w - ws - 1) >>> (64 - bs)
    else limbAt a (w - ws) <<< bs

/-- `F`, what the limbs above the top read as (45_shift.md R201). -/
def fillLimb (fill : Bool) : Limb := if fill then BitVec.allOnes 64 else 0

/-- `src(k)`, a limb of the filled storage, or the fill above the top (45_shift.md R201). -/
def shrSource (n : Nat) (st : Limbs) (fill : Bool) (k : Nat) : Limb :=
  if k < limbCount n then limbAt st k else fillLimb fill

/-- `shr_limbs(a, dist, fill)` (45_shift.md R201). -/
def shrLimbs (n : Nat) (a : Limbs) (dist : Nat) (fill : Bool) : Limbs :=
  let st := if fill then fillPad n a else a
  let ws := wordShift n dist
  let bs := bitShift dist
  clearPad n <| mkLimbs n fun w =>
    if bs = 0 then shrSource n st fill (w + ws)
    else shrSource n st fill (w + ws) >>> bs ||| shrSource n st fill (w + ws + 1) <<< (64 - bs)

end Sys2Proof.Machine
end

