-- ==== Sys2Proof/Machine/Divider.lean ====
section
/-! DEFINITION. The restoring long-division engine (44_divide.md R180, R181) and the leading-zero count it uses
(47_bitwise.md R244). -/

namespace Sys2Proof.Machine

/-- The count of zeros from bit p-1 down, padding excluded (47_bitwise.md R244). -/
def leadingZeros (a : Limbs) : Nat → Nat
  | 0 => 0
  | p + 1 => if bitAt a p then 0 else leadingZeros a p + 1

/-- `clz_N(a)` (47_bitwise.md R244): from the sign bit down, N for a = 0. -/
def clzN (n : Nat) (a : Limbs) : Nat := leadingZeros a n

/-- Step 5 of `udivmod` (44_divide.md R180): the quotient bits below position `i`, most significant first, with the working
divisor `dv`, quotient `q` and remainder `r`. The full loop, without early exit (90 C3; log 14). -/
def divLoop (n : Nat) : Nat → Limbs → Limbs → Limbs → Limbs × Limbs
  | 0, _, q, r => (q, r)
  | i + 1, dv, q, r =>
    let dv' := shrLimbs n dv 1 false
    if uval dv ≤ uval r then divLoop n i dv' (setBit q i) (subLimbs n r dv)
    else divLoop n i dv' q r

/-- `udivmod(num, den)`, for `u(den) ≠ 0` (44_divide.md R180). -/
def udivmod (n : Nat) (num den : Limbs) : Limbs × Limbs :=
  if uval den > uval num then (bvN n 0, num)
  else if uval den = uval num then (bvN n 1, bvN n 0)
  else
    let k := clzN n den - clzN n num
    divLoop n (k + 1) (shlLimbs n den k) (bvN n 0) num

/-- `sdivmod(num, den)`, for `u(den) ≠ 0`: magnitudes, then the signs (44_divide.md R181). -/
def sdivmod (n : Nat) (num den : Limbs) : Limbs × Limbs :=
  let nn := signBit n num
  let nd := signBit n den
  let p := udivmod n (if nn then negLimbs n num else num) (if nd then negLimbs n den else den)
  (if nn ^^ nd then negLimbs n p.1 else p.1, if nn then negLimbs n p.2 else p.2)

end Sys2Proof.Machine
end

