-- ==== Sys2Proof/Machine/Bitwise.lean ====
section
/-! DEFINITION. Meanings: bitwise operators and the leading-zero count (47_bitwise.md). -/

namespace Sys2Proof.Machine

/-- AND (R240), limb by limb. -/
def execAnd (rd rs1 rs2 : Reg) (s : State) : Result :=
  .next (s.setX rd (List.zipWith (fun a b => a &&& b) (s.x rs1) (s.x rs2)))

/-- OR (R241), limb by limb. -/
def execOr (rd rs1 rs2 : Reg) (s : State) : Result :=
  .next (s.setX rd (List.zipWith (fun a b => a ||| b) (s.x rs1) (s.x rs2)))

/-- XOR (R242), limb by limb. -/
def execXor (rd rs1 rs2 : Reg) (s : State) : Result :=
  .next (s.setX rd (List.zipWith (fun a b => a ^^^ b) (s.x rs1) (s.x rs2)))

/-- NOT (R243): every limb inverted, padding restored. -/
def execNot (rd rs1 : Reg) (s : State) : Result := .next (s.setX rd (invert s.bits (s.x rs1)))

/-- CLZ (R245). -/
def execClz (rs1 : Reg) (s : State) : Result := .next (s.setRes (BitVec.ofNat 64 (clzN s.bits (s.x rs1))))

end Sys2Proof.Machine
end

