-- ==== Sys2Proof/Machine/Flags.lean ====
section
/-! DEFINITION. "No flags. The block has no carry, overflow, zero, sign or condition flags" (10_state.md R37). What other machines
keep in flags this block computes by comparison and puts in RES: the compare functions (46_compare.md R220), the six relations
(30_encoding.md R89) and the forms their results take in RES (46_compare.md R221 to R228). -/

namespace Sys2Proof.Machine

/-- The comparison of limbs given most significant first: "first differing word decides" (46_compare.md R220). -/
def compareFromTop : Limbs → Limbs → Int
  | a :: as, b :: bs => if a ≠ b then (if a > b then 1 else -1) else compareFromTop as bs
  | _, _ => 0

/-- `ucmp(a, b)` (46_compare.md R220). -/
def ucmp (a b : Limbs) : Int := compareFromTop a.reverse b.reverse

/-- `scmp(a, b)`: negative sorts below non-negative, else as `ucmp` (46_compare.md R220). -/
def scmp (n : Nat) (a b : Limbs) : Int :=
  if signBit n a ≠ signBit n b then (if signBit n a then -1 else 1) else ucmp a b

/-- The conditions of S<cond> (30_encoding.md R89). -/
inductive Cond where
  | eq | ne | lt | le | gt | ge
  deriving DecidableEq, Repr

/-- The relation a condition selects, on the three-way result c (30_encoding.md R89; 46_compare.md R222 to R227). -/
def Cond.holds (c : Int) : Cond → Bool
  | .eq => decide (c = 0)
  | .ne => decide (c ≠ 0)
  | .lt => decide (c < 0)
  | .le => decide (c ≤ 0)
  | .gt => decide (c > 0)
  | .ge => decide (c ≥ 0)

/-- A truth value in RES: 1 for true, 0 for false (46_compare.md R222 to R228; 92 D38). -/
def truth (b : Bool) : BitVec 64 := if b then 1 else 0

end Sys2Proof.Machine
end

