-- ==== Sys2Proof/Machine/Compare.lean ====
section
/-! DEFINITION. Meanings: comparison (46_compare.md). Each writes RES alone. -/

namespace Sys2Proof.Machine

/-- CMP.U (R221): -1, 0 or 1 in two's complement. -/
def execCmpU (rs1 rs2 : Reg) (s : State) : Result :=
  .next (s.setRes (BitVec.ofInt 64 (ucmp (s.x rs1) (s.x rs2))))

/-- CMP.S (R221). -/
def execCmpS (rs1 rs2 : Reg) (s : State) : Result :=
  .next (s.setRes (BitVec.ofInt 64 (scmp s.bits (s.x rs1) (s.x rs2))))

/-- SEQ.U (R222). -/
def execSeqU (rs1 rs2 : Reg) (s : State) : Result :=
  .next (s.setRes (truth (Cond.eq.holds (ucmp (s.x rs1) (s.x rs2)))))

/-- SEQ.S (R222). -/
def execSeqS (rs1 rs2 : Reg) (s : State) : Result :=
  .next (s.setRes (truth (Cond.eq.holds (scmp s.bits (s.x rs1) (s.x rs2)))))

/-- SNE.U (R223). -/
def execSneU (rs1 rs2 : Reg) (s : State) : Result :=
  .next (s.setRes (truth (Cond.ne.holds (ucmp (s.x rs1) (s.x rs2)))))

/-- SNE.S (R223). -/
def execSneS (rs1 rs2 : Reg) (s : State) : Result :=
  .next (s.setRes (truth (Cond.ne.holds (scmp s.bits (s.x rs1) (s.x rs2)))))

/-- SLT.U (R224). -/
def execSltU (rs1 rs2 : Reg) (s : State) : Result :=
  .next (s.setRes (truth (Cond.lt.holds (ucmp (s.x rs1) (s.x rs2)))))

/-- SLT.S (R224). -/
def execSltS (rs1 rs2 : Reg) (s : State) : Result :=
  .next (s.setRes (truth (Cond.lt.holds (scmp s.bits (s.x rs1) (s.x rs2)))))

/-- SLE.U (R225). -/
def execSleU (rs1 rs2 : Reg) (s : State) : Result :=
  .next (s.setRes (truth (Cond.le.holds (ucmp (s.x rs1) (s.x rs2)))))

/-- SLE.S (R225). -/
def execSleS (rs1 rs2 : Reg) (s : State) : Result :=
  .next (s.setRes (truth (Cond.le.holds (scmp s.bits (s.x rs1) (s.x rs2)))))

/-- SGT.U (R226). -/
def execSgtU (rs1 rs2 : Reg) (s : State) : Result :=
  .next (s.setRes (truth (Cond.gt.holds (ucmp (s.x rs1) (s.x rs2)))))

/-- SGT.S (R226). -/
def execSgtS (rs1 rs2 : Reg) (s : State) : Result :=
  .next (s.setRes (truth (Cond.gt.holds (scmp s.bits (s.x rs1) (s.x rs2)))))

/-- SGE.U (R227). -/
def execSgeU (rs1 rs2 : Reg) (s : State) : Result :=
  .next (s.setRes (truth (Cond.ge.holds (ucmp (s.x rs1) (s.x rs2)))))

/-- SGE.S (R227). -/
def execSgeS (rs1 rs2 : Reg) (s : State) : Result :=
  .next (s.setRes (truth (Cond.ge.holds (scmp s.bits (s.x rs1) (s.x rs2)))))

/-- ISNEG.U (R228): an unsigned value is never negative. -/
def execIsnegU (_rs1 : Reg) (s : State) : Result := .next (s.setRes (truth false))

/-- ISNEG.S (R228). -/
def execIsnegS (rs1 : Reg) (s : State) : Result := .next (s.setRes (truth (signBit s.bits (s.x rs1))))

end Sys2Proof.Machine
end

