-- ==== Sys2Proof/Machine/Divide.lean ====
section
/-! DEFINITION. Meanings: division and modulo (44_divide.md). rs1 is the dividend, rs2 the divisor (R183). -/

namespace Sys2Proof.Machine

/-- DIV.U (R184). -/
def execDivU (rd rs1 rs2 : Reg) (s : State) : Result :=
  s.checkDivisor rs2 <| .next (s.setX rd (udivmod s.bits (s.x rs1) (s.x rs2)).1)

/-- DIV.S (R184). -/
def execDivS (rd rs1 rs2 : Reg) (s : State) : Result :=
  s.checkDivisor rs2 <| .next (s.setX rd (sdivmod s.bits (s.x rs1) (s.x rs2)).1)

/-- MOD.U (R185). -/
def execModU (rd rs1 rs2 : Reg) (s : State) : Result :=
  s.checkDivisor rs2 <| .next (s.setX rd (udivmod s.bits (s.x rs1) (s.x rs2)).2)

/-- MOD.S (R185). -/
def execModS (rd rs1 rs2 : Reg) (s : State) : Result :=
  s.checkDivisor rs2 <| .next (s.setX rd (sdivmod s.bits (s.x rs1) (s.x rs2)).2)

/-- DIVMOD.U (R186): both results are of the operands read at the start (R16). -/
def execDivmodU (rd rd2 rs1 rs2 : Reg) (s : State) : Result :=
  s.checkDests rd rd2 <| s.checkDivisor rs2 <|
    let p := udivmod s.bits (s.x rs1) (s.x rs2)
    .next ((s.setX rd p.1).setX rd2 p.2)

/-- DIVMOD.S (R186): both results are of the operands read at the start (R16). -/
def execDivmodS (rd rd2 rs1 rs2 : Reg) (s : State) : Result :=
  s.checkDests rd rd2 <| s.checkDivisor rs2 <|
    let p := sdivmod s.bits (s.x rs1) (s.x rs2)
    .next ((s.setX rd p.1).setX rd2 p.2)

end Sys2Proof.Machine
end

