-- ==== Sys2Proof/Machine/Multiplier.lean ====
section
/-! DEFINITION. The multi-word multiplier with half-word decomposition (43_multiply.md R160, R161, R163, R166). The lines that
combine the partial products and the carry are the spec's from general knowledge (93 G1, G2; log 14). -/

namespace Sys2Proof.Machine

/-- `M32` (43_multiply.md R160). -/
def mask32 : Limb := 0xFFFFFFFF

/-- `mul128(a, b)`, the exact product as (hi, lo), from four half-word products (43_multiply.md R160). -/
def mul128 (a b : Limb) : Limb × Limb :=
  let al := a &&& mask32
  let ah := a >>> 32
  let bl := b &&& mask32
  let bh := b >>> 32
  let ll := al * bl
  let lh := al * bh
  let hl := ah * bl
  let hh := ah * bh
  let mid := (ll >>> 32) + (lh &&& mask32) + (hl &&& mask32)
  let lo := (ll &&& mask32) ||| ((mid &&& mask32) <<< 32)
  let hi := hh + (lh >>> 32) + (hl >>> 32) + (mid >>> 32)
  (hi, lo)

/-- The multiply-by-one-limb chain: the product limbs and the overflow limb (43_multiply.md R161). -/
def mulChain : Limbs → Limb → Limb → Limbs × Limb
  | [], _, carry => ([], carry)
  | a :: as, w, carry =>
    let p := mul128 a w
    let r := p.2 + carry
    let carry' := p.1 + (if r < p.2 then 1 else 0)
    let rest := mulChain as w carry'
    (r :: rest.1, rest.2)

/-- `mul_limb(a, w)` (43_multiply.md R161). -/
def mulLimb (a : Limbs) (w : Limb) : Limbs × Limb := mulChain a w 0

/-- The accumulation of `mul_wide` over the limbs of b, from limb i with `acc` (43_multiply.md R163). -/
def mulAcc (n : Nat) (a : Limbs) : Limbs → Nat → Limbs → Limbs
  | [], _, acc => acc
  | b :: bs, i, acc =>
    let p := shlLimbs n (clearPad n (mulLimb a b).1) (64 * i)
    mulAcc n a bs (i + 1) (addLimbs n acc p)

/-- `mul_wide(a, b)` (43_multiply.md R163). -/
def mulWide (n : Nat) (a b : Limbs) : Limbs := mulAcc n a b 0 (bvN n 0)

/-- `signed_mul(a, b)`: magnitudes, product, sign (43_multiply.md R166). -/
def signedMul (n : Nat) (a b : Limbs) : Limbs :=
  let na := signBit n a
  let nb := signBit n b
  let ma := if na then negLimbs n a else a
  let mb := if nb then negLimbs n b else b
  let p := mulWide n ma mb
  if na ^^ nb then negLimbs n p else p

end Sys2Proof.Machine
end

