-- ==== Sys2Proof/Machine/Multiply.lean ====
section
/-! DEFINITION. Meanings: multiplication (43_multiply.md). -/

namespace Sys2Proof.Machine

/-- MUL (R164), by the sign procedure of R166. -/
def execMul (rd rs1 rs2 : Reg) (s : State) : Result := .next (s.setX rd (signedMul s.bits (s.x rs1) (s.x rs2)))

/-- MULI.U (R165): RES is unchanged. -/
def execMuliU (rd rs1 : Reg) (s : State) : Result := .next (s.setX rd (mulWide s.bits (s.x rs1) s.immU))

/-- MULI.S (R165). -/
def execMuliS (rd rs1 : Reg) (s : State) : Result := .next (s.setX rd (mulWide s.bits (s.x rs1) s.immS))

/-- MULW (R162): the product's limbs, and the overflow limb in RES. -/
def execMulw (rd rs1 : Reg) (s : State) : Result :=
  let p := mulLimb (s.x rs1) s.imm
  .next ((s.setX rd (clearPad s.bits p.1)).setRes p.2)

end Sys2Proof.Machine
end

