-- ==== Sys2Proof/Machine/Shift.lean ====
section
/-! DEFINITION. Meanings: shifts (45_shift.md). The distance is u64(IMM), any value (30_encoding.md R86). -/

namespace Sys2Proof.Machine

/-- SHL (R202). -/
def execShl (rd rs1 : Reg) (s : State) : Result := .next (s.setX rd (shlLimbs s.bits (s.x rs1) s.immCount))

/-- SHR.U (R203). -/
def execShrU (rd rs1 : Reg) (s : State) : Result := .next (s.setX rd (shrLimbs s.bits (s.x rs1) s.immCount false))

/-- SHR.S (R204): the fill is the sign bit. -/
def execShrS (rd rs1 : Reg) (s : State) : Result :=
  .next (s.setX rd (shrLimbs s.bits (s.x rs1) s.immCount (signBit s.bits (s.x rs1))))

end Sys2Proof.Machine
end

