-- ==== Sys2Proof/Machine/Storage.lean ====
section
/-! DEFINITION. Meanings: storage, construction and bit helpers (41_storage_bits.md). -/

namespace Sys2Proof.Machine

/-- LD.U (R110). -/
def execLdU (rd : Reg) (s : State) : Result := .next (s.setX rd s.immU)

/-- LD.S (R110). -/
def execLdS (rd : Reg) (s : State) : Result := .next (s.setX rd s.immS)

/-- MOV (R111): every limb of rd becomes written (R33). -/
def execMov (rd rs1 : Reg) (s : State) : Result := .next (s.setX rd (s.x rs1))

/-- WRLIMB (R113): the one limb it writes becomes written (R33); limb W-1 is masked (R32). -/
def execWrlimb (rd : Reg) (j : BitVec 12) (s : State) : Result :=
  s.checkLimb j <| .next { s with regs := s.regs.set rd ((s.regs.get rd).setLimb s.bits j.toNat s.imm) }

/-- RDLIMB (R114). -/
def execRdlimb (rs1 : Reg) (j : BitVec 12) (s : State) : Result :=
  s.checkLimb j <| .next (s.setRes (s.limb rs1 j.toNat))

/-- GETBIT (R116). -/
def execGetbit (rs1 : Reg) (s : State) : Result :=
  s.checkBit <| .next (s.setRes ((BitVec.ofBool (bitAt (s.x rs1) s.immCount)).setWidth 64))

/-- SETBIT (R117). -/
def execSetbit (rd rs1 : Reg) (s : State) : Result :=
  s.checkBit <| .next (s.setX rd (setBit (s.x rs1) s.immCount))

/-- BITADDR (R118): no range check (92 D31). -/
def execBitaddr (s : State) : Result :=
  .next ((s.setRes (BitVec.ofNat 64 (wordIndex s.immCount))).setRes2 (BitVec.ofNat 64 (bitIndex s.immCount)))

end Sys2Proof.Machine
end

