-- ==== Sys2Proof/Machine/Dispatch.lean ====
section
/-! DEFINITION. The meaning of every command, one arm a constructor, in the opcode map's order (30_encoding.md R87). -/

namespace Sys2Proof.Machine

def exec (i : Instr) (s : State) : Host.Outcome State Fault Refusal :=
  match i with
  -- 41_storage_bits.md
  | .ldU rd => Sys2Proof.Machine.execLdU rd s
  | .ldS rd => Sys2Proof.Machine.execLdS rd s
  | .mov rd rs1 => Sys2Proof.Machine.execMov rd rs1 s
  | .wrlimb rd j => Sys2Proof.Machine.execWrlimb rd j s
  | .rdlimb rs1 j => Sys2Proof.Machine.execRdlimb rs1 j s
  | .getbit rs1 => Sys2Proof.Machine.execGetbit rs1 s
  | .setbit rd rs1 => Sys2Proof.Machine.execSetbit rd rs1 s
  | .bitaddr => Sys2Proof.Machine.execBitaddr s
  -- 42_addsub.md
  | .add rd rs1 rs2 => Sys2Proof.Machine.execAdd rd rs1 rs2 s
  | .addiU rd rs1 => Sys2Proof.Machine.execAddiU rd rs1 s
  | .addiS rd rs1 => Sys2Proof.Machine.execAddiS rd rs1 s
  | .sub rd rs1 rs2 => Sys2Proof.Machine.execSub rd rs1 rs2 s
  | .subiU rd rs1 => Sys2Proof.Machine.execSubiU rd rs1 s
  | .subiS rd rs1 => Sys2Proof.Machine.execSubiS rd rs1 s
  | .neg rd rs1 => Sys2Proof.Machine.execNeg rd rs1 s
  -- 43_multiply.md
  | .mul rd rs1 rs2 => Sys2Proof.Machine.execMul rd rs1 rs2 s
  | .muliU rd rs1 => Sys2Proof.Machine.execMuliU rd rs1 s
  | .muliS rd rs1 => Sys2Proof.Machine.execMuliS rd rs1 s
  | .mulw rd rs1 => Sys2Proof.Machine.execMulw rd rs1 s
  -- 44_divide.md
  | .divU rd rs1 rs2 => Sys2Proof.Machine.execDivU rd rs1 rs2 s
  | .divS rd rs1 rs2 => Sys2Proof.Machine.execDivS rd rs1 rs2 s
  | .modU rd rs1 rs2 => Sys2Proof.Machine.execModU rd rs1 rs2 s
  | .modS rd rs1 rs2 => Sys2Proof.Machine.execModS rd rs1 rs2 s
  | .divmodU rd rd2 rs1 rs2 => Sys2Proof.Machine.execDivmodU rd rd2 rs1 rs2 s
  | .divmodS rd rd2 rs1 rs2 => Sys2Proof.Machine.execDivmodS rd rd2 rs1 rs2 s
  -- 45_shift.md
  | .shl rd rs1 => Sys2Proof.Machine.execShl rd rs1 s
  | .shrU rd rs1 => Sys2Proof.Machine.execShrU rd rs1 s
  | .shrS rd rs1 => Sys2Proof.Machine.execShrS rd rs1 s
  -- 46_compare.md
  | .cmpU rs1 rs2 => Sys2Proof.Machine.execCmpU rs1 rs2 s
  | .cmpS rs1 rs2 => Sys2Proof.Machine.execCmpS rs1 rs2 s
  | .seqU rs1 rs2 => Sys2Proof.Machine.execSeqU rs1 rs2 s
  | .seqS rs1 rs2 => Sys2Proof.Machine.execSeqS rs1 rs2 s
  | .sneU rs1 rs2 => Sys2Proof.Machine.execSneU rs1 rs2 s
  | .sneS rs1 rs2 => Sys2Proof.Machine.execSneS rs1 rs2 s
  | .sltU rs1 rs2 => Sys2Proof.Machine.execSltU rs1 rs2 s
  | .sltS rs1 rs2 => Sys2Proof.Machine.execSltS rs1 rs2 s
  | .sleU rs1 rs2 => Sys2Proof.Machine.execSleU rs1 rs2 s
  | .sleS rs1 rs2 => Sys2Proof.Machine.execSleS rs1 rs2 s
  | .sgtU rs1 rs2 => Sys2Proof.Machine.execSgtU rs1 rs2 s
  | .sgtS rs1 rs2 => Sys2Proof.Machine.execSgtS rs1 rs2 s
  | .sgeU rs1 rs2 => Sys2Proof.Machine.execSgeU rs1 rs2 s
  | .sgeS rs1 rs2 => Sys2Proof.Machine.execSgeS rs1 rs2 s
  | .isnegU rs1 => Sys2Proof.Machine.execIsnegU rs1 s
  | .isnegS rs1 => Sys2Proof.Machine.execIsnegS rs1 s
  -- 47_bitwise.md
  | .and rd rs1 rs2 => Sys2Proof.Machine.execAnd rd rs1 rs2 s
  | .or rd rs1 rs2 => Sys2Proof.Machine.execOr rd rs1 rs2 s
  | .xor rd rs1 rs2 => Sys2Proof.Machine.execXor rd rs1 rs2 s
  | .not rd rs1 => Sys2Proof.Machine.execNot rd rs1 s
  | .clz rs1 => Sys2Proof.Machine.execClz rs1 s

end Sys2Proof.Machine
end

