-- ==== Sys2Proof/Machine/Handshake.lean ====
section
/-! DEFINITION. The host's side of a step: fetching the next command, the handshake, reset and the fault state
(70_reset_and_hazards.md R290 to R293; 60_exceptions.md R262, R264). -/

namespace Sys2Proof.Machine

/-- Execute an accepted command (30_encoding.md R91): an illegal CMD raises ILLEGAL, a legal one runs its rule. -/
def State.runDecoded (s : State) : Result :=
  match decode s.cmd with
  | .illegal _ => .next (s.raise .illegal)
  | .instr i => exec i s

/-- One whole command: acceptance, execution, completion (70_reset_and_hazards.md R293). In the fault state the command is
accepted and discarded: "the command is not decoded" (60_exceptions.md R264). -/
def State.runCommand (s : State) (c : Command) : Result :=
  let a := s.accept c
  completed (if s.fault then .next a else a.runDecoded)

/-- One edge (or one host read) with the event `e`, the rest of the host's list already left in `s`. While the block is held in
reset it accepts no command, and the first edge with `rst` = 0 ends reset (70_reset_and_hazards.md R290): a command presented at
that edge stays first in the list (R293). -/
def State.edge (s : State) (e : HostEvent) : Result :=
  match e with
  | .reset => .next s.resetEdge
  | .idle => .next { s with inReset := false }
  | .hostRead _ => .next s
  | .command c =>
    if s.inReset then .next { s with inReset := false, inputs := e :: s.inputs } else s.runCommand c
  | .commandAbandoned c =>
    if s.inReset then .next { s with inReset := false, inputs := e :: s.inputs } else .next (s.accept c).resetEdge

/-- The next event of the host; when its list is exhausted the block idles (10_state.md R36; 60_exceptions.md R274). -/
def State.hostStep (s : State) : Result :=
  match s.inputs with
  | [] => s.edge .idle
  | e :: rest => { s with inputs := rest }.edge e

/-- The state with a command as the next thing the host presents to a block that is not held in reset. -/
def State.presentNext (s : State) (c : Command) : State :=
  { s with inReset := false, inputs := .command c :: s.inputs }

end Sys2Proof.Machine
end

