-- ==== Sys2Proof/Machine/Step.lean ====
section
/-! DEFINITION. One step of the machine. -/

namespace Sys2Proof.Machine

/-- A width that no block has is refused (00_scope.md R6); otherwise the host's next event happens. -/
def step (s : State) : Host.Outcome State Fault Refusal :=
  if widthOk s.bits then s.hostStep else .refused .widthOutOfRange

/-- `s` with the command that a table word stands for as the next command presented (log 7, log 9). -/
def State.withFetchWord (s : State) (nbits w : Nat) : State :=
  s.presentNext (Command.ofNat nbits w)

end Sys2Proof.Machine
end

