-- ==== Sys2Proof/Safety.lean ====
section
/-! DEFINITION. What counts as a safe run: no command reads a limb that no command has written since reset, and no fault is raised
(10_state.md R33; 70_reset_and_hazards.md R292; 93 U1, U2). `strictStep` is the conservative machine that 93 recommends to a model;
`step` is the hardware, which raises no fault for such a read and goes on after a fault. -/

namespace Sys2Proof

open Sys2Proof.Machine

/-- The wide registers a command reads whole: its source fields (30_encoding.md R87). RDLIMB reads one limb and WRLIMB none
(10_state.md R33). -/
def Instr.sources : Instr → List Reg
  | .ldU _ | .ldS _ | .wrlimb _ _ | .rdlimb _ _ | .bitaddr => []
  | .mov _ a | .getbit a | .setbit _ a | .addiU _ a | .addiS _ a | .subiU _ a | .subiS _ a | .neg _ a
  | .muliU _ a | .muliS _ a | .mulw _ a | .shl _ a | .shrU _ a | .shrS _ a | .isnegU a | .isnegS a | .not _ a | .clz a => [a]
  | .add _ a b | .sub _ a b | .mul _ a b | .divU _ a b | .divS _ a b | .modU _ a b | .modS _ a b
  | .divmodU _ _ a b | .divmodS _ _ a b
  | .cmpU a b | .cmpS a b | .seqU a b | .seqS a b | .sneU a b | .sneS a b | .sltU a b | .sltS a b
  | .sleU a b | .sleS a b | .sgtU a b | .sgtS a b | .sgeU a b | .sgeS a b
  | .and _ a b | .or _ a b | .xor _ a b => [a, b]

/-- The wide registers a command writes: its destination fields (30_encoding.md R87). -/
def Instr.dests : Instr → List Reg
  | .ldU d | .ldS d | .mov d _ | .wrlimb d _ | .setbit d _
  | .add d _ _ | .addiU d _ | .addiS d _ | .sub d _ _ | .subiU d _ | .subiS d _ | .neg d _
  | .mul d _ _ | .muliU d _ | .muliS d _ | .mulw d _
  | .divU d _ _ | .divS d _ _ | .modU d _ _ | .modS d _ _
  | .shl d _ | .shrU d _ | .shrS d _ | .and d _ _ | .or d _ _ | .xor d _ _ | .not d _ => [d]
  | .divmodU d d2 _ _ | .divmodS d d2 _ _ => [d, d2]
  | .rdlimb _ _ | .getbit _ | .bitaddr
  | .cmpU _ _ | .cmpS _ _ | .seqU _ _ | .seqS _ _ | .sneU _ _ | .sneS _ _ | .sltU _ _ | .sltS _ _
  | .sleU _ _ | .sleS _ _ | .sgtU _ _ | .sgtS _ _ | .sgeU _ _ | .sgeS _ _ | .isnegU _ | .isnegS _ | .clz _ => []

/-- The commands that write RES (10_state.md R35). -/
def Instr.writesRes : Instr → Bool
  | .rdlimb _ _ | .getbit _ | .bitaddr | .mulw _ _
  | .cmpU _ _ | .cmpS _ _ | .seqU _ _ | .seqS _ _ | .sneU _ _ | .sneS _ _ | .sltU _ _ | .sltS _ _
  | .sleU _ _ | .sleS _ _ | .sgtU _ _ | .sgtS _ _ | .sgeU _ _ | .sgeS _ _ | .isnegU _ | .isnegS _ | .clz _ => true
  | .ldU _ | .ldS _ | .mov _ _ | .wrlimb _ _ | .setbit _ _
  | .add _ _ _ | .addiU _ _ | .addiS _ _ | .sub _ _ _ | .subiU _ _ | .subiS _ _ | .neg _ _
  | .mul _ _ _ | .muliU _ _ | .muliS _ _
  | .divU _ _ _ | .divS _ _ _ | .modU _ _ _ | .modS _ _ _ | .divmodU _ _ _ _ | .divmodS _ _ _ _
  | .shl _ _ | .shrU _ _ | .shrS _ _ | .and _ _ _ | .or _ _ _ | .xor _ _ _ | .not _ _ => false

/-- BITADDR alone writes RES2 (10_state.md R35). -/
def Instr.writesRes2 : Instr → Bool
  | .bitaddr => true
  | .ldU _ | .ldS _ | .mov _ _ | .wrlimb _ _ | .rdlimb _ _ | .getbit _ | .setbit _ _
  | .add _ _ _ | .addiU _ _ | .addiS _ _ | .sub _ _ _ | .subiU _ _ | .subiS _ _ | .neg _ _
  | .mul _ _ _ | .muliU _ _ | .muliS _ _ | .mulw _ _
  | .divU _ _ _ | .divS _ _ _ | .modU _ _ _ | .modS _ _ _ | .divmodU _ _ _ _ | .divmodS _ _ _ _
  | .shl _ _ | .shrU _ _ | .shrS _ _
  | .cmpU _ _ | .cmpS _ _ | .seqU _ _ | .seqS _ _ | .sneU _ _ | .sneS _ _ | .sltU _ _ | .sltS _ _
  | .sleU _ _ | .sleS _ _ | .sgtU _ _ | .sgtS _ _ | .sgeU _ _ | .sgeS _ _ | .isnegU _ | .isnegS _ | .clz _
  | .and _ _ _ | .or _ _ _ | .xor _ _ _ | .not _ _ => false

/-- Limb j of a wide register has been written since reset (10_state.md R33). -/
def Machine.WideReg.isWritten (w : WideReg) (j : Nat) : Bool := w.written.getD j false

/-- All W limbs have been written (10_state.md R33). -/
def Machine.WideReg.allWritten (n : Nat) (w : WideReg) : Bool := (List.range (limbCount n)).all w.isWritten

/-- Every limb the command reads has been written: all W limbs of each source, or RDLIMB's one limb. An RDLIMB whose index is
out of range reads none (10_state.md R33; 41_storage_bits.md R112). -/
def Machine.State.readsWritten (s : State) (i : Instr) : Bool :=
  i.sources.all (fun r => (s.regs.get r).allWritten s.bits) &&
  match i with
  | .rdlimb r j => decide (limbCount s.bits ≤ j.toNat) || (s.regs.get r).isWritten j.toNat
  | _ => true

/-- The event resets the block. -/
def Machine.HostEvent.resets : HostEvent → Bool
  | .reset | .commandAbandoned _ => true
  | .command _ | .idle | .hostRead _ => false

/-- The command that the next step will accept and decode, if there is one. -/
def Machine.State.nextInstr (s : State) : Option Instr :=
  match s.inputs with
  | .command c :: _ =>
    if s.inReset || s.fault then none
    else match decode c.cmd with
      | .instr i => some i
      | .illegal _ => none
  | _ => none

/-- The conservative machine: FAULT = 1 is a fault outcome that only reset leaves (93 U2), and a read of an unwritten limb is a
fault, after ILLEGAL and before the operand check (93 U1; 60_exceptions.md R265). -/
def Safety.strictStep (s : State) : Host.Outcome State Fault Refusal :=
  if s.fault && !(s.inputs.head?.elim false HostEvent.resets) then .fault .faultState
  else if s.nextInstr.elim false (fun i => !s.readsWritten i) then .fault .unwrittenLimb
  else step s

/-! ### The terms that statements use -/

/-- The block is out of reset, has no fault, and the host presents command `c`, then `rest` (70_reset_and_hazards.md R293). -/
structure Machine.State.Ready (s : State) (c : Command) (rest : List HostEvent) : Prop where
  width      : widthOk s.bits = true
  outOfReset : s.inReset = false
  noFault    : s.fault = false
  presented  : s.inputs = .command c :: rest

/-- `x[r] <- bv_N(k)` and nothing else (00_scope.md R13, R15): the register holds the N-bit vector, every limb written. -/
def Machine.State.withX (s : State) (r : Reg) (k : Int) : State :=
  { s with regs := s.regs.set r ⟨bvN s.bits k, List.replicate (limbCount s.bits) true⟩ }

/-- The state after the ready block accepts command `c` and the command faults with cause `k`: the record holds the fault, the
host's index has advanced, BUSY = 0, and nothing else has changed (60_exceptions.md R262, R263; 10_state.md R36, R43). -/
def Machine.State.faulted (s : State) (c : Command) (rest : List HostEvent) (k : Cause) : State :=
  { s with
    fault := true, cause := k, faultCmd := c.cmd, faultImm := c.imm
    busy := false, cmd := 0, imm := 0, k := s.k + 1, inputs := rest }

/-- The fault code that the command raises in this state, by the table of 60_exceptions.md R260 and the priority of R265; `none`
where the table names no condition that holds (R261). -/
def Machine.State.faultOf (s : State) (c : Command) : Cause :=
  match decode c.cmd with
  | .illegal _ => .illegal
  | .instr i =>
    match i with
    | .getbit _ | .setbit _ _ => if s.bits ≤ c.imm.toNat then .bitIndex else .none
    | .wrlimb _ j | .rdlimb _ j => if limbCount s.bits ≤ j.toNat then .limbIndex else .none
    | .divU _ _ d | .divS _ _ d | .modU _ _ d | .modS _ _ d | .divmodU _ _ _ d | .divmodS _ _ _ d =>
      if s.u d = 0 then .divZero else .none
    | .ldU _ | .ldS _ | .mov _ _ | .bitaddr
    | .add _ _ _ | .addiU _ _ | .addiS _ _ | .sub _ _ _ | .subiU _ _ | .subiS _ _ | .neg _ _
    | .mul _ _ _ | .muliU _ _ | .muliS _ _ | .mulw _ _ | .shl _ _ | .shrU _ _ | .shrS _ _
    | .cmpU _ _ | .cmpS _ _ | .seqU _ _ | .seqS _ _ | .sneU _ _ | .sneS _ _ | .sltU _ _ | .sltS _ _
    | .sleU _ _ | .sleS _ _ | .sgtU _ _ | .sgtS _ _ | .sgeU _ _ | .sgeS _ _ | .isnegU _ | .isnegS _
    | .and _ _ _ | .or _ _ _ | .xor _ _ _ | .not _ _ | .clz _ => .none

/-- What every step keeps. -/
structure Machine.State.Inv (s : State) : Prop where
  /-- The block exists (00_scope.md R6). -/
  width    : widthOk s.bits = true
  /-- Every wide register has W limbs, padding 0, and one written mark a limb (10_state.md R30, R32, R33). -/
  regs     : ∀ r, (s.regs.get r).wf s.bits = true
  /-- CAUSE is 0 while FAULT = 0 (10_state.md R40), and the rest of the record too. -/
  noRecord : s.fault = false → s.cause = .none ∧ s.faultCmd = 0 ∧ s.faultImm = 0
  /-- With FAULT = 1 a cause is recorded (10_state.md R38). -/
  recorded : s.fault = true → s.cause ≠ .none
  /-- Between commands BUSY = 0 and no command is sampled (10_state.md R43; 70_reset_and_hazards.md R293). -/
  idle     : s.busy = false ∧ s.cmd = 0 ∧ s.imm = 0
  /-- In reset, no fault and no command yet (70_reset_and_hazards.md R290). -/
  reset    : s.inReset = true → s.fault = false ∧ s.k = 0

/-- Two states that agree but for what the hardware leaves unspecified: limbs no command has written, and RES and RES2
(10_state.md R33, R45). -/
def Machine.State.AgreeOnWritten (s s' : State) : Prop :=
  (∃ f a b, s' = { s with regs := f, res := a, res2 := b }) ∧
  ∀ r, (s'.regs.get r).written = (s.regs.get r).written ∧
    ∀ j, (s.regs.get r).isWritten j = true → limbAt (s'.regs.get r).limbs j = limbAt (s.regs.get r).limbs j

end Sys2Proof
end

