-- ==== Sys2Proof/Certificates/Slice0/Obligations.lean ====
section
/-! DEFINITION. The statements for the provers, in the order of the files of spec/. A statement of an instruction's result says three
things at once: its CMD word as the rule's "Encoding" line writes it; that `exec` ANSWERS a next state; and every field of that
state (`withX` and the record updates change what they name and nothing else), so the frame is part of it. -/

section

open Sys2Proof Sys2Proof.Machine

/-! ### Width and state -/

/-- 00_scope.md R6: a block has 65 <= N <= 262144; every step of such a block answers a next state, and the model refuses every
other width. -/
def Obligations.StepAnswersExactlyForLegalWidths : Prop :=
  ∀ s : State,
    (65 ≤ s.bits ∧ s.bits ≤ 262144 → ∃ t, step s = .next t) ∧
    (¬(65 ≤ s.bits ∧ s.bits ≤ 262144) → step s = .refused .widthOutOfRange)

/-- 00_scope.md R7, R8: `W = ceil(N/64)`, `P = 64*W - N`, and their ranges. -/
def Obligations.LimbAndPaddingCounts : Prop :=
  ∀ n : Nat, widthOk n = true →
    64 * (limbCount n - 1) < n ∧ n ≤ 64 * limbCount n ∧ 2 ≤ limbCount n ∧ limbCount n ≤ 4096 ∧
    padCount n + n = 64 * limbCount n ∧ padCount n ≤ 63

/-- 00_scope.md R12, R13, R15: after `x[r] <- bv_N(k)` the register reads `k mod 2^N` unsigned and the two's-complement value of
those bits signed; its padding reads 0; every other wide register reads as before. -/
def Obligations.WideRegisterReadsBackModuloWidth : Prop :=
  ∀ (s : State) (r : Reg) (k : Int), widthOk s.bits = true →
    ((s.withX r k).u r : Int) = k % 2 ^ s.bits ∧
    (s.withX r k).sgn r = Int.bmod k (2 ^ s.bits) ∧
    (∀ p, s.bits ≤ p → bitAt ((s.withX r k).regs.get r).limbs p = false) ∧
    ∀ r', r' ≠ r → (s.withX r k).u r' = s.u r' ∧ (s.withX r k).sgn r' = s.sgn r'

/-- 10_state.md R32: padding bits are 0 after every step, in every state that keeps the invariant. -/
def Obligations.PaddingBitsReadZero : Prop :=
  ∀ (s t : State), s.Inv → step s = .next t →
    ∀ (r : Reg) (p : Nat), s.bits ≤ p → bitAt (t.regs.get r).limbs p = false

/-- 10_state.md R34: no command reads RES or RES2, and a command that does not write one leaves it unchanged: with other values in
them the command leaves the same state but for them, and each ends either as the command writes it or as it was. -/
def Obligations.NoCommandReadsResultRegisters : Prop :=
  ∀ (i : Instr) (s t : State) (a b : BitVec 64), exec i s = .next t →
    (i.writesRes = false → t.res = s.res) ∧ (i.writesRes2 = false → t.res2 = s.res2) ∧
    ∃ t', exec i { s with res := a, res2 := b } = .next t' ∧
      t = { t' with res := t.res, res2 := t.res2 } ∧
      (t'.res = t.res ∨ (t.res = s.res ∧ t'.res = a)) ∧
      (t'.res2 = t.res2 ∨ (t.res2 = s.res2 ∧ t'.res2 = b))

/-- 10_state.md R36: the host command index starts at 0, advances by 1 for each command accepted, and no read, idle edge or exhausted
list changes it. Two clauses are not R36's. That a reset edge, also one during a command, sets it to 0 is read from R45 and
70_reset_and_hazards.md R290 and R291 (DEDUCED, log 16). That a command (or one to be abandoned) presented to a block held in
reset is not accepted at that edge and leaves it is the model's reading of R293 (DESIGN CHOICE, log 8). -/
def Obligations.CommandIndexCountsAcceptedCommands : Prop :=
  State.reset.k = 0 ∧
  ∀ (s t : State), step s = .next t →
    (s.inputs = [] → t.k = s.k) ∧
    ∀ (e : HostEvent) (rest : List HostEvent), s.inputs = e :: rest →
      match e with
      | .command _ => t.k = if s.inReset then s.k else s.k + 1
      | .commandAbandoned _ => t.k = if s.inReset then s.k else 0
      | .reset => t.k = 0
      | .idle => t.k = s.k
      | .hostRead _ => t.k = s.k

/-- 10_state.md R39, R40: the host register map, and the fields of STATUS. Reads are while BUSY = 0 (70_reset_and_hazards.md
R294). "Every register is read-only to the host": a step in which the host neither presents a command nor resets the block, a host
read or an idle edge, leaves every host register as it was. -/
def Obligations.HostRegisterMapContents : Prop :=
  ∀ (s : State) (draw : Nat),
    (s.status.getLsbD 0 = s.fault ∧ s.status.getLsbD 1 = s.busy ∧ s.status.extractLsb' 4 4 = s.cause.code ∧
      ∀ p, p ≠ 0 → p ≠ 1 → ¬(4 ≤ p ∧ p ≤ 7) → s.status.getLsbD p = false) ∧
    (s.busy = false →
      s.hregData draw 0 = s.status ∧
      s.hregData draw 1 = s.faultCmd.setWidth 64 ∧
      s.hregData draw 2 = s.faultImm ∧
      s.hregData draw 3 = BitVec.ofNat 64 s.bits ∧
      s.hregData draw 4 = BitVec.ofNat 64 (limbCount s.bits) ∧
      s.hregData draw 5 = s.res ∧
      s.hregData draw 6 = s.res2 ∧
      s.hregData draw 7 = 0) ∧
    ∀ t, step s = .next t →
      (s.inputs = [] ∨ (∃ rest, s.inputs = .idle :: rest) ∨ ∃ a rest, s.inputs = .hostRead a :: rest) →
        ∀ addr, t.hostReg addr = s.hostReg addr

/-- 10_state.md R41: CFG_BITS and CFG_WORDS are hardwired: no step changes them. -/
def Obligations.WidthNeverChanges : Prop :=
  ∀ (s t : State), step s = .next t →
    t.bits = s.bits ∧ t.hostReg 3 = BitVec.ofNat 64 s.bits ∧ t.hostReg 4 = BitVec.ofNat 64 (limbCount s.bits)

/-- 10_state.md R45: the values the spec gives the state after reset, at every width. (What it leaves unspecified, the bits of
X0 to X7 and RES and RES2, is not part of this statement: logs 1 and 2.) -/
def Obligations.StateAfterReset : Prop :=
  ∀ n : Nat,
    let s := State.resetAt n
    s.bits = n ∧ s.fault = false ∧ s.busy = false ∧ s.cause = .none ∧ s.faultCmd = 0 ∧ s.faultImm = 0 ∧ s.k = 0 ∧
    s.hostReg 3 = BitVec.ofNat 64 n ∧ s.hostReg 4 = BitVec.ofNat 64 (limbCount n) ∧
    ∀ r, (∀ j, (s.regs.get r).isWritten j = false) ∧ ∀ p, n ≤ p → bitAt (s.regs.get r).limbs p = false

/-- 20_memory.md R66: a host read changes no state (the read itself leaves the host's list), repeated reads agree while BUSY = 0,
and RDLIMB writes RES and nothing else, or faults. -/
def Obligations.HostReadHasNoSideEffect : Prop :=
  ∀ (s : State) (a : BitVec 3) (rest : List HostEvent), widthOk s.bits = true → s.inputs = .hostRead a :: rest →
    step s = .next { s with inputs := rest } ∧
    (s.busy = false → ∀ draw draw' : Nat, s.hregData draw a = ({ s with inputs := rest } : State).hregData draw' a) ∧
    ∀ (r : Reg) (j : BitVec 12),
      (∃ v, exec (.rdlimb r j) s = .next { s with res := v }) ∨ exec (.rdlimb r j) s = .next (s.raise .limbIndex)

/-! ### Encoding -/

/-- Words of the rules' own examples, one or more of each family, decode to the commands they stand for. -/
def Obligations.SpecExampleWordsDecode : Prop :=
  decode 0x06200000 = .instr (.ldS .x1) ∧
  decode 0x0C400001 = .instr (.wrlimb .x2 1) ∧
  decode 0x1C000000 = .instr .bitaddr ∧
  decode 0x20298000 = .instr (.add .x1 .x2 .x3) ∧
  decode 0x27480000 = .instr (.subiS .x2 .x2) ∧
  decode 0x30440000 = .instr (.mulw .x2 .x1) ∧
  decode 0x3E654000 = .instr (.divmodS .x3 .x4 .x1 .x2) ∧
  decode 0x46440000 = .instr (.shrS .x2 .x1) ∧
  decode 0x4E053000 = .instr (.sleS .x1 .x2) ∧
  decode 0x52040000 = .instr (.isnegS .x1) ∧
  decode 0x5C650000 = .instr (.xor .x3 .x1 .x2) ∧
  decode 0x64040000 = .instr (.clz .x1)

/-- Decoding an encoded command gives it back: every well-formed command, every operand (30_encoding.md R81, R87, R89, R90). -/
def Obligations.DecodeOfEncodeIsTheCommand : Prop :=
  ∀ i : Instr, i.wf = true → decode (encode i) = .instr i

/-- A CMD that decodes to a command is that command's one word: every field the command does not use is 0, and a DIVMOD names two
destinations (30_encoding.md R84, R90, R91). -/
def Obligations.EncodeOfDecodeIsTheWord : Prop :=
  ∀ (w : CmdWord) (i : Instr), decode w = .instr i → encode i = w ∧ i.wf = true

/-- 30_encoding.md R87: the opcode map has a row for each of the 49 commands, and "No two rows overlap". -/
def Obligations.OpcodeMapRowsDoNotOverlap : Prop :=
  opcodeMap.length = 49 ∧
  opcodeMap.Pairwise fun a b => ∀ w : CmdWord, ¬(a.selects w = true ∧ b.selects w = true)

/-- 30_encoding.md R88 and the last row of R89: opcode 0x00, opcodes 0x1A to 0x3F, and S<cond> with f3 of 6 or 7 raise
ILLEGAL. -/
def Obligations.ReservedEncodingsRaiseIllegal : Prop :=
  ∀ (s : State) (c : Command) (rest : List HostEvent), s.Ready c rest →
    ((c.cmd.extractLsb' 26 6).toNat = 0 ∨ 0x1A ≤ (c.cmd.extractLsb' 26 6).toNat ∨
      ((c.cmd.extractLsb' 26 6).toNat = 0x13 ∧ 6 ≤ (c.cmd.extractLsb' 12 3).toNat)) →
    step s = .next (s.faulted c rest .illegal)

/-- 30_encoding.md R90: a DIVMOD with rd = rd2 matches its row and raises ILLEGAL. -/
def Obligations.DivmodWithOneDestinationRaisesIllegal : Prop :=
  ∀ (s : State) (c : Command) (rest : List HostEvent) (rd rs1 rs2 : Reg), s.Ready c rest →
    (c.cmd = 0x3C000000 ||| rd.field 21 ||| rs1.field 18 ||| rs2.field 15 ||| rd.field 12 ∨
      c.cmd = 0x3E000000 ||| rd.field 21 ||| rs1.field 18 ||| rs2.field 15 ||| rd.field 12) →
    (∃ row ∈ opcodeMap, row.selects c.cmd = true) ∧
    step s = .next (s.faulted c rest .illegal)

/-! ### Storage, construction and bit helpers -/

/-- 41_storage_bits.md R110: LD.U writes `zext_N(IMM)`, LD.S `sext_N(IMM)`. -/
def Obligations.LoadExtendsTheNativeInteger : Prop :=
  ∀ (rd : Reg) (s : State),
    encode (.ldU rd) = 0x04000000 ||| rd.field 21 ∧
    encode (.ldS rd) = 0x06000000 ||| rd.field 21 ∧
    exec (.ldU rd) s = .next (s.withX rd s.imm.toNat) ∧
    exec (.ldS rd) s = .next (s.withX rd s.imm.toInt)

/-- 41_storage_bits.md R111: MOV copies the value and marks every limb of rd written. -/
def Obligations.MoveCopiesTheValue : Prop :=
  ∀ (rd rs1 : Reg) (s : State),
    encode (.mov rd rs1) = 0x08000000 ||| rd.field 21 ||| rs1.field 18 ∧
    exec (.mov rd rs1) s = .next (s.withX rd (s.u rs1))

/-- 41_storage_bits.md R112, R113: WRLIMB replaces limb j by IMM, with padding bits 0, marks it written, and changes nothing else;
with j >= W it raises LIMB_INDEX and writes nothing. -/
def Obligations.WriteLimbReplacesOneLimb : Prop :=
  ∀ (rd : Reg) (j : BitVec 12) (s : State), (s.regs.get rd).wf s.bits = true →
    encode (.wrlimb rd j) = 0x0C000000 ||| rd.field 21 ||| j.setWidth 32 ∧
    (limbCount s.bits ≤ j.toNat → s.fault = false →
      exec (.wrlimb rd j) s =
        .next { s with fault := true, cause := .limbIndex, faultCmd := s.cmd, faultImm := s.imm }) ∧
    (j.toNat < limbCount s.bits →
      ∃ w : WideReg, exec (.wrlimb rd j) s = .next { s with regs := s.regs.set rd w } ∧
        w.limbs.length = limbCount s.bits ∧
        (∀ p, bitAt w.limbs p =
          if p / 64 = j.toNat then decide (p < s.bits) && s.imm.getLsbD (p % 64) else bitAt (s.regs.get rd).limbs p) ∧
        w.written.length = limbCount s.bits ∧
        ∀ i, w.isWritten i = (i == j.toNat || (s.regs.get rd).isWritten i))

/-- 41_storage_bits.md R112, R114: RDLIMB puts limb j in RES, padding bits 0; with j >= W it raises LIMB_INDEX and writes
nothing. -/
def Obligations.ReadLimbWritesResult : Prop :=
  ∀ (rs1 : Reg) (j : BitVec 12) (s : State), (s.regs.get rs1).wf s.bits = true →
    encode (.rdlimb rs1 j) = 0x10000000 ||| rs1.field 18 ||| j.setWidth 32 ∧
    (limbCount s.bits ≤ j.toNat → s.fault = false →
      exec (.rdlimb rs1 j) s =
        .next { s with fault := true, cause := .limbIndex, faultCmd := s.cmd, faultImm := s.imm }) ∧
    (j.toNat < limbCount s.bits →
      ∃ v : BitVec 64, exec (.rdlimb rs1 j) s = .next { s with res := v } ∧
        (∀ b, b < 64 → v.getLsbD b = bitAt (s.regs.get rs1).limbs (64 * j.toNat + b)) ∧
        ∀ b, s.bits ≤ 64 * j.toNat + b → v.getLsbD b = false)

/-- 41_storage_bits.md R115, R116: GETBIT puts bit pos in RES; with pos >= N it raises BIT_INDEX and writes nothing. -/
def Obligations.GetBitWritesResult : Prop :=
  ∀ (rs1 : Reg) (s : State),
    encode (.getbit rs1) = 0x14000000 ||| rs1.field 18 ∧
    (s.bits ≤ s.imm.toNat → s.fault = false →
      exec (.getbit rs1) s =
        .next { s with fault := true, cause := .bitIndex, faultCmd := s.cmd, faultImm := s.imm }) ∧
    (s.imm.toNat < s.bits →
      exec (.getbit rs1) s = .next { s with res := if (s.u rs1).testBit s.imm.toNat then 1 else 0 })

/-- 41_storage_bits.md R115, R117: SETBIT sets bit pos to 1 and leaves every other bit; with pos >= N it raises BIT_INDEX and
writes nothing. -/
def Obligations.SetBitSetsOneBit : Prop :=
  ∀ (rd rs1 : Reg) (s : State),
    encode (.setbit rd rs1) = 0x18000000 ||| rd.field 21 ||| rs1.field 18 ∧
    (s.bits ≤ s.imm.toNat → s.fault = false →
      exec (.setbit rd rs1) s =
        .next { s with fault := true, cause := .bitIndex, faultCmd := s.cmd, faultImm := s.imm }) ∧
    (s.imm.toNat < s.bits →
      exec (.setbit rd rs1) s = .next (s.withX rd ((s.u rs1 ||| 2 ^ s.imm.toNat : Nat) : Int)))

/-- 41_storage_bits.md R118: BITADDR splits a bit position, of any value. -/
def Obligations.BitAddressSplitsThePosition : Prop :=
  ∀ s : State,
    encode .bitaddr = 0x1C000000 ∧
    exec .bitaddr s =
      .next { s with res := BitVec.ofNat 64 (s.imm.toNat / 64), res2 := BitVec.ofNat 64 (s.imm.toNat % 64) }

/-! ### Addition, subtraction and negation -/

/-- 42_addsub.md R142: ADD adds modulo 2^N, the same bits in both views. -/
def Obligations.AddWrapsModuloWidth : Prop :=
  ∀ (rd rs1 rs2 : Reg) (s : State),
    encode (.add rd rs1 rs2) = 0x20000000 ||| rd.field 21 ||| rs1.field 18 ||| rs2.field 15 ∧
    exec (.add rd rs1 rs2) s = .next (s.withX rd (s.u rs1 + s.u rs2)) ∧
    exec (.add rd rs1 rs2) s = .next (s.withX rd (s.sgn rs1 + s.sgn rs2))

/-- 42_addsub.md R143: ADDI.U adds u64(IMM), ADDI.S adds s64(IMM). -/
def Obligations.AddImmediateExtendsTheScalar : Prop :=
  ∀ (rd rs1 : Reg) (s : State),
    encode (.addiU rd rs1) = 0x21000000 ||| rd.field 21 ||| rs1.field 18 ∧
    encode (.addiS rd rs1) = 0x23000000 ||| rd.field 21 ||| rs1.field 18 ∧
    exec (.addiU rd rs1) s = .next (s.withX rd (s.u rs1 + s.imm.toNat)) ∧
    exec (.addiS rd rs1) s = .next (s.withX rd (s.u rs1 + s.imm.toInt))

/-- 42_addsub.md R144: SUB subtracts rs2 from rs1 modulo 2^N, the same bits in both views. -/
def Obligations.SubtractWrapsModuloWidth : Prop :=
  ∀ (rd rs1 rs2 : Reg) (s : State),
    encode (.sub rd rs1 rs2) = 0x24000000 ||| rd.field 21 ||| rs1.field 18 ||| rs2.field 15 ∧
    exec (.sub rd rs1 rs2) s = .next (s.withX rd ((s.u rs1 : Int) - s.u rs2)) ∧
    exec (.sub rd rs1 rs2) s = .next (s.withX rd (s.sgn rs1 - s.sgn rs2))

/-- 42_addsub.md R145: SUBI.U subtracts u64(IMM), SUBI.S subtracts s64(IMM). -/
def Obligations.SubtractImmediateExtendsTheScalar : Prop :=
  ∀ (rd rs1 : Reg) (s : State),
    encode (.subiU rd rs1) = 0x25000000 ||| rd.field 21 ||| rs1.field 18 ∧
    encode (.subiS rd rs1) = 0x27000000 ||| rd.field 21 ||| rs1.field 18 ∧
    exec (.subiU rd rs1) s = .next (s.withX rd ((s.u rs1 : Int) - s.imm.toNat)) ∧
    exec (.subiS rd rs1) s = .next (s.withX rd ((s.u rs1 : Int) - s.imm.toInt))

/-- 42_addsub.md R146: NEG, `bv_N(2^N - u)` = `bv_N(-s)`. -/
def Obligations.NegateIsTwosComplement : Prop :=
  ∀ (rd rs1 : Reg) (s : State),
    encode (.neg rd rs1) = 0x28000000 ||| rd.field 21 ||| rs1.field 18 ∧
    exec (.neg rd rs1) s = .next (s.withX rd (2 ^ s.bits - s.u rs1)) ∧
    exec (.neg rd rs1) s = .next (s.withX rd (-s.sgn rs1))

/-! ### Multiplication -/

/-- 43_multiply.md R162: MULW writes the product modulo 2^N, and its bits 64W+63:64W in RES. -/
def Obligations.MultiplyByLimbGivesOverflowLimb : Prop :=
  ∀ (rd rs1 : Reg) (s : State),
    encode (.mulw rd rs1) = 0x30000000 ||| rd.field 21 ||| rs1.field 18 ∧
    exec (.mulw rd rs1) s =
      .next { s.withX rd (s.u rs1 * s.imm.toNat) with
              res := BitVec.ofNat 64 (s.u rs1 * s.imm.toNat / 2 ^ (64 * limbCount s.bits)) }

/-- 43_multiply.md R164: MUL multiplies modulo 2^N, the same bits in both views. -/
def Obligations.MultiplyWrapsModuloWidth : Prop :=
  ∀ (rd rs1 rs2 : Reg) (s : State),
    encode (.mul rd rs1 rs2) = 0x2C000000 ||| rd.field 21 ||| rs1.field 18 ||| rs2.field 15 ∧
    exec (.mul rd rs1 rs2) s = .next (s.withX rd (s.u rs1 * s.u rs2)) ∧
    exec (.mul rd rs1 rs2) s = .next (s.withX rd (s.sgn rs1 * s.sgn rs2))

/-- 43_multiply.md R165: MULI.U multiplies by u64(IMM), MULI.S by s64(IMM); RES is unchanged. -/
def Obligations.MultiplyImmediateExtendsTheScalar : Prop :=
  ∀ (rd rs1 : Reg) (s : State),
    encode (.muliU rd rs1) = 0x2D000000 ||| rd.field 21 ||| rs1.field 18 ∧
    encode (.muliS rd rs1) = 0x2F000000 ||| rd.field 21 ||| rs1.field 18 ∧
    exec (.muliU rd rs1) s = .next (s.withX rd (s.u rs1 * s.imm.toNat)) ∧
    exec (.muliS rd rs1) s = .next (s.withX rd (s.u rs1 * s.imm.toInt))

/-! ### Division and modulo -/

/-- 44_divide.md R182, R184: DIV writes the quotient, truncated toward zero in the signed view; with a zero divisor it raises
DIV_ZERO and writes nothing. -/
def Obligations.DivideWritesTheQuotient : Prop :=
  ∀ (rd rs1 rs2 : Reg) (s : State), widthOk s.bits = true →
    encode (.divU rd rs1 rs2) = 0x34000000 ||| rd.field 21 ||| rs1.field 18 ||| rs2.field 15 ∧
    encode (.divS rd rs1 rs2) = 0x36000000 ||| rd.field 21 ||| rs1.field 18 ||| rs2.field 15 ∧
    (s.u rs2 = 0 → s.fault = false →
      exec (.divU rd rs1 rs2) s =
        .next { s with fault := true, cause := .divZero, faultCmd := s.cmd, faultImm := s.imm } ∧
      exec (.divS rd rs1 rs2) s =
        .next { s with fault := true, cause := .divZero, faultCmd := s.cmd, faultImm := s.imm }) ∧
    (s.u rs2 ≠ 0 →
      exec (.divU rd rs1 rs2) s = .next (s.withX rd ((s.u rs1 / s.u rs2 : Nat) : Int)) ∧
      exec (.divS rd rs1 rs2) s = .next (s.withX rd (Int.tdiv (s.sgn rs1) (s.sgn rs2))))

/-- 44_divide.md R182, R185: MOD writes the remainder, with the dividend's sign in the signed view; with a zero divisor it raises
DIV_ZERO and writes nothing. -/
def Obligations.ModuloWritesTheRemainder : Prop :=
  ∀ (rd rs1 rs2 : Reg) (s : State), widthOk s.bits = true →
    encode (.modU rd rs1 rs2) = 0x38000000 ||| rd.field 21 ||| rs1.field 18 ||| rs2.field 15 ∧
    encode (.modS rd rs1 rs2) = 0x3A000000 ||| rd.field 21 ||| rs1.field 18 ||| rs2.field 15 ∧
    (s.u rs2 = 0 → s.fault = false →
      exec (.modU rd rs1 rs2) s =
        .next { s with fault := true, cause := .divZero, faultCmd := s.cmd, faultImm := s.imm } ∧
      exec (.modS rd rs1 rs2) s =
        .next { s with fault := true, cause := .divZero, faultCmd := s.cmd, faultImm := s.imm }) ∧
    (s.u rs2 ≠ 0 →
      exec (.modU rd rs1 rs2) s = .next (s.withX rd ((s.u rs1 % s.u rs2 : Nat) : Int)) ∧
      exec (.modS rd rs1 rs2) s = .next (s.withX rd (Int.tmod (s.sgn rs1) (s.sgn rs2))))

/-- 44_divide.md R182, R186: DIVMOD writes the quotient to rd and the remainder to rd2, both of the operands read at the start; with
a zero divisor it raises DIV_ZERO and writes nothing; with rd = rd2 its word does not decode (what a step does with such a word:
`DivmodWithOneDestinationRaisesIllegal`). -/
def Obligations.DivmodWritesQuotientAndRemainder : Prop :=
  ∀ (rd rd2 rs1 rs2 : Reg) (s : State), widthOk s.bits = true →
    encode (.divmodU rd rd2 rs1 rs2) =
      0x3C000000 ||| rd.field 21 ||| rs1.field 18 ||| rs2.field 15 ||| rd2.field 12 ∧
    encode (.divmodS rd rd2 rs1 rs2) =
      0x3E000000 ||| rd.field 21 ||| rs1.field 18 ||| rs2.field 15 ||| rd2.field 12 ∧
    (rd = rd2 →
      decode (encode (.divmodU rd rd2 rs1 rs2)) = .illegal .sameDestination ∧
      decode (encode (.divmodS rd rd2 rs1 rs2)) = .illegal .sameDestination) ∧
    (rd ≠ rd2 → s.u rs2 = 0 → s.fault = false →
      exec (.divmodU rd rd2 rs1 rs2) s =
        .next { s with fault := true, cause := .divZero, faultCmd := s.cmd, faultImm := s.imm } ∧
      exec (.divmodS rd rd2 rs1 rs2) s =
        .next { s with fault := true, cause := .divZero, faultCmd := s.cmd, faultImm := s.imm }) ∧
    (rd ≠ rd2 → s.u rs2 ≠ 0 →
      exec (.divmodU rd rd2 rs1 rs2) s =
        .next ((s.withX rd ((s.u rs1 / s.u rs2 : Nat) : Int)).withX rd2 ((s.u rs1 % s.u rs2 : Nat) : Int)) ∧
      exec (.divmodS rd rd2 rs1 rs2) s =
        .next ((s.withX rd (Int.tdiv (s.sgn rs1) (s.sgn rs2))).withX rd2 (Int.tmod (s.sgn rs1) (s.sgn rs2))))

/-! ### Shifts -/

/-- 45_shift.md R202: SHL, at every distance. -/
def Obligations.ShiftLeftMultipliesByPowerOfTwo : Prop :=
  ∀ (rd rs1 : Reg) (s : State),
    encode (.shl rd rs1) = 0x40000000 ||| rd.field 21 ||| rs1.field 18 ∧
    exec (.shl rd rs1) s = .next (s.withX rd (s.u rs1 * 2 ^ s.imm.toNat))

/-- 45_shift.md R203: SHR.U fills with zeros, at every distance. -/
def Obligations.LogicalShiftRightDividesUnsigned : Prop :=
  ∀ (rd rs1 : Reg) (s : State),
    encode (.shrU rd rs1) = 0x44000000 ||| rd.field 21 ||| rs1.field 18 ∧
    exec (.shrU rd rs1) s = .next (s.withX rd ((s.u rs1 / 2 ^ s.imm.toNat : Nat) : Int))

/-- 45_shift.md R204: SHR.S is `floor(s / 2^n)` at every distance (Int's `/` by a positive number is the floor). -/
def Obligations.ArithmeticShiftRightRoundsDown : Prop :=
  ∀ (rd rs1 : Reg) (s : State),
    encode (.shrS rd rs1) = 0x46000000 ||| rd.field 21 ||| rs1.field 18 ∧
    exec (.shrS rd rs1) s = .next (s.withX rd (s.sgn rs1 / 2 ^ s.imm.toNat))

/-! ### Comparison -/

/-- 46_compare.md R221: CMP writes -1, 0 or 1 to RES. -/
def Obligations.CompareWritesTheSign : Prop :=
  ∀ (rs1 rs2 : Reg) (s : State), widthOk s.bits = true →
    encode (.cmpU rs1 rs2) = 0x48000000 ||| rs1.field 18 ||| rs2.field 15 ∧
    encode (.cmpS rs1 rs2) = 0x4A000000 ||| rs1.field 18 ||| rs2.field 15 ∧
    exec (.cmpU rs1 rs2) s = .next { s with res := BitVec.ofInt 64 (Int.sign ((s.u rs1 : Int) - s.u rs2)) } ∧
    exec (.cmpS rs1 rs2) s = .next { s with res := BitVec.ofInt 64 (Int.sign (s.sgn rs1 - s.sgn rs2)) }

/-- 46_compare.md R222, R223: SEQ and SNE write 1 or 0 to RES. -/
def Obligations.EqualityWritesOneOrZero : Prop :=
  ∀ (rs1 rs2 : Reg) (s : State), widthOk s.bits = true →
    encode (.seqU rs1 rs2) = 0x4C000000 ||| rs1.field 18 ||| rs2.field 15 ∧
    encode (.seqS rs1 rs2) = 0x4E000000 ||| rs1.field 18 ||| rs2.field 15 ∧
    encode (.sneU rs1 rs2) = 0x4C001000 ||| rs1.field 18 ||| rs2.field 15 ∧
    encode (.sneS rs1 rs2) = 0x4E001000 ||| rs1.field 18 ||| rs2.field 15 ∧
    exec (.seqU rs1 rs2) s = .next { s with res := if s.u rs1 = s.u rs2 then 1 else 0 } ∧
    exec (.seqS rs1 rs2) s = .next { s with res := if s.sgn rs1 = s.sgn rs2 then 1 else 0 } ∧
    exec (.sneU rs1 rs2) s = .next { s with res := if s.u rs1 ≠ s.u rs2 then 1 else 0 } ∧
    exec (.sneS rs1 rs2) s = .next { s with res := if s.sgn rs1 ≠ s.sgn rs2 then 1 else 0 }

/-- 46_compare.md R224 to R227: SLT, SLE, SGT and SGE write 1 or 0 to RES. -/
def Obligations.OrderRelationsWriteOneOrZero : Prop :=
  ∀ (rs1 rs2 : Reg) (s : State), widthOk s.bits = true →
    (encode (.sltU rs1 rs2) = 0x4C002000 ||| rs1.field 18 ||| rs2.field 15 ∧
      encode (.sltS rs1 rs2) = 0x4E002000 ||| rs1.field 18 ||| rs2.field 15 ∧
      encode (.sleU rs1 rs2) = 0x4C003000 ||| rs1.field 18 ||| rs2.field 15 ∧
      encode (.sleS rs1 rs2) = 0x4E003000 ||| rs1.field 18 ||| rs2.field 15 ∧
      encode (.sgtU rs1 rs2) = 0x4C004000 ||| rs1.field 18 ||| rs2.field 15 ∧
      encode (.sgtS rs1 rs2) = 0x4E004000 ||| rs1.field 18 ||| rs2.field 15 ∧
      encode (.sgeU rs1 rs2) = 0x4C005000 ||| rs1.field 18 ||| rs2.field 15 ∧
      encode (.sgeS rs1 rs2) = 0x4E005000 ||| rs1.field 18 ||| rs2.field 15) ∧
    exec (.sltU rs1 rs2) s = .next { s with res := if s.u rs1 < s.u rs2 then 1 else 0 } ∧
    exec (.sltS rs1 rs2) s = .next { s with res := if s.sgn rs1 < s.sgn rs2 then 1 else 0 } ∧
    exec (.sleU rs1 rs2) s = .next { s with res := if s.u rs1 ≤ s.u rs2 then 1 else 0 } ∧
    exec (.sleS rs1 rs2) s = .next { s with res := if s.sgn rs1 ≤ s.sgn rs2 then 1 else 0 } ∧
    exec (.sgtU rs1 rs2) s = .next { s with res := if s.u rs2 < s.u rs1 then 1 else 0 } ∧
    exec (.sgtS rs1 rs2) s = .next { s with res := if s.sgn rs2 < s.sgn rs1 then 1 else 0 } ∧
    exec (.sgeU rs1 rs2) s = .next { s with res := if s.u rs2 ≤ s.u rs1 then 1 else 0 } ∧
    exec (.sgeS rs1 rs2) s = .next { s with res := if s.sgn rs2 ≤ s.sgn rs1 then 1 else 0 }

/-- 46_compare.md R228: ISNEG.S writes the sign bit to RES, ISNEG.U 0. -/
def Obligations.IsNegativeReadsTheSignBit : Prop :=
  ∀ (rs1 : Reg) (s : State), widthOk s.bits = true →
    encode (.isnegU rs1) = 0x50000000 ||| rs1.field 18 ∧
    encode (.isnegS rs1) = 0x52000000 ||| rs1.field 18 ∧
    exec (.isnegU rs1) s = .next { s with res := 0 } ∧
    exec (.isnegS rs1) s = .next { s with res := if (s.u rs1).testBit (s.bits - 1) then 1 else 0 } ∧
    ((s.u rs1).testBit (s.bits - 1) = decide (s.sgn rs1 < 0))

/-! ### Bitwise operators and leading-zero count -/

/-- 47_bitwise.md R240: AND. -/
def Obligations.AndIsBitwise : Prop :=
  ∀ (rd rs1 rs2 : Reg) (s : State),
    encode (.and rd rs1 rs2) = 0x54000000 ||| rd.field 21 ||| rs1.field 18 ||| rs2.field 15 ∧
    exec (.and rd rs1 rs2) s = .next (s.withX rd ((s.u rs1 &&& s.u rs2 : Nat) : Int))

/-- 47_bitwise.md R241: OR. -/
def Obligations.OrIsBitwise : Prop :=
  ∀ (rd rs1 rs2 : Reg) (s : State),
    encode (.or rd rs1 rs2) = 0x58000000 ||| rd.field 21 ||| rs1.field 18 ||| rs2.field 15 ∧
    exec (.or rd rs1 rs2) s = .next (s.withX rd ((s.u rs1 ||| s.u rs2 : Nat) : Int))

/-- 47_bitwise.md R242: XOR. -/
def Obligations.XorIsBitwise : Prop :=
  ∀ (rd rs1 rs2 : Reg) (s : State),
    encode (.xor rd rs1 rs2) = 0x5C000000 ||| rd.field 21 ||| rs1.field 18 ||| rs2.field 15 ∧
    exec (.xor rd rs1 rs2) s = .next (s.withX rd ((s.u rs1 ^^^ s.u rs2 : Nat) : Int))

/-- 47_bitwise.md R243: NOT, `bv_N(2^N - 1 - u)` = `bv_N(-s - 1)`. -/
def Obligations.NotComplementsWithinTheWidth : Prop :=
  ∀ (rd rs1 : Reg) (s : State),
    encode (.not rd rs1) = 0x60000000 ||| rd.field 21 ||| rs1.field 18 ∧
    exec (.not rd rs1) s = .next (s.withX rd (2 ^ s.bits - 1 - s.u rs1)) ∧
    exec (.not rd rs1) s = .next (s.withX rd (-s.sgn rs1 - 1))

/-- 47_bitwise.md R244, R245: CLZ writes `N - bitlength(u)` to RES. -/
def Obligations.CountLeadingZerosWithinTheWidth : Prop :=
  ∀ (rs1 : Reg) (s : State),
    encode (.clz rs1) = 0x64000000 ||| rs1.field 18 ∧
    exec (.clz rs1) s = .next { s with res := BitVec.ofNat 64 (s.bits - Nat.size (s.u rs1)) }

/-! ### Every command -/

/-- A command changes no wide register but its destinations (00_scope.md R15; 30_encoding.md R87). -/
def Obligations.OnlyDestinationRegistersChange : Prop :=
  ∀ (i : Instr) (s t : State), exec i s = .next t → ∀ r, r ∉ i.dests → t.regs.get r = s.regs.get r

/-- Every command ends in a next state; it either leaves the fault record as it was or is a fault entry and nothing else (00_scope.md
R18; 60_exceptions.md R262, R263); and it changes neither the width nor what belongs to the handshake and the host. -/
def Obligations.EveryCommandCompletesOrFaults : Prop :=
  ∀ (i : Instr) (s : State), ∃ t, exec i s = .next t ∧
    t.bits = s.bits ∧ t.busy = s.busy ∧ t.cmd = s.cmd ∧ t.imm = s.imm ∧ t.inReset = s.inReset ∧ t.k = s.k ∧
    t.inputs = s.inputs ∧
    ((t.fault = s.fault ∧ t.cause = s.cause ∧ t.faultCmd = s.faultCmd ∧ t.faultImm = s.faultImm) ∨
      ∃ c : Cause, c ≠ .none ∧ t = { s with fault := true, cause := c, faultCmd := s.cmd, faultImm := s.imm })

/-! ### Faults -/

/-- 60_exceptions.md R260, R262, R263: a command for which the table names a condition that holds enters the fault state, records
code, CMD and IMM, and changes nothing else. -/
def Obligations.FaultEntryRecordsTheCommand : Prop :=
  (Cause.none.code = 0 ∧ Cause.illegal.code = 1 ∧ Cause.bitIndex.code = 2 ∧ Cause.divZero.code = 3 ∧
    Cause.limbIndex.code = 4) ∧
  ∀ (s : State) (c : Command) (rest : List HostEvent), s.Ready c rest →
    s.faultOf c ≠ .none → step s = .next (s.faulted c rest (s.faultOf c))

/-- 60_exceptions.md R261: no other condition faults. -/
def Obligations.NoOtherConditionFaults : Prop :=
  ∀ (s : State) (c : Command) (rest : List HostEvent), s.Ready c rest →
    s.faultOf c = .none →
      ∃ t, step s = .next t ∧ t.fault = false ∧ t.cause = s.cause ∧ t.faultCmd = s.faultCmd ∧ t.faultImm = s.faultImm

/-- 60_exceptions.md R264: while FAULT = 1 a command is accepted and discarded, and the block is ready for the next; the conservative
machine of `Safety` answers a fault there. -/
def Obligations.FaultStateDiscardsCommands : Prop :=
  ∀ (s : State) (c : Command) (rest : List HostEvent), widthOk s.bits = true → s.inReset = false → s.fault = true →
    s.inputs = .command c :: rest →
      ∃ t, step s = .next t ∧ t = { s with busy := false, cmd := 0, imm := 0, k := s.k + 1, inputs := rest } ∧
        t.cmdReady = true ∧ Safety.strictStep s = .fault .faultState

/-- 60_exceptions.md R266, R267: nothing but reset changes the record of a fault, and `fault_o` stays 1 until then. -/
def Obligations.OnlyResetClearsTheFault : Prop :=
  ∀ (s t : State), s.fault = true → (∀ e rest, s.inputs = e :: rest → e.resets = false) → step s = .next t →
    t.fault = true ∧ t.faultO = true ∧ t.cause = s.cause ∧ t.faultCmd = s.faultCmd ∧ t.faultImm = s.faultImm

/-! ### Reset, the handshake and the step -/

/-- 70_reset_and_hazards.md R290: an edge with `rst` = 1, and the first edge with `rst` = 0 after it. (Not part of it: the bits the spec leaves unspecified, logs 1 and 2.) -/
def Obligations.ResetEdgeSetsEveryPiece : Prop :=
  ∀ (s : State) (rest : List HostEvent), widthOk s.bits = true → s.inputs = .reset :: rest →
    ∃ t, step s = .next t ∧
      t.bits = s.bits ∧ t.inputs = rest ∧ t.inReset = true ∧ t.cmdReady = false ∧
      t.fault = false ∧ t.cause = .none ∧ t.faultCmd = 0 ∧ t.faultImm = 0 ∧ t.busy = false ∧ t.k = 0 ∧
      (∀ r, (∀ j, (t.regs.get r).isWritten j = false) ∧ ∀ p, t.bits ≤ p → bitAt (t.regs.get r).limbs p = false) ∧
      ∀ rest', rest = .idle :: rest' →
        ∃ t', step t = .next t' ∧ t' = { t with inReset := false, inputs := rest' } ∧ t'.cmdReady = true

/-- 70_reset_and_hazards.md R290, R293: the first edge with `rst` = 0 ends reset and changes nothing else; a command presented at it is
not accepted and is still presented after it (log 8). -/
def Obligations.HeldInResetAcceptsNoCommand : Prop :=
  ∀ s : State, widthOk s.bits = true → s.inReset = true →
    s.cmdReady = false ∧
    (s.inputs = [] → step s = .next { s with inReset := false }) ∧
    (∀ rest, s.inputs = .idle :: rest → step s = .next { s with inReset := false, inputs := rest }) ∧
    ∀ c rest, s.inputs = .command c :: rest → step s = .next { s with inReset := false }

/-- 70_reset_and_hazards.md R291: a command during which the block is reset takes no effect: the step is that of a reset edge. -/
def Obligations.ResetAbandonsTheCommand : Prop :=
  ∀ (s : State) (c : Command) (rest : List HostEvent), widthOk s.bits = true → s.inReset = false →
    s.inputs = .commandAbandoned c :: rest →
      step s = step { s with inputs := .reset :: rest } ∧ ∃ t, step s = .next t ∧ t.fault = false

/-- A step runs the decoded command (30_encoding.md R91; 70_reset_and_hazards.md R293): acceptance samples CMD and IMM, sets BUSY and
advances the index; then `exec`; then BUSY = 0. That CMD and IMM stand in State as 0 after completion is the model's form of
10_state.md R43 (DESIGN CHOICE, log 11), not a sentence of R91 or R293. -/
def Obligations.StepRunsTheDecodedCommand : Prop :=
  ∀ (s : State) (c : Command) (rest : List HostEvent) (i : Instr), s.Ready c rest → decode c.cmd = .instr i →
    step s =
      match exec i { s with busy := true, cmd := c.cmd, imm := c.imm, k := s.k + 1, inputs := rest } with
      | .next t => .next { t with busy := false, cmd := 0, imm := 0 }
      | .fault f => .fault f
      | .refused r => .refused r

/-- The invariant holds right after reset, at every legal width, and so of the state the model starts from. -/
def Obligations.InvariantHoldsAtReset : Prop :=
  (∀ n, widthOk n = true → (State.resetAt n).Inv) ∧ State.reset.Inv

/-- Every step keeps the invariant: W limbs a register with padding 0 (10_state.md R30, R32), the record empty while FAULT = 0
(R40), nothing sampled and BUSY = 0 between commands (R43; 70_reset_and_hazards.md R293). -/
def Obligations.StepKeepsTheInvariant : Prop :=
  ∀ (s t : State), s.Inv → step s = .next t → t.Inv

/-- What the spec leaves unspecified never shows in a safe run (10_state.md R33, R45; 70_reset_and_hazards.md R292): two blocks that
agree on every written limb step alike while no unwritten limb is read, agree again afterwards, and RES and RES2, once equal,
stay equal. So no claim about safe runs rests on the reset values the model names (logs 1 and 2). -/
def Obligations.UnwrittenLimbsNeverShow : Prop :=
  ∀ (s s' t : State), s.Inv → s'.Inv → s.AgreeOnWritten s' → Safety.strictStep s = .next t →
    ∃ t', Safety.strictStep s' = .next t' ∧ t.AgreeOnWritten t' ∧
      (s'.res = s.res → t'.res = t.res) ∧ (s'.res2 = s.res2 → t'.res2 = t.res2)

end
end

