-- ==== Sys2Proof/Laws/Limbs.lean ====
section
/-! SUPPORT. Storage: what each operation on limbs does to the bits and to the value, and the canonical form (W limbs, padding 0),
which the N-bit values name one to one. -/

namespace Sys2Proof.Machine

/-! ### Widths -/

theorem limbCount_pos {n : Nat} (h : 0 < n) : 0 < limbCount n := by unfold limbCount; omega

theorem le_storage (n : Nat) : n ≤ 64 * limbCount n := by unfold limbCount; omega

theorem storage_lt (n : Nat) : 64 * limbCount n < n + 64 := by unfold limbCount; omega

theorem widthOk_pos {n : Nat} (h : widthOk n = true) : 0 < n := by
  have h1 : Config.minBits ≤ n := of_decide_eq_true (Bool.and_eq_true _ _ ▸ h).1
  unfold Config.minBits at h1
  omega

/-! ### Limbs and bits -/

theorem limbAt_of_le {st : Limbs} {j : Nat} (h : st.length ≤ j) : limbAt st j = 0 := by
  simp [limbAt, List.getElem?_eq_none h]

@[simp] theorem length_mkLimbs (n : Nat) (f : Nat → Limb) : (mkLimbs n f).length = limbCount n := by
  simp [mkLimbs]

theorem limbAt_mkLimbs (n : Nat) (f : Nat → Limb) (j : Nat) :
    limbAt (mkLimbs n f) j = if j < limbCount n then f j else 0 := by
  unfold limbAt mkLimbs
  by_cases h : j < limbCount n <;> simp [h]

theorem bitAt_eq (st : Limbs) (p : Nat) : bitAt st p = (limbAt st (p / 64)).getLsbD (p % 64) := rfl

theorem bitAt_limb (st : Limbs) {j b : Nat} (hb : b < 64) : bitAt st (64 * j + b) = (limbAt st j).getLsbD b := by
  have h1 : (64 * j + b) / 64 = j := by omega
  have h2 : (64 * j + b) % 64 = b := by omega
  rw [bitAt_eq, h1, h2]

theorem bitAt_of_le {st : Limbs} {p : Nat} (h : 64 * st.length ≤ p) : bitAt st p = false := by
  rw [bitAt_eq, limbAt_of_le (by omega)]
  simp

/-- Storage of the same length is equal when its bits are. -/
theorem limbs_ext {a b : Limbs} (hl : a.length = b.length) (h : ∀ p, p < 64 * a.length → bitAt a p = bitAt b p) : a = b := by
  apply List.ext_getElem hl
  intro j ha hb
  apply BitVec.eq_of_getLsbD_eq
  intro i hi
  have := h (64 * j + i) (by omega)
  rw [bitAt_limb _ hi, bitAt_limb _ hi] at this
  simpa [limbAt, ha, hb] using this

/-! ### The value -/

theorem testBit_uval (st : Limbs) (p : Nat) : (uval st).testBit p = bitAt st p := by
  induction st generalizing p with
  | nil => simp [uval, bitAt, limbAt]
  | cons l st ih =>
    rw [uval, Nat.add_comm, Nat.testBit_two_pow_mul_add _ l.isLt]
    split
    · rename_i h
      rw [bitAt_eq, Nat.div_eq_of_lt h, Nat.mod_eq_of_lt h]
      rfl
    · rename_i h
      rw [ih, bitAt_eq, bitAt_eq]
      have h1 : p / 64 = (p - 64) / 64 + 1 := by omega
      have h2 : p % 64 = (p - 64) % 64 := by omega
      rw [h1, h2]
      rfl

theorem uval_lt (st : Limbs) : uval st < 2 ^ (64 * st.length) := by
  induction st with
  | nil => simp [uval]
  | cons l st ih =>
    have hl := l.isLt
    have : 2 ^ (64 * (l :: st).length) = 2 ^ 64 * 2 ^ (64 * st.length) := by
      rw [← Nat.pow_add]; congr 1; simp; omega
    rw [this, uval]
    calc l.toNat + 2 ^ 64 * uval st < 2 ^ 64 * (uval st + 1) := by omega
      _ ≤ 2 ^ 64 * 2 ^ (64 * st.length) := Nat.mul_le_mul_left _ ih

/-- Storage of the same length is equal when its value is. -/
theorem eq_of_uval_eq {a b : Limbs} (hl : a.length = b.length) (h : uval a = uval b) : a = b :=
  limbs_ext hl fun p _ => by rw [← testBit_uval, ← testBit_uval, h]

/-! ### Padding -/

theorem getLsbD_topMask {n b : Nat} (hb : b < 64) : (topMask n).getLsbD b = decide (b < 64 - padCount n) := by
  unfold topMask
  rw [BitVec.getLsbD_ofNat, Nat.testBit_two_pow_sub_one]
  simp [hb]

@[simp] theorem length_clearPad (n : Nat) (st : Limbs) : (clearPad n st).length = limbCount n := length_mkLimbs ..

@[simp] theorem length_fillPad (n : Nat) (st : Limbs) : (fillPad n st).length = limbCount n := length_mkLimbs ..

/-- `clear_pad`: bits N-1:0 stay, the others are 0 (00_scope.md R20). -/
theorem bitAt_clearPad (n : Nat) (st : Limbs) (p : Nat) :
    bitAt (clearPad n st) p = (decide (p < n) && bitAt st p) := by
  rw [bitAt_eq, clearPad, limbAt_mkLimbs]
  have hpad : padCount n = 64 * limbCount n - n := rfl
  have hle := le_storage n
  by_cases hj : p / 64 < limbCount n
  · rw [if_pos hj]
    have hn : 0 < n := by
      rcases Nat.eq_zero_or_pos n with rfl | h
      · simp [limbCount] at hj
      · exact h
    have hlt := storage_lt n
    by_cases ht : p / 64 + 1 = limbCount n
    · have : isTop n (p / 64) = true := by simp [isTop, ht]
      rw [if_pos this, BitVec.getLsbD_and, getLsbD_topMask (Nat.mod_lt _ (by decide)), ← bitAt_eq, Bool.and_comm]
      congr 1
      rw [decide_eq_decide]
      omega
    · have : isTop n (p / 64) = false := by simp [isTop, ht]
      have hp : p < n := by omega
      rw [this]
      simp [hp, bitAt_eq]
  · rw [if_neg hj]
    have : ¬ p < n := by omega
    simp [this]

/-- `fill_pad`: bits N-1:0 stay, the padding bits are 1 (00_scope.md R20). -/
theorem bitAt_fillPad {n : Nat} (st : Limbs) {p : Nat} (h : p < 64 * limbCount n) :
    bitAt (fillPad n st) p = (decide (n ≤ p) || bitAt st p) := by
  rw [bitAt_eq, fillPad, limbAt_mkLimbs]
  have hpad : padCount n = 64 * limbCount n - n := rfl
  have hle := le_storage n
  have hj : p / 64 < limbCount n := by omega
  rw [if_pos hj]
  have hn : 0 < n := by
    rcases Nat.eq_zero_or_pos n with rfl | h
    · simp [limbCount] at hj
    · exact h
  have hlt := storage_lt n
  by_cases ht : p / 64 + 1 = limbCount n
  · have : isTop n (p / 64) = true := by simp [isTop, ht]
    have h64 : p % 64 < 64 := Nat.mod_lt _ (by decide)
    rw [if_pos this, BitVec.getLsbD_or, BitVec.getLsbD_not, getLsbD_topMask h64, ← bitAt_eq, Bool.or_comm]
    simp only [h64, decide_true, Bool.true_and]
    congr 1
    rw [← decide_not, decide_eq_decide]
    omega
  · have : isTop n (p / 64) = false := by simp [isTop, ht]
    have hp : ¬ n ≤ p := by omega
    rw [this]
    simp [hp, bitAt_eq]

/-- The value of a storage vector without its padding is its value modulo 2^N (00_scope.md R13). -/
theorem uval_clearPad (n : Nat) (st : Limbs) : uval (clearPad n st) = uval st % 2 ^ n := by
  apply Nat.eq_of_testBit_eq
  intro p
  rw [testBit_uval, bitAt_clearPad, Nat.testBit_mod_two_pow, testBit_uval]

/-! ### The canonical form -/

/-- W limbs with padding 0 (00_scope.md R8; 10_state.md R32). -/
def Canonical (n : Nat) (st : Limbs) : Prop := st.length = limbCount n ∧ uval st < 2 ^ n

theorem canonical_clearPad (n : Nat) (st : Limbs) : Canonical n (clearPad n st) :=
  ⟨length_clearPad .., by rw [uval_clearPad]; exact Nat.mod_lt _ (Nat.two_pow_pos n)⟩

theorem Canonical.eq_of_uval {n : Nat} {a b : Limbs} (ha : Canonical n a) (hb : Canonical n b) (h : uval a = uval b) : a = b :=
  eq_of_uval_eq (ha.1.trans hb.1.symm) h

theorem Canonical.clearPad_eq {n : Nat} {a : Limbs} (h : Canonical n a) : clearPad n a = a :=
  (canonical_clearPad n a).eq_of_uval h (by rw [uval_clearPad, Nat.mod_eq_of_lt h.2])

theorem Canonical.bitAt_of_le {n : Nat} {a : Limbs} (h : Canonical n a) {p : Nat} (hp : n ≤ p) : bitAt a p = false := by
  rw [← h.clearPad_eq, bitAt_clearPad]
  simp [hp]

@[simp] theorem clearPad_clearPad (n : Nat) (st : Limbs) : clearPad n (clearPad n st) = clearPad n st :=
  (canonical_clearPad n st).clearPad_eq

theorem toNat_emod_pow (n : Nat) (k : Int) : ((k % 2 ^ n).toNat : Int) = k % 2 ^ n :=
  Int.toNat_of_nonneg (Int.emod_nonneg _ (by positivity))

theorem toNat_emod_pow_lt (n : Nat) (k : Int) : (k % 2 ^ n).toNat < 2 ^ n := by
  have h := Int.emod_lt_of_pos k (b := 2 ^ n) (by positivity)
  have := toNat_emod_pow n k
  zify
  rw [this]
  exact_mod_cast h

@[simp] theorem length_bvN (n : Nat) (k : Int) : (bvN n k).length = limbCount n := length_mkLimbs ..

/-- `bv_N(k)` has `u(v) = k mod 2^N` (00_scope.md R13). -/
theorem uval_bvN (n : Nat) (k : Int) : uval (bvN n k) = (k % 2 ^ n).toNat := by
  apply Nat.eq_of_testBit_eq
  intro p
  rw [testBit_uval, bitAt_eq, bvN, limbAt_mkLimbs]
  have hlt := toNat_emod_pow_lt n k
  generalize (k % 2 ^ n).toNat = u at hlt ⊢
  split
  · have h64 : p % 64 < 64 := Nat.mod_lt _ (by decide)
    simp only [BitVec.getLsbD_ofNat, h64, decide_true, Bool.true_and, Nat.testBit_div_two_pow]
    congr 1
    omega
  · have hle := le_storage n
    have : u < 2 ^ p := lt_of_lt_of_le hlt (Nat.pow_le_pow_right (by decide) (by omega))
    simp [Nat.testBit_lt_two_pow this]

theorem canonical_bvN (n : Nat) (k : Int) : Canonical n (bvN n k) :=
  ⟨length_bvN .., by rw [uval_bvN]; exact toNat_emod_pow_lt n k⟩

@[simp] theorem clearPad_bvN (n : Nat) (k : Int) : clearPad n (bvN n k) = bvN n k := (canonical_bvN n k).clearPad_eq

theorem uval_bvN_nat (n m : Nat) : uval (bvN n m) = m % 2 ^ n := by
  rw [uval_bvN]
  have : ((m : Int) % 2 ^ n) = ((m % 2 ^ n : Nat) : Int) := by push_cast; rfl
  rw [this, Int.toNat_natCast]

/-- A canonical storage vector is `bv_N` of any integer congruent to its value modulo 2^N (00_scope.md R13). -/
theorem Canonical.eq_bvN {n : Nat} {a : Limbs} (h : Canonical n a) {k : Int} (hk : (uval a : Int) % 2 ^ n = k % 2 ^ n) :
    a = bvN n k := by
  apply h.eq_of_uval (canonical_bvN n k)
  rw [uval_bvN, ← hk]
  have : ((uval a : Int) % 2 ^ n) = ((uval a % 2 ^ n : Nat) : Int) := by push_cast; rfl
  rw [this, Int.toNat_natCast, Nat.mod_eq_of_lt h.2]

theorem Canonical.eq_bvN_uval {n : Nat} {a : Limbs} (h : Canonical n a) : a = bvN n (uval a) := h.eq_bvN rfl

theorem bvN_congr {n : Nat} {k l : Int} (h : k % 2 ^ n = l % 2 ^ n) : bvN n k = bvN n l := by
  unfold bvN; rw [h]

/-! ### Signs -/

theorem signBit_eq_decide {n : Nat} (hn : 0 < n) {a : Limbs} (h : Canonical n a) :
    signBit n a = decide (2 ^ (n - 1) ≤ uval a) := by
  unfold signBit
  rw [← testBit_uval]
  have hlt := h.2
  obtain ⟨m, rfl⟩ : ∃ m, n = m + 1 := ⟨n - 1, by omega⟩
  simp only [Nat.add_sub_cancel]
  rw [Nat.testBit_eq_decide_div_mod_eq, decide_eq_decide]
  rw [Nat.pow_succ] at hlt
  have hp := Nat.two_pow_pos m
  constructor
  · intro h1
    by_contra h2
    rw [Nat.div_eq_of_lt (by omega)] at h1
    simp at h1
  · intro h1
    have : uval a / 2 ^ m = 1 := by
      apply Nat.div_eq_of_lt_le <;> omega
    rw [this]

/-- s and u of a storage vector are congruent modulo 2^N (00_scope.md R12, R13). -/
theorem sval_emod (n : Nat) (a : Limbs) : sval n a % 2 ^ n = (uval a : Int) % 2 ^ n := by
  unfold sval
  rw [Int.sub_emod]
  split <;> simp

theorem Canonical.eq_bvN_sval {n : Nat} {a : Limbs} (h : Canonical n a) : a = bvN n (sval n a) :=
  h.eq_bvN (sval_emod n a).symm

theorem sval_bounds {n : Nat} (hn : 0 < n) {a : Limbs} (h : Canonical n a) :
    -(2 : Int) ^ (n - 1) ≤ sval n a ∧ sval n a < 2 ^ (n - 1) := by
  have hs := signBit_eq_decide hn h
  have hlt := h.2
  obtain ⟨m, rfl⟩ : ∃ m, n = m + 1 := ⟨n - 1, by omega⟩
  simp only [Nat.add_sub_cancel] at *
  unfold sval
  rw [hs]
  rw [Nat.pow_succ] at hlt
  rw [pow_succ]
  have hp : ((2 ^ m : Nat) : Int) = 2 ^ m := by push_cast; rfl
  rw [← hp]
  split <;> rename_i hd <;> simp only [decide_eq_true_eq] at hd <;> omega

theorem sval_neg_iff {n : Nat} (hn : 0 < n) {a : Limbs} (h : Canonical n a) : signBit n a = decide (sval n a < 0) := by
  have hs := signBit_eq_decide hn h
  have hlt := h.2
  rw [sval, hs, decide_eq_decide]
  have hp : ((2 ^ n : Nat) : Int) = 2 ^ n := by push_cast; rfl
  rw [← hp]
  split <;> rename_i hd <;> simp only [decide_eq_true_eq] at hd <;> omega

/-! ### Registers -/

theorem canonical_x (s : State) (r : Reg) : Canonical s.bits (s.x r) := canonical_clearPad ..

theorem canonical_immU (s : State) : Canonical s.bits s.immU := canonical_bvN ..

theorem canonical_immS (s : State) : Canonical s.bits s.immS := canonical_bvN ..

end Sys2Proof.Machine
end

