-- ==== Sys2Proof/Laws/Adder.lean ====
section
/-! SUPPORT. The adder: each engine's result is the N-bit vector its rule states (42_addsub.md R140, R141, R146; 47_bitwise.md
R243). -/

namespace Sys2Proof.Machine

theorem carry_limb (a b : Limb) (c : Bool) :
    (if c then a + b + 1 else a + b).toNat
      + 2 ^ 64 * (if c then decide ((if c then a + b + 1 else a + b) ≤ a) else decide ((if c then a + b + 1 else a + b) < a)).toNat
      = a.toNat + b.toNat + c.toNat := by
  have ha := a.isLt
  have hb := b.isLt
  cases c
  · have hr : (a + b).toNat = (a.toNat + b.toNat) % 2 ^ 64 := BitVec.toNat_add ..
    simp only [Bool.false_eq_true, ↓reduceIte, Bool.toNat_false]
    by_cases h : a + b < a <;> simp only [h, decide_true, decide_false, Bool.toNat_true, Bool.toNat_false] <;>
      rw [BitVec.lt_def, hr] at h <;> omega
  · have hr : (a + b + 1).toNat = ((a.toNat + b.toNat) % 2 ^ 64 + 1) % 2 ^ 64 := by
      rw [BitVec.toNat_add, BitVec.toNat_add]; rfl
    simp only [↓reduceIte, Bool.toNat_true]
    by_cases h : a + b + 1 ≤ a <;> simp only [h, decide_true, decide_false, Bool.toNat_true, Bool.toNat_false] <;>
      rw [BitVec.le_def, hr] at h <;> omega

theorem uval_carryChain (a b : Limbs) (c : Bool) (h : a.length = b.length) :
    (carryChain a b c).length = a.length ∧
      ∃ c' : Nat, uval (carryChain a b c) + 2 ^ (64 * a.length) * c' = uval a + uval b + c.toNat := by
  induction a generalizing b c with
  | nil =>
    cases b with
    | nil => exact ⟨rfl, c.toNat, by simp [carryChain, uval]⟩
    | cons => simp at h
  | cons x a ih =>
    cases b with
    | nil => simp at h
    | cons y b =>
      have hl := carry_limb x y c
      obtain ⟨h1, c', h2⟩ := ih b _ (by simpa using h)
      refine ⟨by rw [carryChain, List.length_cons, List.length_cons, h1], c', ?_⟩
      have hp : 2 ^ (64 * (x :: a).length) = 2 ^ 64 * 2 ^ (64 * a.length) := by
        rw [← Nat.pow_add]; congr 1; simp; omega
      rw [carryChain, uval, uval, uval, hp, Nat.mul_assoc]
      generalize (if c = true then decide ((if c = true then x + y + 1 else x + y) ≤ x)
        else decide ((if c = true then x + y + 1 else x + y) < x)) = d at *
      generalize (if c = true then x + y + 1 else x + y) = r at *
      generalize 2 ^ (64 * a.length) * c' = e at *
      omega

theorem borrow_limb (a b : Limb) (c : Bool) :
    (a - b - (if c then 1 else 0)).toNat + b.toNat + c.toNat
      = a.toNat + 2 ^ 64 * (if c then decide (a - b - (if c then 1 else 0) ≥ a) else decide (a - b - (if c then 1 else 0) > a)).toNat := by
  have ha := a.isLt
  have hb := b.isLt
  cases c
  · have hr : (a - b - 0).toNat = (2 ^ 64 - b.toNat + a.toNat) % 2 ^ 64 := by
      rw [show a - b - 0 = a - b from BitVec.sub_zero _]; exact BitVec.toNat_sub ..
    simp only [Bool.false_eq_true, ↓reduceIte, Bool.toNat_false]
    by_cases h : a - b - 0 > a <;> simp only [h, decide_true, decide_false, Bool.toNat_true, Bool.toNat_false] <;>
      rw [gt_iff_lt, BitVec.lt_def, hr] at h <;> omega
  · have hr : (a - b - 1).toNat = (2 ^ 64 - 1 + (2 ^ 64 - b.toNat + a.toNat) % 2 ^ 64) % 2 ^ 64 := by
      rw [BitVec.toNat_sub, BitVec.toNat_sub]; rfl
    simp only [↓reduceIte, Bool.toNat_true]
    by_cases h : a - b - 1 ≥ a <;> simp only [h, decide_true, decide_false, Bool.toNat_true, Bool.toNat_false] <;>
      rw [ge_iff_le, BitVec.le_def, hr] at h <;> omega

theorem uval_borrowChain (a b : Limbs) (c : Bool) (h : a.length = b.length) :
    (borrowChain a b c).length = a.length ∧
      ∃ c' : Nat, uval (borrowChain a b c) + uval b + c.toNat = uval a + 2 ^ (64 * a.length) * c' := by
  induction a generalizing b c with
  | nil =>
    cases b with
    | nil => exact ⟨rfl, c.toNat, by simp [borrowChain, uval]⟩
    | cons => simp at h
  | cons x a ih =>
    cases b with
    | nil => simp at h
    | cons y b =>
      have hl := borrow_limb x y c
      obtain ⟨h1, c', h2⟩ := ih b _ (by simpa using h)
      refine ⟨by rw [borrowChain, List.length_cons, List.length_cons, h1], c', ?_⟩
      have hp : 2 ^ (64 * (x :: a).length) = 2 ^ 64 * 2 ^ (64 * a.length) := by
        rw [← Nat.pow_add]; congr 1; simp; omega
      rw [borrowChain, uval, uval, uval, hp, Nat.mul_assoc]
      generalize (if c = true then decide (x - y - (if c = true then 1 else 0) ≥ x)
        else decide (x - y - (if c = true then 1 else 0) > x)) = d at *
      generalize x - y - (if c = true then 1 else 0) = r at *
      generalize 2 ^ (64 * a.length) * c' = e at *
      omega

/-- The weight of a storage vector's top is a multiple of 2^N. -/
theorem two_pow_dvd_storage (n : Nat) : (2 : Int) ^ n ∣ 2 ^ (64 * limbCount n) := pow_dvd_pow _ (le_storage n)

/-- `add_limbs`: `r[N-1:0] = bv_N(u(a) + u(b))` (42_addsub.md R140). -/
theorem addLimbs_eq {n : Nat} {a b : Limbs} (ha : Canonical n a) (hb : Canonical n b) :
    addLimbs n a b = bvN n (uval a + uval b) := by
  apply (canonical_clearPad ..).eq_bvN
  obtain ⟨-, c, hc⟩ := uval_carryChain a b false (ha.1.trans hb.1.symm)
  obtain ⟨m, hm⟩ := two_pow_dvd_storage n
  rw [uval_clearPad]
  push_cast
  rw [Int.emod_emod]
  have : (uval (carryChain a b false) : Int) = uval a + uval b - 2 ^ n * (m * c) := by
    rw [ha.1] at hc
    zify at hc
    rw [hm] at hc
    simp at hc
    linarith [hc]
  rw [this, Int.sub_mul_emod_self_left]

/-- `sub_limbs`: `r[N-1:0] = bv_N(u(a) - u(b))` (42_addsub.md R141). -/
theorem subLimbs_eq {n : Nat} {a b : Limbs} (ha : Canonical n a) (hb : Canonical n b) :
    subLimbs n a b = bvN n (uval a - uval b) := by
  apply (canonical_clearPad ..).eq_bvN
  obtain ⟨-, c, hc⟩ := uval_borrowChain a b false (ha.1.trans hb.1.symm)
  obtain ⟨m, hm⟩ := two_pow_dvd_storage n
  rw [uval_clearPad]
  push_cast
  rw [Int.emod_emod]
  have : (uval (borrowChain a b false) : Int) = uval a - uval b + 2 ^ n * (m * c) := by
    rw [ha.1] at hc
    zify at hc
    rw [hm] at hc
    simp at hc
    linarith [hc]
  rw [this, Int.add_mul_emod_self_left]

theorem canonical_addLimbs (n : Nat) (a b : Limbs) : Canonical n (addLimbs n a b) := canonical_clearPad ..

theorem canonical_subLimbs (n : Nat) (a b : Limbs) : Canonical n (subLimbs n a b) := canonical_clearPad ..

theorem uval_map_not (a : Limbs) : uval (a.map fun l => ~~~l) + uval a + 1 = 2 ^ (64 * a.length) := by
  induction a with
  | nil => simp [uval]
  | cons l a ih =>
    have hp : 2 ^ (64 * (l :: a).length) = 2 ^ 64 * 2 ^ (64 * a.length) := by
      rw [← Nat.pow_add]; congr 1; simp; omega
    have hl := l.isLt
    rw [List.map_cons, uval, uval, hp, ← ih, BitVec.toNat_not]
    omega

/-- Inversion: `bv_N(2^N - 1 - u(a))` (47_bitwise.md R243). -/
theorem invert_eq {n : Nat} {a : Limbs} (ha : Canonical n a) : invert n a = bvN n (-1 - uval a) := by
  apply (canonical_clearPad ..).eq_bvN
  have h := uval_map_not a
  obtain ⟨m, hm⟩ := two_pow_dvd_storage n
  rw [uval_clearPad]
  push_cast
  rw [Int.emod_emod]
  have : (uval (a.map fun l => ~~~l) : Int) = -1 - uval a + 2 ^ n * m := by
    rw [ha.1] at h
    zify at h
    rw [hm] at h
    linarith
  rw [this, Int.add_mul_emod_self_left]

theorem canonical_invert (n : Nat) (a : Limbs) : Canonical n (invert n a) := canonical_clearPad ..

/-- Negation: `bv_N(2^N - u(a))` (42_addsub.md R146). -/
theorem negLimbs_eq {n : Nat} {a : Limbs} (ha : Canonical n a) : negLimbs n a = bvN n (-uval a) := by
  unfold negLimbs zextN
  rw [addLimbs_eq (canonical_invert n a) (canonical_bvN n _), invert_eq ha, uval_bvN, uval_bvN]
  apply bvN_congr
  rw [toNat_emod_pow, toNat_emod_pow, ← Int.add_emod]
  congr 1
  push_cast
  ring

theorem canonical_negLimbs (n : Nat) (a : Limbs) : Canonical n (negLimbs n a) := canonical_addLimbs ..

end Sys2Proof.Machine
end

