-- ==== Sys2Proof/Laws/State.lean ====
section
/-! SUPPORT. One lemma for each field of each state update, and the register file's read after write. -/

namespace Sys2Proof.Machine

@[simp] theorem RegFile.get_set_same (f : RegFile) (r : Reg) (w : WideReg) : (f.set r w).get r = w := by
  cases r <;> rfl

@[simp] theorem RegFile.get_set_other (f : RegFile) {r r' : Reg} (w : WideReg) (h : r' ≠ r) :
    (f.set r w).get r' = f.get r' := by
  cases r <;> cases r' <;> first | rfl | exact absurd rfl h

theorem RegFile.get_set (f : RegFile) (r r' : Reg) (w : WideReg) :
    (f.set r w).get r' = if r' = r then w else f.get r' := by
  by_cases h : r' = r
  · subst h; simp
  · simp [h]

@[simp] theorem RegFile.get_reset (n : Nat) (r : Reg) : (RegFile.reset n).get r = WideReg.reset n := by
  cases r <;> rfl

/-- Two register files that hold the same registers are equal. -/
theorem RegFile.ext_get {f g : RegFile} (h : ∀ r, f.get r = g.get r) : f = g := by
  obtain ⟨a0, a1, a2, a3, a4, a5, a6, a7⟩ := f
  obtain ⟨b0, b1, b2, b3, b4, b5, b6, b7⟩ := g
  have h0 : a0 = b0 := h .x0
  have h1 : a1 = b1 := h .x1
  have h2 : a2 = b2 := h .x2
  have h3 : a3 = b3 := h .x3
  have h4 : a4 = b4 := h .x4
  have h5 : a5 = b5 := h .x5
  have h6 : a6 = b6 := h .x6
  have h7 : a7 = b7 := h .x7
  subst h0 h1 h2 h3 h4 h5 h6 h7
  rfl

@[simp] theorem State.setX_bits (s : State) (r : Reg) (v : Limbs) : (s.setX r v).bits = s.bits := rfl
@[simp] theorem State.setX_regs (s : State) (r : Reg) (v : Limbs) : (s.setX r v).regs = s.regs.set r (WideReg.ofBits s.bits v) := rfl
@[simp] theorem State.setX_res (s : State) (r : Reg) (v : Limbs) : (s.setX r v).res = s.res := rfl
@[simp] theorem State.setX_res2 (s : State) (r : Reg) (v : Limbs) : (s.setX r v).res2 = s.res2 := rfl
@[simp] theorem State.setX_fault (s : State) (r : Reg) (v : Limbs) : (s.setX r v).fault = s.fault := rfl
@[simp] theorem State.setX_cause (s : State) (r : Reg) (v : Limbs) : (s.setX r v).cause = s.cause := rfl
@[simp] theorem State.setX_faultCmd (s : State) (r : Reg) (v : Limbs) : (s.setX r v).faultCmd = s.faultCmd := rfl
@[simp] theorem State.setX_faultImm (s : State) (r : Reg) (v : Limbs) : (s.setX r v).faultImm = s.faultImm := rfl
@[simp] theorem State.setX_busy (s : State) (r : Reg) (v : Limbs) : (s.setX r v).busy = s.busy := rfl
@[simp] theorem State.setX_cmd (s : State) (r : Reg) (v : Limbs) : (s.setX r v).cmd = s.cmd := rfl
@[simp] theorem State.setX_imm (s : State) (r : Reg) (v : Limbs) : (s.setX r v).imm = s.imm := rfl
@[simp] theorem State.setX_inReset (s : State) (r : Reg) (v : Limbs) : (s.setX r v).inReset = s.inReset := rfl
@[simp] theorem State.setX_k (s : State) (r : Reg) (v : Limbs) : (s.setX r v).k = s.k := rfl
@[simp] theorem State.setX_inputs (s : State) (r : Reg) (v : Limbs) : (s.setX r v).inputs = s.inputs := rfl

@[simp] theorem State.setRes_bits (s : State) (w : BitVec 64) : (s.setRes w).bits = s.bits := rfl
@[simp] theorem State.setRes_regs (s : State) (w : BitVec 64) : (s.setRes w).regs = s.regs := rfl
@[simp] theorem State.setRes_res (s : State) (w : BitVec 64) : (s.setRes w).res = w := rfl
@[simp] theorem State.setRes_res2 (s : State) (w : BitVec 64) : (s.setRes w).res2 = s.res2 := rfl
@[simp] theorem State.setRes_fault (s : State) (w : BitVec 64) : (s.setRes w).fault = s.fault := rfl
@[simp] theorem State.setRes_cause (s : State) (w : BitVec 64) : (s.setRes w).cause = s.cause := rfl
@[simp] theorem State.setRes_faultCmd (s : State) (w : BitVec 64) : (s.setRes w).faultCmd = s.faultCmd := rfl
@[simp] theorem State.setRes_faultImm (s : State) (w : BitVec 64) : (s.setRes w).faultImm = s.faultImm := rfl
@[simp] theorem State.setRes_busy (s : State) (w : BitVec 64) : (s.setRes w).busy = s.busy := rfl
@[simp] theorem State.setRes_cmd (s : State) (w : BitVec 64) : (s.setRes w).cmd = s.cmd := rfl
@[simp] theorem State.setRes_imm (s : State) (w : BitVec 64) : (s.setRes w).imm = s.imm := rfl
@[simp] theorem State.setRes_inReset (s : State) (w : BitVec 64) : (s.setRes w).inReset = s.inReset := rfl
@[simp] theorem State.setRes_k (s : State) (w : BitVec 64) : (s.setRes w).k = s.k := rfl
@[simp] theorem State.setRes_inputs (s : State) (w : BitVec 64) : (s.setRes w).inputs = s.inputs := rfl

@[simp] theorem State.setRes2_bits (s : State) (w : BitVec 64) : (s.setRes2 w).bits = s.bits := rfl
@[simp] theorem State.setRes2_regs (s : State) (w : BitVec 64) : (s.setRes2 w).regs = s.regs := rfl
@[simp] theorem State.setRes2_res (s : State) (w : BitVec 64) : (s.setRes2 w).res = s.res := rfl
@[simp] theorem State.setRes2_res2 (s : State) (w : BitVec 64) : (s.setRes2 w).res2 = w := rfl
@[simp] theorem State.setRes2_fault (s : State) (w : BitVec 64) : (s.setRes2 w).fault = s.fault := rfl
@[simp] theorem State.setRes2_cause (s : State) (w : BitVec 64) : (s.setRes2 w).cause = s.cause := rfl
@[simp] theorem State.setRes2_faultCmd (s : State) (w : BitVec 64) : (s.setRes2 w).faultCmd = s.faultCmd := rfl
@[simp] theorem State.setRes2_faultImm (s : State) (w : BitVec 64) : (s.setRes2 w).faultImm = s.faultImm := rfl
@[simp] theorem State.setRes2_busy (s : State) (w : BitVec 64) : (s.setRes2 w).busy = s.busy := rfl
@[simp] theorem State.setRes2_cmd (s : State) (w : BitVec 64) : (s.setRes2 w).cmd = s.cmd := rfl
@[simp] theorem State.setRes2_imm (s : State) (w : BitVec 64) : (s.setRes2 w).imm = s.imm := rfl
@[simp] theorem State.setRes2_inReset (s : State) (w : BitVec 64) : (s.setRes2 w).inReset = s.inReset := rfl
@[simp] theorem State.setRes2_k (s : State) (w : BitVec 64) : (s.setRes2 w).k = s.k := rfl
@[simp] theorem State.setRes2_inputs (s : State) (w : BitVec 64) : (s.setRes2 w).inputs = s.inputs := rfl

@[simp] theorem State.accept_bits (s : State) (c : Command) : (s.accept c).bits = s.bits := rfl
@[simp] theorem State.accept_regs (s : State) (c : Command) : (s.accept c).regs = s.regs := rfl
@[simp] theorem State.accept_res (s : State) (c : Command) : (s.accept c).res = s.res := rfl
@[simp] theorem State.accept_res2 (s : State) (c : Command) : (s.accept c).res2 = s.res2 := rfl
@[simp] theorem State.accept_fault (s : State) (c : Command) : (s.accept c).fault = s.fault := rfl
@[simp] theorem State.accept_cause (s : State) (c : Command) : (s.accept c).cause = s.cause := rfl
@[simp] theorem State.accept_faultCmd (s : State) (c : Command) : (s.accept c).faultCmd = s.faultCmd := rfl
@[simp] theorem State.accept_faultImm (s : State) (c : Command) : (s.accept c).faultImm = s.faultImm := rfl
@[simp] theorem State.accept_busy (s : State) (c : Command) : (s.accept c).busy = true := rfl
@[simp] theorem State.accept_cmd (s : State) (c : Command) : (s.accept c).cmd = c.cmd := rfl
@[simp] theorem State.accept_imm (s : State) (c : Command) : (s.accept c).imm = c.imm := rfl
@[simp] theorem State.accept_inReset (s : State) (c : Command) : (s.accept c).inReset = s.inReset := rfl
@[simp] theorem State.accept_k (s : State) (c : Command) : (s.accept c).k = s.k + 1 := rfl
@[simp] theorem State.accept_inputs (s : State) (c : Command) : (s.accept c).inputs = s.inputs := rfl

@[simp] theorem State.complete_bits (s : State) : (s.complete).bits = s.bits := rfl
@[simp] theorem State.complete_regs (s : State) : (s.complete).regs = s.regs := rfl
@[simp] theorem State.complete_res (s : State) : (s.complete).res = s.res := rfl
@[simp] theorem State.complete_res2 (s : State) : (s.complete).res2 = s.res2 := rfl
@[simp] theorem State.complete_fault (s : State) : (s.complete).fault = s.fault := rfl
@[simp] theorem State.complete_cause (s : State) : (s.complete).cause = s.cause := rfl
@[simp] theorem State.complete_faultCmd (s : State) : (s.complete).faultCmd = s.faultCmd := rfl
@[simp] theorem State.complete_faultImm (s : State) : (s.complete).faultImm = s.faultImm := rfl
@[simp] theorem State.complete_busy (s : State) : (s.complete).busy = false := rfl
@[simp] theorem State.complete_cmd (s : State) : (s.complete).cmd = 0 := rfl
@[simp] theorem State.complete_imm (s : State) : (s.complete).imm = 0 := rfl
@[simp] theorem State.complete_inReset (s : State) : (s.complete).inReset = s.inReset := rfl
@[simp] theorem State.complete_k (s : State) : (s.complete).k = s.k := rfl
@[simp] theorem State.complete_inputs (s : State) : (s.complete).inputs = s.inputs := rfl

@[simp] theorem State.resetEdge_bits (s : State) : (s.resetEdge).bits = s.bits := rfl
@[simp] theorem State.resetEdge_regs (s : State) : (s.resetEdge).regs = RegFile.reset s.bits := rfl
@[simp] theorem State.resetEdge_res (s : State) : (s.resetEdge).res = 0 := rfl
@[simp] theorem State.resetEdge_res2 (s : State) : (s.resetEdge).res2 = 0 := rfl
@[simp] theorem State.resetEdge_fault (s : State) : (s.resetEdge).fault = false := rfl
@[simp] theorem State.resetEdge_cause (s : State) : (s.resetEdge).cause = .none := rfl
@[simp] theorem State.resetEdge_faultCmd (s : State) : (s.resetEdge).faultCmd = 0 := rfl
@[simp] theorem State.resetEdge_faultImm (s : State) : (s.resetEdge).faultImm = 0 := rfl
@[simp] theorem State.resetEdge_busy (s : State) : (s.resetEdge).busy = false := rfl
@[simp] theorem State.resetEdge_cmd (s : State) : (s.resetEdge).cmd = 0 := rfl
@[simp] theorem State.resetEdge_imm (s : State) : (s.resetEdge).imm = 0 := rfl
@[simp] theorem State.resetEdge_inReset (s : State) : (s.resetEdge).inReset = true := rfl
@[simp] theorem State.resetEdge_k (s : State) : (s.resetEdge).k = 0 := rfl
@[simp] theorem State.resetEdge_inputs (s : State) : (s.resetEdge).inputs = s.inputs := rfl

@[simp] theorem State.raise_bits (s : State) (c : Cause) : (s.raise c).bits = s.bits := by
  unfold State.raise; split <;> rfl
@[simp] theorem State.raise_regs (s : State) (c : Cause) : (s.raise c).regs = s.regs := by
  unfold State.raise; split <;> rfl
@[simp] theorem State.raise_res (s : State) (c : Cause) : (s.raise c).res = s.res := by
  unfold State.raise; split <;> rfl
@[simp] theorem State.raise_res2 (s : State) (c : Cause) : (s.raise c).res2 = s.res2 := by
  unfold State.raise; split <;> rfl
@[simp] theorem State.raise_busy (s : State) (c : Cause) : (s.raise c).busy = s.busy := by
  unfold State.raise; split <;> rfl
@[simp] theorem State.raise_cmd (s : State) (c : Cause) : (s.raise c).cmd = s.cmd := by
  unfold State.raise; split <;> rfl
@[simp] theorem State.raise_imm (s : State) (c : Cause) : (s.raise c).imm = s.imm := by
  unfold State.raise; split <;> rfl
@[simp] theorem State.raise_inReset (s : State) (c : Cause) : (s.raise c).inReset = s.inReset := by
  unfold State.raise; split <;> rfl
@[simp] theorem State.raise_k (s : State) (c : Cause) : (s.raise c).k = s.k := by
  unfold State.raise; split <;> rfl
@[simp] theorem State.raise_inputs (s : State) (c : Cause) : (s.raise c).inputs = s.inputs := by
  unfold State.raise; split <;> rfl

@[simp] theorem State.raise_fault (s : State) (c : Cause) : (s.raise c).fault = true := by
  unfold State.raise; split <;> simp_all

/-- Fault entry with FAULT = 0 (60_exceptions.md R262). -/
theorem State.raise_of_no_fault {s : State} (h : s.fault = false) (c : Cause) :
    s.raise c = { s with fault := true, cause := c, faultCmd := s.cmd, faultImm := s.imm } := by
  simp [State.raise, h]

/-- In the fault state nothing is raised (60_exceptions.md R264). -/
theorem State.raise_of_fault {s : State} (h : s.fault = true) (c : Cause) : s.raise c = s := by
  simp [State.raise, h]

@[simp] theorem State.presentNext_inputs (s : State) (c : Command) :
    (s.presentNext c).inputs = .command c :: s.inputs := rfl
@[simp] theorem State.presentNext_inReset (s : State) (c : Command) : (s.presentNext c).inReset = false := rfl
@[simp] theorem State.presentNext_bits (s : State) (c : Command) : (s.presentNext c).bits = s.bits := rfl

@[simp] theorem completed_next (s : State) : completed (.next s) = .next s.complete := rfl

end Sys2Proof.Machine
end

