-- ==== Sys2Proof/Laws/Registers.lean ====
section
/-! SUPPORT. Registers and shared operations: reading a register after each write, the register's canonical form (W limbs, padding 0,
one written mark a limb: 10_state.md R30 to R33) and that every register operation keeps it, the operand checks. -/

namespace Sys2Proof.Machine

/-! ### Reading after writing -/

@[simp] theorem State.x_setX_same (s : State) (r : Reg) (v : Limbs) : (s.setX r v).x r = clearPad s.bits v := by
  simp [State.x, WideReg.ofBits]

@[simp] theorem State.x_setX_other (s : State) {r r' : Reg} (v : Limbs) (h : r' ≠ r) : (s.setX r v).x r' = s.x r' := by
  simp [State.x, h]

@[simp] theorem State.x_setRes (s : State) (w : BitVec 64) (r : Reg) : (s.setRes w).x r = s.x r := rfl

@[simp] theorem State.x_setRes2 (s : State) (w : BitVec 64) (r : Reg) : (s.setRes2 w).x r = s.x r := rfl

@[simp] theorem State.x_raise (s : State) (c : Cause) (r : Reg) : (s.raise c).x r = s.x r := by simp [State.x]

@[simp] theorem State.x_accept (s : State) (c : Command) (r : Reg) : (s.accept c).x r = s.x r := rfl

@[simp] theorem State.x_complete (s : State) (r : Reg) : s.complete.x r = s.x r := rfl

theorem State.x_eq_bvN (s : State) (r : Reg) : s.x r = bvN s.bits (s.u r) := (canonical_x s r).eq_bvN_uval

theorem State.x_eq_bvN_sgn (s : State) (r : Reg) : s.x r = bvN s.bits (s.sgn r) := (canonical_x s r).eq_bvN_sval

theorem State.u_lt (s : State) (r : Reg) : s.u r < 2 ^ s.bits := (canonical_x s r).2

/-! ### The canonical form of a register -/

theorem WideReg.wf_iff (n : Nat) (w : WideReg) :
    w.wf n = true ↔ Canonical n w.limbs ∧ w.written.length = limbCount n := by
  unfold WideReg.wf
  rw [Bool.and_eq_true, beq_iff_eq, beq_iff_eq]
  refine and_congr_left fun _ => ⟨fun h => ?_, fun h => h.clearPad_eq.symm⟩
  rw [h]
  exact canonical_clearPad ..

theorem uval_replicate_zero (m : Nat) : uval (List.replicate m 0) = 0 := by
  induction m with
  | zero => rfl
  | succ m ih => rw [List.replicate_succ, uval, ih]; rfl

/-- A register after reset is canonical (10_state.md R45). -/
theorem WideReg.wf_reset (n : Nat) : (WideReg.reset n).wf n = true := by
  rw [WideReg.wf_iff]
  refine ⟨⟨List.length_replicate .., ?_⟩, List.length_replicate ..⟩
  rw [show (WideReg.reset n).limbs = List.replicate (limbCount n) 0 from rfl, uval_replicate_zero]
  exact Nat.two_pow_pos n

/-- A register written through `x[r] <- v` is canonical (00_scope.md R15; 10_state.md R32, R33). -/
theorem WideReg.wf_ofBits (n : Nat) (v : Limbs) : (WideReg.ofBits n v).wf n = true := by
  rw [WideReg.wf_iff]
  exact ⟨canonical_clearPad n v, List.length_replicate ..⟩

theorem bitAt_set {st : Limbs} {j : Nat} (hj : j < st.length) (v : Limb) (p : Nat) :
    bitAt (st.set j v) p = if p / 64 = j then v.getLsbD (p % 64) else bitAt st p := by
  rw [bitAt_eq]
  split
  · rename_i h
    simp [limbAt, h, hj]
  · rename_i h
    rw [bitAt_eq]
    simp [limbAt, Ne.symm h]

/-- WRLIMB keeps a register canonical (41_storage_bits.md R113; 10_state.md R32). -/
theorem WideReg.wf_setLimb {n : Nat} {w : WideReg} (h : w.wf n = true) {j : Nat} (hj : j < limbCount n) (v : Limb) :
    (w.setLimb n j v).wf n = true := by
  rw [WideReg.wf_iff] at *
  obtain ⟨hc, hl⟩ := h
  refine ⟨?_, by simp [WideReg.setLimb, hl]⟩
  unfold WideReg.setLimb
  simp only
  split
  · exact canonical_clearPad ..
  · rename_i ht
    have hne : j + 1 ≠ limbCount n := by simpa [isTop] using ht
    refine ⟨by simp [hc.1], Nat.lt_pow_two_of_testBit _ fun p hp => ?_⟩
    have := storage_lt n
    rw [testBit_uval, bitAt_set (by rw [hc.1]; exact hj), if_neg (by omega)]
    exact hc.bitAt_of_le hp

/-- Bits of a register after WRLIMB (41_storage_bits.md R113). -/
theorem WideReg.bitAt_setLimb {n : Nat} {w : WideReg} (h : w.wf n = true) {j : Nat} (hj : j < limbCount n) (v : Limb) (p : Nat) :
    bitAt (w.setLimb n j v).limbs p
      = if p / 64 = j then decide (p < n) && v.getLsbD (p % 64) else bitAt w.limbs p := by
  have hw := (WideReg.wf_iff n w).1 h
  unfold WideReg.setLimb
  simp only
  have hb := bitAt_set (st := w.limbs) (by rw [hw.1.1]; exact hj) v p
  have := storage_lt n
  split
  · rw [bitAt_clearPad, hb]
    split
    · rfl
    · by_cases hp : p < n
      · simp [hp]
      · simp [hp, hw.1.bitAt_of_le (by omega : n ≤ p)]
  · rename_i ht
    have hne : j + 1 ≠ limbCount n := by simpa [isTop] using ht
    rw [hb]
    split
    · rename_i hpj
      have : p < n := by omega
      simp [this]
    · rfl

/-! ### Operand checks -/

theorem State.checkLimb_of_lt {s : State} {j : BitVec 12} (h : j.toNat < limbCount s.bits) (k : Result) : s.checkLimb j k = k := by
  unfold State.checkLimb; exact if_neg (by omega)

theorem State.checkLimb_of_ge {s : State} {j : BitVec 12} (h : limbCount s.bits ≤ j.toNat) (k : Result) :
    s.checkLimb j k = .next (s.raise .limbIndex) := by
  unfold State.checkLimb; exact if_pos h

theorem State.checkBit_of_lt {s : State} (h : s.imm.toNat < s.bits) (k : Result) : s.checkBit k = k := by
  unfold State.checkBit; exact if_neg (Nat.not_le.2 h)

theorem State.checkBit_of_ge {s : State} (h : s.bits ≤ s.imm.toNat) (k : Result) : s.checkBit k = .next (s.raise .bitIndex) := by
  unfold State.checkBit; exact if_pos h

theorem State.checkDivisor_of_ne {s : State} {r : Reg} (h : s.u r ≠ 0) (k : Result) : s.checkDivisor r k = k := by
  unfold State.checkDivisor; exact if_neg h

theorem State.checkDivisor_of_zero {s : State} {r : Reg} (h : s.u r = 0) (k : Result) :
    s.checkDivisor r k = .next (s.raise .divZero) := by
  unfold State.checkDivisor; exact if_pos h

theorem State.checkDests_of_ne {s : State} {a b : Reg} (h : a ≠ b) (k : Result) : s.checkDests a b k = k := by
  unfold State.checkDests; exact if_neg h

theorem State.checkDests_of_eq {s : State} {a b : Reg} (h : a = b) (k : Result) :
    s.checkDests a b k = .next (s.raise .illegal) := by
  unfold State.checkDests; exact if_pos h

end Sys2Proof.Machine
end

