-- ==== Sys2Proof/Laws/Commands.lean ====
section
/-! SUPPORT. What a command and a step can do, said once: `exec_cases` (a fault entry, or new registers and results and nothing else),
`exec_of_faultOf` and `exec_of_no_fault` (which of the two), and the step on each event. -/

namespace Sys2Proof.Machine

/-- The only things a command can write besides the fault record: `regs`, `res` and `res2`. -/
def State.withResults (s : State) (f : RegFile) (a b : BitVec 64) : State := { s with regs := f, res := a, res2 := b }

@[simp] theorem State.withResults_bits (s : State) (f : RegFile) (a b : BitVec 64) : (s.withResults f a b).bits = s.bits := rfl
@[simp] theorem State.withResults_regs (s : State) (f : RegFile) (a b : BitVec 64) : (s.withResults f a b).regs = f := rfl
@[simp] theorem State.withResults_res (s : State) (f : RegFile) (a b : BitVec 64) : (s.withResults f a b).res = a := rfl
@[simp] theorem State.withResults_res2 (s : State) (f : RegFile) (a b : BitVec 64) : (s.withResults f a b).res2 = b := rfl
@[simp] theorem State.withResults_fault (s : State) (f : RegFile) (a b : BitVec 64) : (s.withResults f a b).fault = s.fault := rfl
@[simp] theorem State.withResults_faultCmd (s : State) (f : RegFile) (a b : BitVec 64) : (s.withResults f a b).faultCmd = s.faultCmd := rfl
@[simp] theorem State.withResults_faultImm (s : State) (f : RegFile) (a b : BitVec 64) : (s.withResults f a b).faultImm = s.faultImm := rfl
@[simp] theorem State.withResults_busy (s : State) (f : RegFile) (a b : BitVec 64) : (s.withResults f a b).busy = s.busy := rfl
@[simp] theorem State.withResults_cmd (s : State) (f : RegFile) (a b : BitVec 64) : (s.withResults f a b).cmd = s.cmd := rfl
@[simp] theorem State.withResults_imm (s : State) (f : RegFile) (a b : BitVec 64) : (s.withResults f a b).imm = s.imm := rfl
@[simp] theorem State.withResults_inReset (s : State) (f : RegFile) (a b : BitVec 64) : (s.withResults f a b).inReset = s.inReset := rfl
@[simp] theorem State.withResults_k (s : State) (f : RegFile) (a b : BitVec 64) : (s.withResults f a b).k = s.k := rfl
@[simp] theorem State.withResults_inputs (s : State) (f : RegFile) (a b : BitVec 64) : (s.withResults f a b).inputs = s.inputs := rfl
@[simp] theorem State.withResults_cause (s : State) (f : RegFile) (a b : BitVec 64) : (s.withResults f a b).cause = s.cause := rfl

/-- What a command may write: registers among its destinations, each canonical if it was; RES and RES2 if it is one of their
writers. -/
structure Writes (i : Instr) (s : State) (f : RegFile) (a b : BitVec 64) : Prop where
  other : ∀ r, r ∉ i.dests → f.get r = s.regs.get r
  wf    : ∀ r, (s.regs.get r).wf s.bits = true → (f.get r).wf s.bits = true
  res   : i.writesRes = false → a = s.res
  res2  : i.writesRes2 = false → b = s.res2

theorem Writes.setX {i : Instr} {s : State} {rd : Reg} (v : Limbs) (hd : i.dests = [rd]) {a : BitVec 64}
    (hr : i.writesRes = false → a = s.res) : Writes i s (s.regs.set rd (WideReg.ofBits s.bits v)) a s.res2 where
  other r h := RegFile.get_set_other _ _ (by simpa [hd] using h)
  wf r h := by
    rw [RegFile.get_set]
    split
    · exact WideReg.wf_ofBits ..
    · exact h
  res := hr
  res2 _ := rfl

theorem Writes.results {i : Instr} {s : State} {a b : BitVec 64} (h1 : i.writesRes = false → a = s.res)
    (h2 : i.writesRes2 = false → b = s.res2) : Writes i s s.regs a b :=
  ⟨fun _ _ => rfl, fun _ h => h, h1, h2⟩

/-- The operand check of a command, if it fails in this state (60_exceptions.md R260, R265). -/
def State.operandFault (s : State) : Instr → Cause
  | .getbit _ | .setbit _ _ => if s.bits ≤ s.imm.toNat then .bitIndex else .none
  | .wrlimb _ j | .rdlimb _ j => if limbCount s.bits ≤ j.toNat then .limbIndex else .none
  | .divU _ _ d | .divS _ _ d | .modU _ _ d | .modS _ _ d => if s.u d = 0 then .divZero else .none
  | .divmodU a b _ d | .divmodS a b _ d => if a = b then .illegal else if s.u d = 0 then .divZero else .none
  | _ => .none

/-- A command whose operand check fails is a fault entry and nothing else (00_scope.md R18). -/
theorem exec_of_operandFault {i : Instr} {s : State} (h : s.operandFault i ≠ .none) :
    exec i s = .next (s.raise (s.operandFault i)) := by
  cases i
  case wrlimb rd j | rdlimb rd j =>
    by_cases hj : limbCount s.bits ≤ j.toNat
    · exact (State.checkLimb_of_ge hj _).trans (congrArg _ (congrArg _ (if_pos hj).symm))
    · exact absurd (if_neg hj) h
  case getbit r =>
    by_cases hj : s.bits ≤ s.imm.toNat
    · exact (State.checkBit_of_ge hj _).trans (congrArg _ (congrArg _ (if_pos hj).symm))
    · exact absurd (if_neg hj) h
  case setbit rd r =>
    by_cases hj : s.bits ≤ s.imm.toNat
    · exact (State.checkBit_of_ge hj _).trans (congrArg _ (congrArg _ (if_pos hj).symm))
    · exact absurd (if_neg hj) h
  case divU rd a d | divS rd a d | modU rd a d | modS rd a d =>
    by_cases hd : s.u d = 0
    · exact (State.checkDivisor_of_zero hd _).trans (congrArg _ (congrArg _ (if_pos hd).symm))
    · exact absurd (if_neg hd) h
  case divmodU rd rd2 a d | divmodS rd rd2 a d =>
    by_cases hn : rd = rd2
    · exact (State.checkDests_of_eq hn _).trans (congrArg _ (congrArg _ (if_pos hn).symm))
    · by_cases hd : s.u d = 0
      · exact ((State.checkDests_of_ne hn _).trans (State.checkDivisor_of_zero hd _)).trans
          (congrArg _ (congrArg _ ((if_neg hn).trans (if_pos hd)).symm))
      · exact absurd ((if_neg hn).trans (if_neg hd)) h
  all_goals exact absurd rfl h

/-- A command whose operand check passes writes registers and results and nothing else. -/
theorem exec_of_no_operandFault {i : Instr} {s : State} (h : s.operandFault i = .none) :
    ∃ f a b, exec i s = .next (s.withResults f a b) ∧ Writes i s f a b := by
  cases i
  case wrlimb rd j =>
    have hj : j.toNat < limbCount s.bits := by
      by_contra hc; simp [State.operandFault, not_lt.1 hc] at h
    refine ⟨_, _, _, State.checkLimb_of_lt hj _, ⟨fun r hr => RegFile.get_set_other _ _ (by simpa [Instr.dests] using hr), fun r hr => ?_, fun _ => rfl, fun _ => rfl⟩⟩
    rw [RegFile.get_set]
    split
    · rename_i e; subst e; exact WideReg.wf_setLimb hr hj _
    · exact hr
  case rdlimb r j =>
    have hj : j.toNat < limbCount s.bits := by
      by_contra hc; simp [State.operandFault, not_lt.1 hc] at h
    exact ⟨_, _, _, State.checkLimb_of_lt hj _, Writes.results (fun h => by cases h) fun _ => rfl⟩
  case getbit r =>
    have hj : s.imm.toNat < s.bits := by
      by_contra hc; simp [State.operandFault, not_lt.1 hc] at h
    exact ⟨_, _, _, State.checkBit_of_lt hj _, Writes.results (fun h => by cases h) fun _ => rfl⟩
  case setbit rd r =>
    have hj : s.imm.toNat < s.bits := by
      by_contra hc; simp [State.operandFault, not_lt.1 hc] at h
    exact ⟨_, _, _, State.checkBit_of_lt hj _, Writes.setX _ rfl fun _ => rfl⟩
  case divU rd a d | divS rd a d | modU rd a d | modS rd a d =>
    have hd : s.u d ≠ 0 := by
      intro hc; simp [State.operandFault, hc] at h
    exact ⟨_, _, _, State.checkDivisor_of_ne hd _, Writes.setX _ rfl fun _ => rfl⟩
  case divmodU rd rd2 a d | divmodS rd rd2 a d =>
    have hn : rd ≠ rd2 := by
      intro hc; simp [State.operandFault, hc] at h
    have hd : s.u d ≠ 0 := by
      intro hc; simp [State.operandFault, hc, hn] at h
    refine ⟨_, _, _, (State.checkDests_of_ne hn _).trans (State.checkDivisor_of_ne hd _), ⟨fun r hr => ?_, fun r hr => ?_, fun _ => rfl, fun _ => rfl⟩⟩
    · simp only [Instr.dests, List.mem_cons, List.not_mem_nil, or_false, not_or] at hr
      exact (RegFile.get_set_other _ _ hr.2).trans (RegFile.get_set_other _ _ hr.1)
    · rw [RegFile.get_set]
      split
      · exact WideReg.wf_ofBits ..
      · rw [State.setX_regs, RegFile.get_set]
        split
        · exact WideReg.wf_ofBits ..
        · exact hr
  all_goals first
    | exact ⟨_, _, _, rfl, Writes.setX _ rfl fun _ => rfl⟩
    | exact ⟨_, _, _, rfl, Writes.setX _ rfl fun h => by cases h⟩
    | exact ⟨_, _, _, rfl, Writes.results (fun h => by cases h) fun _ => rfl⟩
    | exact ⟨_, _, _, rfl, Writes.results (fun h => by cases h) fun h => by cases h⟩
/-- All a command can do. -/
theorem exec_cases (i : Instr) (s : State) :
    (∃ c, c ≠ .none ∧ exec i s = .next (s.raise c)) ∨
    ∃ f a b, exec i s = .next (s.withResults f a b) ∧ Writes i s f a b := by
  by_cases h : s.operandFault i = .none
  · exact .inr (exec_of_no_operandFault h)
  · exact .inl ⟨_, h, exec_of_operandFault h⟩

/-- The decoder has checked DIVMOD's destinations (30_encoding.md R90). -/
theorem wf_of_decode {w : CmdWord} {i : Instr} (h : decode w = .instr i) : i.wf = true := by
  unfold decode at h
  split at h
  · cases h
  · dsimp only at h
    split at h
    · rename_i hw; injection h with h; rwa [← h]
    · cases h

/-- On a decoded command, the table of 60_exceptions.md R260 is the operand check. -/
theorem faultOf_of_decode {s : State} {c : Command} {i : Instr} (h : decode c.cmd = .instr i) :
    s.faultOf c = ({ s with imm := c.imm } : State).operandFault i := by
  have hw := wf_of_decode h
  unfold State.faultOf
  rw [h]
  cases i
  case divmodU rd rd2 a d | divmodS rd rd2 a d =>
    have hn : rd ≠ rd2 := by simpa [Instr.wf] using hw
    exact (if_neg hn).symm
  all_goals rfl

/-! ### The step on each event -/

theorem step_of_width {s : State} (h : widthOk s.bits = true) : step s = s.hostStep := if_pos h

theorem step_of_not_width {s : State} (h : widthOk s.bits ≠ true) : step s = .refused .widthOutOfRange := if_neg h

theorem step_of_inputs {s : State} {e : HostEvent} {rest : List HostEvent} (h : widthOk s.bits = true) (hi : s.inputs = e :: rest) :
    step s = ({ s with inputs := rest } : State).edge e := by
  rw [step_of_width h, State.hostStep, hi]

theorem step_of_no_inputs {s : State} (h : widthOk s.bits = true) (hi : s.inputs = []) :
    step s = .next { s with inReset := false } := by
  rw [step_of_width h, State.hostStep]
  split
  · rfl
  · simp_all

/-- A ready block accepts the command, executes it and completes it. -/
theorem step_of_ready {s : State} {c : Command} {rest : List HostEvent} (h : s.Ready c rest) :
    step s = completed (({ s with inputs := rest } : State).accept c).runDecoded := by
  rw [step_of_inputs h.width h.presented]
  simp [State.edge, h.outOfReset, State.runCommand, h.noFault]

end Sys2Proof.Machine
end

