-- ==== Sys2Proof/Laws/Comparator.lean ====
section
/-! SUPPORT. The comparator and the bitwise operators: the compare functions give the sign of the difference (46_compare.md R220),
and the limb-by-limb operators act on every bit (47_bitwise.md R240 to R242). -/

namespace Sys2Proof.Machine

theorem uval_append (a b : Limbs) : uval (a ++ b) = uval a + 2 ^ (64 * a.length) * uval b := by
  induction a with
  | nil => simp [uval]
  | cons l a ih =>
    have hp : 2 ^ (64 * (l :: a).length) = 2 ^ 64 * 2 ^ (64 * a.length) := by
      rw [← Nat.pow_add]; congr 1; simp; omega
    rw [List.cons_append, uval, uval, ih, hp, Nat.mul_add, Nat.mul_assoc, Nat.add_assoc]

/-- Most significant limb first, the first limb that differs decides (46_compare.md R220). -/
theorem compareFromTop_eq (a b : Limbs) (h : a.length = b.length) :
    compareFromTop a b = ((uval a.reverse : Int) - uval b.reverse).sign := by
  induction a generalizing b with
  | nil =>
    cases b with
    | nil => rfl
    | cons => simp at h
  | cons x a ih =>
    cases b with
    | nil => simp at h
    | cons y b =>
      have hl : a.length = b.length := by simpa using h
      rw [List.reverse_cons, List.reverse_cons, uval_append, uval_append, compareFromTop]
      have ha := uval_lt a.reverse
      have hb := uval_lt b.reverse
      simp only [List.length_reverse, uval, Nat.mul_zero, Nat.add_zero] at *
      rw [← hl] at hb ⊢
      by_cases hxy : x = y
      · rw [if_neg (by simpa using hxy), ih b hl, hxy]
        push_cast
        congr 1
        ring
      · rw [if_pos (by simpa using hxy)]
        have hne : x.toNat ≠ y.toNat := fun e => hxy (BitVec.eq_of_toNat_eq e)
        by_cases hgt : x > y
        · rw [if_pos hgt]
          have h1 : y.toNat + 1 ≤ x.toNat := BitVec.lt_def.1 hgt
          have h2 := Nat.mul_le_mul_left (2 ^ (64 * a.length)) h1
          rw [Nat.mul_add] at h2
          symm
          exact Int.sign_eq_one_of_pos (by omega)
        · rw [if_neg hgt]
          have h1 : x.toNat + 1 ≤ y.toNat := by
            have : ¬ y.toNat < x.toNat := fun e => hgt (BitVec.lt_def.2 e)
            omega
          have h2 := Nat.mul_le_mul_left (2 ^ (64 * a.length)) h1
          rw [Nat.mul_add] at h2
          symm
          exact Int.sign_eq_neg_one_of_neg (by omega)

/-- `ucmp(a, b) = sign(u(a) - u(b))` (46_compare.md R220). -/
theorem ucmp_eq {a b : Limbs} (h : a.length = b.length) : ucmp a b = ((uval a : Int) - uval b).sign := by
  unfold ucmp
  rw [compareFromTop_eq _ _ (by simpa using h), List.reverse_reverse, List.reverse_reverse]

/-- `scmp(a, b) = sign(s(a) - s(b))` (46_compare.md R220). -/
theorem scmp_eq {n : Nat} (hn : 0 < n) {a b : Limbs} (ha : Canonical n a) (hb : Canonical n b) :
    scmp n a b = (sval n a - sval n b).sign := by
  have ha1 := sval_neg_iff hn ha
  have hb1 := sval_neg_iff hn hb
  unfold scmp
  by_cases h : signBit n a = signBit n b
  · rw [if_neg (by simpa using h), ucmp_eq (ha.1.trans hb.1.symm)]
    unfold sval
    rw [h]
    congr 1
    ring
  · rw [if_pos h]
    cases hsa : signBit n a <;> cases hsb : signBit n b <;> rw [hsa] at ha1 <;> rw [hsb] at hb1 <;>
      first
        | exact absurd (hsa.trans hsb.symm) h
        | skip
    · have h1 := of_decide_eq_false ha1.symm
      have h2 := of_decide_eq_true hb1.symm
      symm
      exact Int.sign_eq_one_of_pos (by omega)
    · have h1 := of_decide_eq_true ha1.symm
      have h2 := of_decide_eq_false hb1.symm
      symm
      exact Int.sign_eq_neg_one_of_neg (by omega)

/-! ### Bitwise operators -/

/-- A limb-by-limb operator acts on every bit. -/
theorem bitAt_zipWith (f : Limb → Limb → Limb) (g : Bool → Bool → Bool)
    (h : ∀ x y i, i < 64 → (f x y).getLsbD i = g (x.getLsbD i) (y.getLsbD i)) {a b : Limbs} (hl : a.length = b.length) (p : Nat)
    (hp : p < 64 * a.length) : bitAt (List.zipWith f a b) p = g (bitAt a p) (bitAt b p) := by
  have h1 : p / 64 < a.length := by omega
  have h2 : p / 64 < b.length := by omega
  have hb : p % 64 < 64 := Nat.mod_lt _ (by decide)
  rw [bitAt_eq, bitAt_eq, bitAt_eq, ← h _ _ _ hb]
  congr 1
  simp [limbAt, h1, h2]

theorem canonical_zipWith {n : Nat} (f : Limb → Limb → Limb) (g : Bool → Bool → Bool)
    (h : ∀ x y i, i < 64 → (f x y).getLsbD i = g (x.getLsbD i) (y.getLsbD i)) (h0 : g false false = false) {a b : Limbs}
    (ha : Canonical n a) (hb : Canonical n b) : Canonical n (List.zipWith f a b) := by
  have hl : (List.zipWith f a b).length = limbCount n := by simp [ha.1, hb.1]
  refine ⟨hl, Nat.lt_pow_two_of_testBit _ fun p hp => ?_⟩
  rw [testBit_uval]
  by_cases hp' : p < 64 * limbCount n
  · rw [bitAt_zipWith f g h (ha.1.trans hb.1.symm) p (by rw [ha.1]; exact hp'), ha.bitAt_of_le hp, hb.bitAt_of_le hp, h0]
  · exact bitAt_of_le (by rw [hl]; omega)

theorem testBit_zipWith {n : Nat} (f : Limb → Limb → Limb) (g : Bool → Bool → Bool)
    (h : ∀ x y i, i < 64 → (f x y).getLsbD i = g (x.getLsbD i) (y.getLsbD i)) (h0 : g false false = false) {a b : Limbs}
    (ha : Canonical n a) (hb : Canonical n b) (p : Nat) :
    (uval (List.zipWith f a b)).testBit p = g ((uval a).testBit p) ((uval b).testBit p) := by
  rw [testBit_uval, testBit_uval, testBit_uval]
  by_cases hp' : p < 64 * limbCount n
  · exact bitAt_zipWith f g h (ha.1.trans hb.1.symm) p (by rw [ha.1]; exact hp')
  · have hl : (List.zipWith f a b).length = limbCount n := by simp [ha.1, hb.1]
    rw [bitAt_of_le (by rw [hl]; omega), bitAt_of_le (by rw [ha.1]; omega), bitAt_of_le (by rw [hb.1]; omega), h0]

/-- AND on the values (47_bitwise.md R240). -/
theorem zipWith_and_eq {n : Nat} {a b : Limbs} (ha : Canonical n a) (hb : Canonical n b) :
    List.zipWith (fun x y => x &&& y) a b = bvN n ((uval a &&& uval b : Nat) : Int) := by
  apply (canonical_zipWith _ _ (fun x y i _ => BitVec.getLsbD_and ..) rfl ha hb).eq_bvN
  congr 2
  apply Nat.eq_of_testBit_eq
  intro p
  rw [testBit_zipWith _ _ (fun x y i _ => BitVec.getLsbD_and ..) rfl ha hb, Nat.testBit_and]

/-- OR on the values (47_bitwise.md R241). -/
theorem zipWith_or_eq {n : Nat} {a b : Limbs} (ha : Canonical n a) (hb : Canonical n b) :
    List.zipWith (fun x y => x ||| y) a b = bvN n ((uval a ||| uval b : Nat) : Int) := by
  apply (canonical_zipWith _ _ (fun x y i _ => BitVec.getLsbD_or ..) rfl ha hb).eq_bvN
  congr 2
  apply Nat.eq_of_testBit_eq
  intro p
  rw [testBit_zipWith _ _ (fun x y i _ => BitVec.getLsbD_or ..) rfl ha hb, Nat.testBit_or]

/-- XOR on the values (47_bitwise.md R242). -/
theorem zipWith_xor_eq {n : Nat} {a b : Limbs} (ha : Canonical n a) (hb : Canonical n b) :
    List.zipWith (fun x y => x ^^^ y) a b = bvN n ((uval a ^^^ uval b : Nat) : Int) := by
  apply (canonical_zipWith _ _ (fun x y i _ => BitVec.getLsbD_xor ..) rfl ha hb).eq_bvN
  congr 2
  apply Nat.eq_of_testBit_eq
  intro p
  rw [testBit_zipWith _ _ (fun x y i _ => BitVec.getLsbD_xor ..) rfl ha hb, Nat.testBit_xor]

end Sys2Proof.Machine
end

