-- ==== Sys2Proof/Laws/Shifter.lean ====
section
/-! SUPPORT. The shifter: each engine's result is the N-bit vector its rule states (45_shift.md R200, R201). -/

namespace Sys2Proof.Machine

/-- Bit p of the left-shifted storage (45_shift.md R200). -/
theorem bitAt_shlLimbs (n : Nat) (a : Limbs) (d p : Nat) :
    bitAt (shlLimbs n a d) p = (decide (p < n) && (decide (d ≤ p) && bitAt a (p - d))) := by
  unfold shlLimbs
  rw [bitAt_clearPad]
  by_cases hp : p < n
  · simp only [hp, decide_true, Bool.true_and]
    have hle := le_storage n
    have hW : p / 64 < limbCount n := by omega
    rw [bitAt_eq, limbAt_mkLimbs, if_pos hW]
    unfold wordShift bitShift
    have hb : p % 64 < 64 := Nat.mod_lt _ (by decide)
    have hd : d % 64 < 64 := Nat.mod_lt _ (by decide)
    by_cases h1 : p / 64 < min (d / 64) (limbCount n)
    · rw [if_pos h1]
      have : ¬ d ≤ p := by omega
      simp [this]
    · rw [if_neg h1]
      have hmin : min (d / 64) (limbCount n) = d / 64 := by omega
      rw [hmin] at h1 ⊢
      by_cases h0 : d % 64 = 0
      · rw [if_pos h0]
        have h2 : d ≤ p := by omega
        have h3 : (p - d) / 64 = p / 64 - d / 64 := by omega
        have h4 : (p - d) % 64 = p % 64 := by omega
        simp only [h2, decide_true, Bool.true_and]
        rw [bitAt_eq, h3, h4]
      · rw [if_neg h0]
        by_cases h5 : 1 ≤ p / 64 - d / 64
        · rw [if_pos h5]
          have h2 : d ≤ p := by omega
          simp only [h2, decide_true, Bool.true_and, BitVec.getLsbD_or, BitVec.getLsbD_shiftLeft, BitVec.getLsbD_ushiftRight, hb]
          by_cases h6 : p % 64 < d % 64
          · have h3 : (p - d) / 64 = p / 64 - d / 64 - 1 := by omega
            have h4 : (p - d) % 64 = 64 - d % 64 + p % 64 := by omega
            rw [bitAt_eq, h3, h4]
            simp [h6]
          · have h3 : (p - d) / 64 = p / 64 - d / 64 := by omega
            have h4 : (p - d) % 64 = p % 64 - d % 64 := by omega
            have h7 : 64 ≤ 64 - d % 64 + p % 64 := by omega
            rw [bitAt_eq, h3, h4]
            simp [h6, BitVec.getLsbD_of_ge _ _ h7]
        · rw [if_neg h5]
          simp only [BitVec.getLsbD_shiftLeft, hb, decide_true, Bool.true_and]
          by_cases h6 : p % 64 < d % 64
          · have : ¬ d ≤ p := by omega
            simp [this, h6]
          · have h2 : d ≤ p := by omega
            have h3 : (p - d) / 64 = p / 64 - d / 64 := by omega
            have h4 : (p - d) % 64 = p % 64 - d % 64 := by omega
            rw [bitAt_eq, h3, h4]
            simp [h6, h2]
  · simp [hp]

theorem canonical_shlLimbs (n : Nat) (a : Limbs) (d : Nat) : Canonical n (shlLimbs n a d) := canonical_clearPad ..

theorem uval_shlLimbs (n : Nat) (a : Limbs) (d : Nat) : uval (shlLimbs n a d) = uval a * 2 ^ d % 2 ^ n := by
  apply Nat.eq_of_testBit_eq
  intro p
  rw [testBit_uval, bitAt_shlLimbs, Nat.testBit_mod_two_pow, Nat.testBit_mul_two_pow, testBit_uval]

/-- `shl_limbs`: `r[N-1:0] = bv_N(u(a) * 2^n)` (45_shift.md R200). -/
theorem shlLimbs_eq (n : Nat) (a : Limbs) (d : Nat) : shlLimbs n a d = bvN n (uval a * 2 ^ d) := by
  apply (canonical_shlLimbs n a d).eq_bvN
  rw [uval_shlLimbs]
  push_cast
  rw [Int.emod_emod]

/-- Bit p' of the limbs the right shifter reads: the value's bit, or the fill above bit N-1 (45_shift.md R201). -/
theorem shrSource_bit {n : Nat} {a : Limbs} (ha : Canonical n a) (fill : Bool) (k : Nat) {b : Nat} (hb : b < 64) :
    (shrSource n (if fill then fillPad n a else a) fill k).getLsbD b
      = if 64 * k + b < n then bitAt a (64 * k + b) else fill := by
  unfold shrSource
  have hle := le_storage n
  by_cases hk : k < limbCount n
  · rw [if_pos hk]
    cases fill
    · simp only [Bool.false_eq_true, ↓reduceIte]
      rw [← bitAt_limb _ hb]
      split
      · rfl
      · exact ha.bitAt_of_le (by omega)
    · simp only [↓reduceIte]
      rw [← bitAt_limb _ hb, bitAt_fillPad _ (by omega)]
      by_cases hn : n ≤ 64 * k + b
      · have : ¬ 64 * k + b < n := by omega
        simp [hn, this]
      · have : 64 * k + b < n := by omega
        simp [this, hn]
  · rw [if_neg hk]
    have : ¬ 64 * k + b < n := by omega
    rw [if_neg this]
    cases fill
    · simp [fillLimb]
    · simp only [fillLimb, ↓reduceIte, BitVec.getLsbD_allOnes, hb, decide_true]

/-- Bit p of the right-shifted storage (45_shift.md R201). -/
theorem bitAt_shrLimbs {n : Nat} {a : Limbs} (ha : Canonical n a) (d : Nat) (fill : Bool) (p : Nat) :
    bitAt (shrLimbs n a d fill) p = (decide (p < n) && if p + d < n then bitAt a (p + d) else fill) := by
  unfold shrLimbs
  rw [bitAt_clearPad]
  by_cases hp : p < n
  · simp only [hp, decide_true, Bool.true_and]
    have hle := le_storage n
    have hW : p / 64 < limbCount n := by omega
    rw [bitAt_eq, limbAt_mkLimbs, if_pos hW]
    have hb : p % 64 < 64 := Nat.mod_lt _ (by decide)
    have hd : d % 64 < 64 := Nat.mod_lt _ (by decide)
    have key : ∀ k c, c < 64 → (64 * k + c = p + d ∨ (n ≤ 64 * k + c ∧ n ≤ p + d)) →
        (shrSource n (if fill then fillPad n a else a) fill k).getLsbD c
          = if p + d < n then bitAt a (p + d) else fill := by
      intro k c hc h
      rw [shrSource_bit ha fill k hc]
      rcases h with h | ⟨h1, h2⟩
      · rw [h]
      · rw [if_neg (by omega), if_neg (by omega)]
    unfold wordShift bitShift
    by_cases h0 : d % 64 = 0
    · simp only [h0, ↓reduceIte]
      apply key _ _ hb
      omega
    · simp only [h0, ↓reduceIte, BitVec.getLsbD_or, BitVec.getLsbD_shiftLeft, BitVec.getLsbD_ushiftRight, hb, decide_true, Bool.true_and]
      by_cases h6 : d % 64 + p % 64 < 64
      · have h7 : p % 64 < 64 - d % 64 := by omega
        simp only [h7, decide_true, Bool.not_true, Bool.false_and, Bool.or_false]
        apply key _ _ h6
        omega
      · have h7 : ¬ p % 64 < 64 - d % 64 := by omega
        rw [BitVec.getLsbD_of_ge _ _ (by omega)]
        simp only [h7, decide_false, Bool.not_false, Bool.true_and, Bool.false_or]
        apply key _ _ (by omega)
        omega
  · simp [hp]

theorem canonical_shrLimbs (n : Nat) (a : Limbs) (d : Nat) (f : Bool) : Canonical n (shrLimbs n a d f) :=
  canonical_clearPad ..

theorem uval_shrLimbs_zero {n : Nat} {a : Limbs} (ha : Canonical n a) (d : Nat) :
    uval (shrLimbs n a d false) = uval a / 2 ^ d := by
  apply Nat.eq_of_testBit_eq
  intro p
  rw [testBit_uval, bitAt_shrLimbs ha, Nat.testBit_div_two_pow, testBit_uval]
  by_cases h : p + d < n
  · have : p < n := by omega
    simp [h, this]
  · rw [if_neg h, ha.bitAt_of_le (by omega)]
    simp

/-- `shr_limbs` with fill = 0: `bv_N(u(a) div 2^n)` (45_shift.md R201). -/
theorem shrLimbs_zero_eq {n : Nat} {a : Limbs} (ha : Canonical n a) (d : Nat) :
    shrLimbs n a d false = bvN n ((uval a / 2 ^ d : Nat) : Int) := by
  apply (canonical_shrLimbs ..).eq_bvN
  rw [uval_shrLimbs_zero ha]

theorem uval_shrLimbs_one {n : Nat} {a : Limbs} (ha : Canonical n a) (d : Nat) :
    uval (shrLimbs n a d true) = (2 ^ n * (2 ^ d - 1) + uval a) / 2 ^ d % 2 ^ n := by
  apply Nat.eq_of_testBit_eq
  intro p
  rw [testBit_uval, bitAt_shrLimbs ha, Nat.testBit_mod_two_pow, Nat.testBit_div_two_pow,
    Nat.testBit_two_pow_mul_add _ ha.2, testBit_uval]
  by_cases hp : p < n
  · simp only [hp, decide_true, Bool.true_and]
    split
    · rfl
    · rename_i h
      rw [Nat.testBit_two_pow_sub_one]
      have : p + d - n < d := by omega
      simp [this]
  · simp [hp]

/-- `shr_limbs` with the sign as the fill: `bv_N(floor(s(a) / 2^n))` (45_shift.md R201, R204). -/
theorem shrLimbs_sign_eq {n : Nat} {a : Limbs} (ha : Canonical n a) (d : Nat) :
    shrLimbs n a d (signBit n a) = bvN n (sval n a / 2 ^ d) := by
  cases hs : signBit n a
  · rw [shrLimbs_zero_eq ha]
    congr 1
    unfold sval
    rw [hs]
    push_cast
    simp
  · apply (canonical_shrLimbs ..).eq_bvN
    rw [uval_shrLimbs_one ha]
    unfold sval
    rw [hs]
    push_cast [Nat.one_le_two_pow]
    rw [Int.emod_emod]
    have : (2 : Int) ^ n * (2 ^ d - 1) + uval a = (uval a - 2 ^ n * 1) + 2 ^ n * 2 ^ d := by ring
    simp only [↓reduceIte]
    rw [this, Int.add_mul_ediv_right _ _ (by positivity), Int.add_emod_right]

end Sys2Proof.Machine
end

