-- ==== Sys2Proof/Laws/Multiplier.lean ====
section
/-! SUPPORT. The multiplier: the exact limb product, the multiply-by-one-limb chain, the full product and the sign procedure
(43_multiply.md R160, R161, R163, R166). -/

namespace Sys2Proof.Machine

theorem toNat_and_mask32 (a : Limb) : (a &&& mask32).toNat = a.toNat % 2 ^ 32 := by
  rw [BitVec.toNat_and]
  exact Nat.and_two_pow_sub_one_eq_mod a.toNat 32

theorem toNat_shr32 (a : Limb) : (a >>> 32).toNat = a.toNat / 2 ^ 32 := by
  rw [BitVec.toNat_ushiftRight, Nat.shiftRight_eq_div_pow]

/-- Two half words side by side. -/
theorem toNat_halves (l m : Limb) :
    ((l &&& mask32) ||| ((m &&& mask32) <<< 32)).toNat = l.toNat % 2 ^ 32 + (m.toNat % 2 ^ 32) * 2 ^ 32 := by
  have hl : l.toNat % 2 ^ 32 < 2 ^ 32 := Nat.mod_lt _ (by decide)
  have hm : m.toNat % 2 ^ 32 < 2 ^ 32 := Nat.mod_lt _ (by decide)
  rw [BitVec.toNat_or, BitVec.toNat_shiftLeft, toNat_and_mask32, toNat_and_mask32, Nat.shiftLeft_eq]
  generalize l.toNat % 2 ^ 32 = x at *
  generalize m.toNat % 2 ^ 32 = y at *
  rw [Nat.mod_eq_of_lt (by omega : y * 2 ^ 32 < 2 ^ 64), Nat.lor_comm, Nat.mul_comm, ← Nat.two_pow_add_eq_or_of_lt hl]
  omega

/-- `a*b = hi*2^64 + lo` exactly (43_multiply.md R160). -/
theorem mul128_exact (a b : Limb) : (mul128 a b).1.toNat * 2 ^ 64 + (mul128 a b).2.toNat = a.toNat * b.toNat := by
  have ha := a.isLt
  have hb := b.isLt
  have hal : a.toNat % 2 ^ 32 ≤ 2 ^ 32 - 1 := by omega
  have hah : a.toNat / 2 ^ 32 ≤ 2 ^ 32 - 1 := by omega
  have hbl : b.toNat % 2 ^ 32 ≤ 2 ^ 32 - 1 := by omega
  have hbh : b.toNat / 2 ^ 32 ≤ 2 ^ 32 - 1 := by omega
  have ea : a.toNat = a.toNat / 2 ^ 32 * 2 ^ 32 + a.toNat % 2 ^ 32 := by omega
  have eb : b.toNat = b.toNat / 2 ^ 32 * 2 ^ 32 + b.toNat % 2 ^ 32 := by omega
  unfold mul128
  simp only [toNat_halves, BitVec.toNat_add, BitVec.toNat_mul, toNat_and_mask32, toNat_shr32]
  generalize a.toNat % 2 ^ 32 = al at *
  generalize a.toNat / 2 ^ 32 = ah at *
  generalize b.toNat % 2 ^ 32 = bl at *
  generalize b.toNat / 2 ^ 32 = bh at *
  rw [ea, eb]
  have h1 := Nat.mul_le_mul hal hbl
  have h2 := Nat.mul_le_mul hal hbh
  have h3 := Nat.mul_le_mul hah hbl
  have h4 := Nat.mul_le_mul hah hbh
  have e : (ah * 2 ^ 32 + al) * (bh * 2 ^ 32 + bl) = ah * bh * 2 ^ 64 + (al * bh + ah * bl) * 2 ^ 32 + al * bl := by ring
  rw [e]
  clear e ea eb ha hb hal hah hbl hbh
  generalize al * bl = ll at *
  generalize al * bh = lh at *
  generalize ah * bl = hl at *
  generalize ah * bh = hh at *
  omega

theorem mulChain_cons (x : Limb) (a : Limbs) (w c : Limb) :
    mulChain (x :: a) w c
      = (((mul128 x w).2 + c)
          :: (mulChain a w ((mul128 x w).1 + (if (mul128 x w).2 + c < (mul128 x w).2 then 1 else 0))).1,
        (mulChain a w ((mul128 x w).1 + (if (mul128 x w).2 + c < (mul128 x w).2 then 1 else 0))).2) := rfl

/-- One step of the chain: the limb and the running carry hold the product and the old carry exactly. -/
theorem mul_limb_step (x w c : Limb) :
    ((mul128 x w).1 + (if (mul128 x w).2 + c < (mul128 x w).2 then 1 else 0)).toNat * 2 ^ 64
      + ((mul128 x w).2 + c).toNat = x.toNat * w.toNat + c.toNat := by
  have hx := x.isLt
  have hw := w.isLt
  have hc := c.isLt
  have he := mul128_exact x w
  have hle : x.toNat * w.toNat ≤ 18446744073709551615 * 18446744073709551615 := Nat.mul_le_mul (by omega) (by omega)
  generalize x.toNat * w.toNat = xw at *
  generalize (mul128 x w).1 = hi at *
  generalize (mul128 x w).2 = lo at *
  have hlo := lo.isLt
  have hr : (lo + c).toNat = (lo.toNat + c.toNat) % 2 ^ 64 := BitVec.toNat_add ..
  by_cases h : lo + c < lo
  · have h1 : (hi + 1).toNat = (hi.toNat + 1) % 2 ^ 64 := BitVec.toNat_add ..
    rw [if_pos h, h1]
    rw [BitVec.lt_def, hr] at h
    have hhi : hi.toNat + 1 < 2 ^ 64 := by
      by_contra hn
      have : 18446744073709551615 * 18446744073709551616 ≤ hi.toNat * 18446744073709551616 :=
        Nat.mul_le_mul_right _ (by omega)
      omega
    have hs : (lo.toNat + c.toNat) % 2 ^ 64 + 2 ^ 64 = lo.toNat + c.toNat := by omega
    rw [hr, Nat.mod_eq_of_lt hhi, ← he, Nat.add_mul, Nat.add_assoc, Nat.add_assoc, ← hs]
    omega
  · rw [if_neg h, show hi + 0 = hi from BitVec.add_zero ..]
    rw [BitVec.lt_def, hr] at h
    rw [hr]
    omega

theorem uval_mulChain (a : Limbs) (w c : Limb) :
    (mulChain a w c).1.length = a.length ∧
      uval (mulChain a w c).1 + 2 ^ (64 * a.length) * (mulChain a w c).2.toNat = uval a * w.toNat + c.toNat := by
  induction a generalizing c with
  | nil => simp [mulChain, uval]
  | cons x a ih =>
    have hstep := mul_limb_step x w c
    rw [mulChain_cons]
    generalize (mul128 x w).1 + (if (mul128 x w).2 + c < (mul128 x w).2 then 1 else 0) = c' at *
    obtain ⟨h1, h2⟩ := ih c'
    refine ⟨by simp [h1], ?_⟩
    have hp : 2 ^ (64 * (x :: a).length) = 2 ^ 64 * 2 ^ (64 * a.length) := by
      rw [← Nat.pow_add]; congr 1; simp; omega
    simp only [uval, hp]
    rw [Nat.mul_assoc, Nat.add_mul, Nat.mul_assoc]
    generalize ((mul128 x w).2 + c).toNat = r at *
    generalize 2 ^ (64 * a.length) * (mulChain a w c').2.toNat = e1 at *
    generalize uval a * w.toNat = e2 at *
    omega

/-- `mul_limb`: `u64W(r) + carry*2^(64W) = u(a)*u64(w)` (43_multiply.md R161). -/
theorem mulLimb_exact {n : Nat} {a : Limbs} (ha : Canonical n a) (w : Limb) :
    uval (mulLimb a w).1 + 2 ^ (64 * limbCount n) * (mulLimb a w).2.toNat = uval a * w.toNat := by
  have h := (uval_mulChain a w 0).2
  rw [ha.1] at h
  exact h

/-- The overflow limb: `floor(u(a) * u64(w) / 2^(64W))` (43_multiply.md R162). -/
theorem mulLimb_overflow {n : Nat} {a : Limbs} (ha : Canonical n a) (w : Limb) :
    (mulLimb a w).2.toNat = uval a * w.toNat / 2 ^ (64 * limbCount n) := by
  rw [← mulLimb_exact ha w, Nat.add_mul_div_left _ _ (Nat.two_pow_pos _), Nat.div_eq_of_lt, Nat.zero_add]
  have := uval_lt (mulLimb a w).1
  rwa [show (mulLimb a w).1.length = limbCount n from (uval_mulChain a w 0).1.trans ha.1] at this

theorem uval_clearPad_mulLimb {n : Nat} {a : Limbs} (ha : Canonical n a) (w : Limb) :
    uval (clearPad n (mulLimb a w).1) = uval a * w.toNat % 2 ^ n := by
  rw [uval_clearPad, ← mulLimb_exact ha w]
  obtain ⟨m, hm⟩ := Nat.pow_dvd_pow 2 (le_storage n)
  rw [hm, Nat.mul_assoc, Nat.add_mul_mod_self_left]

/-- The product's limbs after `clear_pad`: `bv_N(u(a) * u64(w))` (43_multiply.md R162). -/
theorem clearPad_mulLimb_eq {n : Nat} {a : Limbs} (ha : Canonical n a) (w : Limb) :
    clearPad n (mulLimb a w).1 = bvN n ((uval a * w.toNat : Nat) : Int) := by
  apply (canonical_clearPad ..).eq_bvN
  rw [uval_clearPad_mulLimb ha]
  push_cast
  rw [Int.emod_emod]

theorem mulAcc_spec {n : Nat} {a : Limbs} (ha : Canonical n a) (bs : Limbs) (i : Nat) (acc : Limbs) (hacc : Canonical n acc) :
    Canonical n (mulAcc n a bs i acc) ∧
      uval (mulAcc n a bs i acc) % 2 ^ n = (uval acc + uval a * uval bs * 2 ^ (64 * i)) % 2 ^ n := by
  induction bs generalizing i acc with
  | nil => exact ⟨hacc, by simp [mulAcc, uval]⟩
  | cons b bs ih =>
    obtain ⟨h1, h2⟩ := ih (i + 1) _ (canonical_addLimbs n acc (shlLimbs n (clearPad n (mulLimb a b).1) (64 * i)))
    refine ⟨h1, ?_⟩
    rw [mulAcc, h2, addLimbs_eq hacc (canonical_shlLimbs ..)]
    have : (uval acc : Int) + uval (shlLimbs n (clearPad n (mulLimb a b).1) (64 * i))
        = ((uval acc + uval (shlLimbs n (clearPad n (mulLimb a b).1) (64 * i)) : Nat) : Int) := by push_cast; rfl
    rw [this, uval_bvN_nat, uval_shlLimbs, uval_clearPad_mulLimb ha, uval]
    have e : uval acc + uval a * (b.toNat + 2 ^ 64 * uval bs) * 2 ^ (64 * i)
        = (uval acc + uval a * b.toNat * 2 ^ (64 * i)) + uval a * uval bs * 2 ^ (64 * (i + 1)) := by
      rw [show 64 * (i + 1) = 64 + 64 * i by omega, Nat.pow_add]; ring
    rw [e]
    simp [Nat.add_mod, Nat.mul_mod]

theorem canonical_mulWide (n : Nat) {a : Limbs} (ha : Canonical n a) (b : Limbs) : Canonical n (mulWide n a b) :=
  (mulAcc_spec ha b 0 _ (canonical_bvN n 0)).1

/-- `mul_wide`: `acc[N-1:0] = bv_N(u(a) * u(b))` (43_multiply.md R163). -/
theorem mulWide_eq {n : Nat} {a : Limbs} (ha : Canonical n a) (b : Limbs) : mulWide n a b = bvN n (uval a * uval b) := by
  apply (canonical_mulWide n ha b).eq_bvN
  have h := (mulAcc_spec ha b 0 _ (canonical_bvN n 0)).2
  rw [show uval (bvN n 0) = 0 by simp [uval_bvN]] at h
  simp only [Nat.mul_zero, Nat.pow_zero, Nat.mul_one, Nat.zero_add] at h
  exact_mod_cast h

/-- The product of two N-bit vectors given by any integers they represent. -/
theorem mulWide_bvN (n : Nat) (k l : Int) : mulWide n (bvN n k) (bvN n l) = bvN n (k * l) := by
  rw [mulWide_eq (canonical_bvN n k), uval_bvN, uval_bvN]
  apply bvN_congr
  rw [toNat_emod_pow, toNat_emod_pow, ← Int.mul_emod]

theorem negLimbs_bvN (n : Nat) (k : Int) : negLimbs n (bvN n k) = bvN n (-k) := by
  rw [negLimbs_eq (canonical_bvN n k), uval_bvN, toNat_emod_pow]
  exact bvN_congr (Int.ModEq.neg (Int.mod_modEq k _))

/-- `signed_mul` gives the same N bits as `mul_wide` (43_multiply.md R166). -/
theorem signedMul_eq_mulWide {n : Nat} {a b : Limbs} (ha : Canonical n a) (hb : Canonical n b) :
    signedMul n a b = mulWide n a b := by
  unfold signedMul
  cases signBit n a <;> cases signBit n b <;>
    simp only [Bool.false_eq_true, ↓reduceIte, Bool.xor_false, Bool.xor_true, Bool.not_false, Bool.not_true] <;>
    rw [ha.eq_bvN_uval, hb.eq_bvN_uval] <;> simp only [negLimbs_bvN, mulWide_bvN] <;> simp

/-- `bv_N(s(a) * s(b))` (43_multiply.md R164). -/
theorem mulWide_eq_signed {n : Nat} {a b : Limbs} (ha : Canonical n a) (hb : Canonical n b) :
    mulWide n a b = bvN n (sval n a * sval n b) := by
  conv_lhs => rw [ha.eq_bvN_sval, hb.eq_bvN_sval]
  rw [mulWide_bvN]

end Sys2Proof.Machine
end

