-- ==== Sys2Proof/Laws/Divider.lean ====
section
/-! SUPPORT. The divider: the leading-zero count and the long division compute what their rules state (44_divide.md R180, R181;
47_bitwise.md R244). -/

namespace Sys2Proof.Machine

/-! ### Leading zeros -/

theorem leadingZeros_le (a : Limbs) (p : Nat) : leadingZeros a p ≤ p := by
  induction p with
  | zero => simp [leadingZeros]
  | succ p ih => unfold leadingZeros; split <;> omega

theorem bitAt_of_leadingZeros {a : Limbs} {p q : Nat} (h1 : p - leadingZeros a p ≤ q) (h2 : q < p) : bitAt a q = false := by
  induction p with
  | zero => omega
  | succ p ih =>
    unfold leadingZeros at h1
    split at h1
    · omega
    · rename_i h
      rcases Nat.lt_succ_iff_lt_or_eq.1 h2 with h3 | rfl
      · exact ih (by omega) h3
      · simpa using h

theorem bitAt_leadingZeros {a : Limbs} {p : Nat} (h : leadingZeros a p < p) : bitAt a (p - leadingZeros a p - 1) = true := by
  induction p with
  | zero => omega
  | succ p ih =>
    unfold leadingZeros at h ⊢
    split
    · rename_i hb
      simpa using hb
    · rename_i hb
      rw [if_neg hb] at h
      have := ih (by omega)
      rwa [show p + 1 - (leadingZeros a p + 1) - 1 = p - leadingZeros a p - 1 by omega]

/-- `u(a) < 2^(N - clz_N(a))` (44_divide.md R180). -/
theorem uval_lt_clz {n : Nat} {a : Limbs} (h : Canonical n a) : uval a < 2 ^ (n - clzN n a) := by
  apply Nat.lt_pow_two_of_testBit
  intro p hp
  rw [testBit_uval]
  by_cases hn : p < n
  · exact bitAt_of_leadingZeros hp hn
  · exact h.bitAt_of_le (by omega)

theorem clzN_le (n : Nat) (a : Limbs) : clzN n a ≤ n := leadingZeros_le a n

theorem uval_ge_clz {n : Nat} {a : Limbs} (h : uval a ≠ 0) (hc : Canonical n a) :
    clzN n a < n ∧ 2 ^ (n - clzN n a - 1) ≤ uval a := by
  have hlt : clzN n a < n := by
    rcases Nat.lt_or_ge (clzN n a) n with h' | h'
    · exact h'
    · have := uval_lt_clz hc
      rw [show n - clzN n a = 0 by omega] at this
      omega
  refine ⟨hlt, Nat.ge_two_pow_of_testBit ?_⟩
  rw [testBit_uval]
  exact bitAt_leadingZeros hlt

/-- `clz_N(a) = N - bitlength(u(a))` (47_bitwise.md R244). -/
theorem clzN_eq {n : Nat} {a : Limbs} (h : Canonical n a) : clzN n a = n - Nat.size (uval a) := by
  have hle := clzN_le n a
  by_cases h0 : uval a = 0
  · have : clzN n a = n := by
      rcases Nat.lt_or_ge (clzN n a) n with h' | h'
      · have := bitAt_leadingZeros h'
        rw [← testBit_uval, h0] at this
        simp at this
      · omega
    rw [this, h0]
    simp
  · obtain ⟨h1, h2⟩ := uval_ge_clz h0 h
    have h3 : Nat.size (uval a) ≤ n - clzN n a := Nat.size_le.2 (uval_lt_clz h)
    have h4 : n - clzN n a - 1 < Nat.size (uval a) := Nat.lt_size.2 h2
    omega

/-! ### Setting a bit -/

@[simp] theorem length_setBit (st : Limbs) (p : Nat) : (setBit st p).length = st.length := by simp [setBit]

theorem bitAt_setBit {st : Limbs} {p : Nat} (hp : p < 64 * st.length) (q : Nat) :
    bitAt (setBit st p) q = (decide (q = p) || bitAt st q) := by
  have hj : p / 64 < st.length := by omega
  have hb : q % 64 < 64 := Nat.mod_lt _ (by decide)
  rw [bitAt_eq, bitAt_eq]
  unfold setBit wordIndex bitIndex
  by_cases h : q / 64 = p / 64
  · have : limbAt (st.set (p / 64) (limbAt st (p / 64) ||| BitVec.twoPow 64 (p % 64))) (q / 64)
        = limbAt st (p / 64) ||| BitVec.twoPow 64 (p % 64) := by
      simp [limbAt, h, hj]
    rw [this, BitVec.getLsbD_or, h, Bool.or_comm, BitVec.getLsbD_twoPow]
    congr 1
    have h64 : p % 64 < 64 := Nat.mod_lt _ (by decide)
    rw [Bool.eq_iff_iff]
    simp only [h64, decide_true, Bool.true_and, decide_eq_true_eq]
    omega
  · have : limbAt (st.set (p / 64) (limbAt st (p / 64) ||| BitVec.twoPow 64 (p % 64))) (q / 64) = limbAt st (q / 64) := by
      simp [limbAt, Ne.symm h]
    rw [this]
    have : q ≠ p := by rintro rfl; exact h rfl
    simp [this]

theorem testBit_add_two_pow {u p : Nat} (h : u.testBit p = false) (q : Nat) :
    (u + 2 ^ p).testBit q = (decide (q = p) || u.testBit q) := by
  have hm : u % 2 ^ p < 2 ^ p := Nat.mod_lt _ (Nat.two_pow_pos p)
  have e1 : u = 2 ^ p * (u / 2 ^ p) + u % 2 ^ p := (Nat.div_add_mod u (2 ^ p)).symm
  have e2 : u + 2 ^ p = 2 ^ p * (u / 2 ^ p + 1) + u % 2 ^ p := by rw [Nat.mul_add]; omega
  have he : u / 2 ^ p % 2 = 0 := by
    rw [Nat.testBit_eq_decide_div_mod_eq, decide_eq_false_iff_not] at h
    omega
  rw [e2, Nat.testBit_two_pow_mul_add _ hm]
  conv_rhs => rw [e1, Nat.testBit_two_pow_mul_add _ hm]
  by_cases hq : q < p
  · have : q ≠ p := by omega
    simp [hq, this]
  · simp only [hq, ↓reduceIte]
    obtain ⟨i, rfl⟩ : ∃ i, q = p + i := ⟨q - p, by omega⟩
    rw [Nat.add_sub_cancel_left]
    cases i with
    | zero => simp [Nat.testBit_zero]; omega
    | succ i =>
      rw [Nat.testBit_succ, Nat.testBit_succ, show (u / 2 ^ p + 1) / 2 = u / 2 ^ p / 2 by omega]
      simp

theorem uval_setBit {st : Limbs} {p : Nat} (hp : p < 64 * st.length) (h : bitAt st p = false) :
    uval (setBit st p) = uval st + 2 ^ p := by
  apply Nat.eq_of_testBit_eq
  intro q
  rw [testBit_uval, bitAt_setBit hp, testBit_add_two_pow (by rwa [testBit_uval]), testBit_uval]

theorem canonical_setBit {n : Nat} {st : Limbs} (h : Canonical n st) {p : Nat} (hp : p < n) : Canonical n (setBit st p) := by
  refine ⟨(length_setBit ..).trans h.1, Nat.lt_pow_two_of_testBit _ fun q hq => ?_⟩
  have hle := le_storage n
  have hq' : q ≠ p := by omega
  rw [testBit_uval, bitAt_setBit (by rw [h.1]; omega), h.bitAt_of_le hq]
  simp [hq']

/-! ### Long division -/

/-- The loop of step 5 (44_divide.md R180): with the working divisor at D * 2^(i-1), the remainder below D * 2^i and the
quotient's bits below i still 0, it adds r div D to the quotient and leaves r mod D. -/
theorem divLoop_spec {n D : Nat} (hD : 0 < D) (i : Nat) (dv q r : Limbs) (hdv : Canonical n dv) (hq : Canonical n q)
    (hr : Canonical n r) (hi : i ≤ n) (h1 : 0 < i → uval dv = D * 2 ^ (i - 1)) (h2 : uval r < D * 2 ^ i)
    (h3 : ∀ p, p < i → bitAt q p = false) :
    Canonical n (divLoop n i dv q r).1 ∧ Canonical n (divLoop n i dv q r).2 ∧
      uval (divLoop n i dv q r).1 = uval q + uval r / D ∧ uval (divLoop n i dv q r).2 = uval r % D := by
  induction i generalizing dv q r with
  | zero =>
    simp only [Nat.pow_zero, Nat.mul_one] at h2
    exact ⟨hq, hr, by simp [divLoop, Nat.div_eq_of_lt h2], by simp [divLoop, Nat.mod_eq_of_lt h2]⟩
  | succ i ih =>
    have hle := le_storage n
    have hdv1 : uval dv = D * 2 ^ i := by simpa using h1 (by omega)
    have hdv' : Canonical n (shrLimbs n dv 1 false) := canonical_shrLimbs ..
    have hnext : 0 < i → uval (shrLimbs n dv 1 false) = D * 2 ^ (i - 1) := by
      intro hpos
      obtain ⟨m, rfl⟩ : ∃ m, i = m + 1 := ⟨i - 1, by omega⟩
      rw [uval_shrLimbs_zero hdv, hdv1, Nat.pow_succ, ← Nat.mul_assoc]
      simp
    have hp : D * 2 ^ (i + 1) = D * 2 ^ i + D * 2 ^ i := by rw [Nat.pow_succ]; ring
    simp only [divLoop]
    split
    · rename_i hge
      have hsub : uval (subLimbs n r dv) = uval r - D * 2 ^ i := by
        rw [subLimbs_eq hr hdv, hdv1]
        rw [hdv1] at hge
        have : (uval r : Int) - (D * 2 ^ i : Nat) = ((uval r - D * 2 ^ i : Nat) : Int) := by omega
        rw [this, uval_bvN_nat, Nat.mod_eq_of_lt]
        have := hr.2
        omega
      have hbit := h3 i (by omega)
      have hql : i < 64 * q.length := by rw [hq.1]; omega
      have hset : uval (setBit q i) = uval q + 2 ^ i := uval_setBit hql hbit
      obtain ⟨c1, c2, e1, e2⟩ := ih _ _ _ hdv' (canonical_setBit hq (by omega : i < n)) (canonical_subLimbs n r dv) (by omega) hnext
        (by rw [hsub]; omega)
        (fun p hp => by
          rw [bitAt_setBit hql, h3 p (by omega)]
          have : p ≠ i := by omega
          simp [this])
      refine ⟨c1, c2, ?_, ?_⟩
      · rw [e1, hset, hsub, Nat.add_assoc]
        congr 1
        rw [hdv1] at hge
        obtain ⟨m, hm⟩ : ∃ m, uval r = m + D * 2 ^ i := ⟨uval r - D * 2 ^ i, by omega⟩
        rw [hm, Nat.add_sub_cancel, Nat.add_mul_div_left _ _ hD, Nat.add_comm]
      · rw [e2, hsub]
        rw [hdv1] at hge
        obtain ⟨m, hm⟩ : ∃ m, uval r = m + D * 2 ^ i := ⟨uval r - D * 2 ^ i, by omega⟩
        rw [hm, Nat.add_sub_cancel, Nat.add_mul_mod_self_left]
    · rename_i hlt
      exact ih _ _ _ hdv' hq hr (by omega) hnext (by omega) (fun p hp => h3 p (by omega))

/-- `udivmod`: `u(q) = u(n) div u(d)` and `u(r) = u(n) mod u(d)` (44_divide.md R180). -/
theorem udivmod_eq {n : Nat} {a d : Limbs} (ha : Canonical n a) (hd : Canonical n d) (h0 : uval d ≠ 0) :
    udivmod n a d = (bvN n ((uval a / uval d : Nat) : Int), bvN n ((uval a % uval d : Nat) : Int)) := by
  unfold udivmod
  split
  · rename_i h
    rw [Nat.div_eq_of_lt h, Nat.mod_eq_of_lt h]
    congr 1
    exact ha.eq_bvN_uval
  · split
    · rename_i h
      rw [h, Nat.div_self (by omega), Nat.mod_self]
      rfl
    · rename_i h1 h2
      have hlt : uval d < uval a := by omega
      obtain ⟨hcd, hgd⟩ := uval_ge_clz h0 hd
      obtain ⟨hca, hga⟩ := uval_ge_clz (by omega : uval a ≠ 0) ha
      have hld := uval_lt_clz hd
      have hla := uval_lt_clz ha
      have hcc : clzN n a ≤ clzN n d := by
        by_contra hcon
        have : 2 ^ (n - clzN n a) ≤ 2 ^ (n - clzN n d - 1) := Nat.pow_le_pow_right (by decide) (by omega)
        omega
      generalize hk : clzN n d - clzN n a = k
      have hshl : uval (shlLimbs n d k) = uval d * 2 ^ k := by
        rw [uval_shlLimbs, Nat.mod_eq_of_lt]
        calc uval d * 2 ^ k < 2 ^ (n - clzN n d) * 2 ^ k := Nat.mul_lt_mul_of_pos_right hld (Nat.two_pow_pos k)
          _ = 2 ^ (n - clzN n d + k) := (Nat.pow_add ..).symm
          _ ≤ 2 ^ n := Nat.pow_le_pow_right (by decide) (by omega)
      have htop : uval a < uval d * 2 ^ (k + 1) := by
        calc uval a < 2 ^ (n - clzN n a) := hla
          _ = 2 ^ (n - clzN n d - 1) * 2 ^ (k + 1) := by rw [← Nat.pow_add]; congr 1; omega
          _ ≤ uval d * 2 ^ (k + 1) := Nat.mul_le_mul_right _ hgd
      have hz : uval (bvN n 0) = 0 := by simp [uval_bvN]
      obtain ⟨c1, c2, e1, e2⟩ := divLoop_spec (n := n) (by omega : 0 < uval d) (k + 1) (shlLimbs n d k) (bvN n 0) a
        (canonical_shlLimbs n d k) (canonical_bvN n 0) ha (by omega) (fun _ => by rw [hshl]; rfl) htop
        (fun p _ => by rw [← testBit_uval, hz]; simp)
      rw [hz, Nat.zero_add] at e1
      exact Prod.ext (by rw [← e1]; exact c1.eq_bvN_uval) (by rw [← e2]; exact c2.eq_bvN_uval)

/-! ### Signed division -/

/-- The magnitude `NEG` gives a negative operand, and the operand itself otherwise; min keeps its true magnitude
(44_divide.md R181). -/
theorem uval_magnitude {n : Nat} (hn : 0 < n) {a : Limbs} (ha : Canonical n a) :
    uval (if signBit n a then negLimbs n a else a) = (sval n a).natAbs := by
  have hs := signBit_eq_decide hn ha
  have hlt := ha.2
  have hp : ((2 ^ n : Nat) : Int) = 2 ^ n := by push_cast; rfl
  cases hb : signBit n a
  · simp only [Bool.false_eq_true, ↓reduceIte, sval, hb]
    omega
  · rw [hb] at hs
    have hge : 2 ^ (n - 1) ≤ uval a := of_decide_eq_true hs.symm
    have hpos := Nat.two_pow_pos (n - 1)
    simp only [↓reduceIte, sval, hb, mul_one]
    rw [negLimbs_eq ha, uval_bvN, ← hp]
    have : (-(uval a : Int)) % ((2 ^ n : Nat) : Int) = ((2 ^ n - uval a : Nat) : Int) := by
      rw [show (-(uval a : Int)) = ((2 ^ n - uval a : Nat) : Int) + ((2 ^ n : Nat) : Int) * (-1) by omega,
        Int.add_mul_emod_self_left]
      exact Int.emod_eq_of_lt (by omega) (by omega)
    rw [this]
    omega

theorem canonical_magnitude {n : Nat} {a : Limbs} (ha : Canonical n a) (b : Bool) :
    Canonical n (if b then negLimbs n a else a) := by
  cases b
  · exact ha
  · exact canonical_negLimbs n a

theorem sval_eq_magnitude {n : Nat} (hn : 0 < n) {a : Limbs} (ha : Canonical n a) :
    sval n a = if signBit n a then -((sval n a).natAbs : Int) else ((sval n a).natAbs : Int) := by
  have := sval_neg_iff hn ha
  cases hb : signBit n a <;> rw [hb] at this
  · have := of_decide_eq_false this.symm
    simp only [Bool.false_eq_true, ↓reduceIte]
    omega
  · have := of_decide_eq_true this.symm
    simp only [↓reduceIte]
    omega

theorem sval_eq_zero_iff {n : Nat} {a : Limbs} (ha : Canonical n a) : sval n a = 0 ↔ uval a = 0 := by
  have hlt := ha.2
  have hp : ((2 ^ n : Nat) : Int) = 2 ^ n := by push_cast; rfl
  have h1 : sval n a % 2 ^ n = (uval a : Int) % 2 ^ n := sval_emod n a
  constructor
  · intro h
    rw [h, ← hp] at h1
    have : (uval a : Int) % ((2 ^ n : Nat) : Int) = uval a := Int.emod_eq_of_lt (by omega) (by omega)
    rw [this] at h1
    simp at h1
    omega
  · intro h
    unfold sval
    have : signBit n a = false := by
      unfold signBit
      rw [← testBit_uval, h]
      simp
    simp [h, this]

/-- `sdivmod`: `q = bv_N(tdiv(s(n), s(d)))` and `r = bv_N(trem(s(n), s(d)))` (44_divide.md R181). -/
theorem sdivmod_eq {n : Nat} (hn : 0 < n) {a d : Limbs} (ha : Canonical n a) (hd : Canonical n d) (h0 : uval d ≠ 0) :
    sdivmod n a d = (bvN n ((sval n a).tdiv (sval n d)), bvN n ((sval n a).tmod (sval n d))) := by
  have hd0 : sval n d ≠ 0 := fun h => h0 ((sval_eq_zero_iff hd).1 h)
  have ea := sval_eq_magnitude hn ha
  have ed := sval_eq_magnitude hn hd
  unfold sdivmod
  simp only
  rw [udivmod_eq (canonical_magnitude ha _) (canonical_magnitude hd _) (by rw [uval_magnitude hn hd]; omega),
    uval_magnitude hn ha, uval_magnitude hn hd]
  generalize (sval n a).natAbs = A at *
  generalize (sval n d).natAbs = B at *
  have em : (A : Int).tmod B = (A : Int) % B := Int.tmod_eq_emod_of_nonneg (by omega)
  rw [ea, ed]
  cases signBit n a <;> cases signBit n d <;>
    simp [negLimbs_bvN, Int.neg_tdiv, Int.tdiv_neg, Int.neg_tmod, Int.tmod_neg, em]

end Sys2Proof.Machine
end

