-- ==== Sys2Proof/Laws/Encoding.lean ====
section
/-! SUPPORT. CMD and its fields: laying the fields out and reading them back are inverse (30_encoding.md R81), a row of the opcode
map selects a CMD field by field (R87), and the OR form of a CMD word that each command's "Encoding" line gives. -/

namespace Sys2Proof

@[simp] theorem Reg.ofBits_bits (r : Reg) : Reg.ofBits r.bits = r := by cases r <;> rfl

@[simp] theorem Reg.bits_ofBits (b : BitVec 3) : (Reg.ofBits b).bits = b := by revert b; decide

theorem Reg.bits_inj {a b : Reg} : a.bits = b.bits ↔ a = b :=
  ⟨fun h => by rw [← Reg.ofBits_bits a, h, Reg.ofBits_bits], fun h => h ▸ rfl⟩

theorem Fields.ofWord_toWord (f : Fields) : Fields.ofWord f.toWord = f := by
  obtain ⟨op, s, x, rd, rs1, rs2, f3, j⟩ := f
  simp only [Fields.ofWord, Fields.toWord, Fields.mk.injEq]
  refine ⟨?_, ?_, ?_, ?_, ?_, ?_, ?_, ?_⟩ <;>
  · apply BitVec.eq_of_getLsbD_eq
    intro i hi
    simp only [BitVec.getLsbD_extractLsb', BitVec.getLsbD_append, hi, decide_true, Bool.true_and]
    repeat' split
    all_goals first
      | omega
      | (congr 1; omega)

theorem Fields.toWord_ofWord (w : CmdWord) : (Fields.ofWord w).toWord = w := by
  apply BitVec.eq_of_getLsbD_eq
  intro i hi
  simp only [Fields.ofWord, Fields.toWord, BitVec.getLsbD_extractLsb', BitVec.getLsbD_append]
  repeat' split
  all_goals
    rw [decide_eq_true (by omega), Bool.true_and]
    congr 1
    omega

/-- Two CMD words with the same fields are the same word. -/
theorem Fields.ofWord_inj {v w : CmdWord} (h : Fields.ofWord v = Fields.ofWord w) : v = w := by
  rw [← Fields.toWord_ofWord v, h, Fields.toWord_ofWord]

/-- Field by field AND. -/
def Fields.and (f g : Fields) : Fields :=
  ⟨f.op &&& g.op, f.s &&& g.s, f.x &&& g.x, f.rd &&& g.rd, f.rs1 &&& g.rs1, f.rs2 &&& g.rs2, f.f3 &&& g.f3, f.j &&& g.j⟩

theorem Fields.ofWord_and (v w : CmdWord) : Fields.ofWord (v &&& w) = (Fields.ofWord v).and (Fields.ofWord w) := by
  simp only [Fields.ofWord, Fields.and, BitVec.extractLsb'_and]

/-- A row selects a CMD when the fields, masked by the mask's fields, are the pattern's (30_encoding.md R87). -/
theorem Row.selects_iff (r : Row) (w : CmdWord) :
    r.selects w = true ↔ (Fields.ofWord w).and (Fields.ofWord r.mask) = Fields.ofWord r.pattern := by
  unfold Row.selects
  rw [beq_iff_eq, ← Fields.ofWord_and]
  exact ⟨fun h => by rw [h], Fields.ofWord_inj⟩

@[simp] theorem Fields.ofWord_encode (i : Instr) : Fields.ofWord (encode i) = i.fields := Fields.ofWord_toWord _

/-- CMD as the OR of its fields at their positions (30_encoding.md R81), the form of every rule's "Encoding" line. -/
theorem Fields.toWord_eq_or (f : Fields) :
    f.toWord = f.op.setWidth 32 <<< 26 ||| f.s.setWidth 32 <<< 25 ||| f.x.setWidth 32 <<< 24 ||| f.rd.setWidth 32 <<< 21
      ||| f.rs1.setWidth 32 <<< 18 ||| f.rs2.setWidth 32 <<< 15 ||| f.f3.setWidth 32 <<< 12 ||| f.j.setWidth 32 := by
  obtain ⟨op, s, x, rd, rs1, rs2, f3, j⟩ := f
  apply BitVec.eq_of_getLsbD_eq
  intro i hi
  simp only [Fields.toWord, BitVec.getLsbD_or, BitVec.getLsbD_shiftLeft, BitVec.getLsbD_setWidth, BitVec.getLsbD_append]
  interval_cases i <;> simp [BitVec.getLsbD_of_ge]

/-! ### A word that selects a row has no bit outside the row's fields (30_encoding.md R84) -/

theorem and_mask6 (x : BitVec 6) : x &&& 63#6 = x := by revert x; decide
theorem and_mask1 (x : BitVec 1) : x &&& 1#1 = x := by revert x; decide
theorem and_mask3 (x : BitVec 3) : x &&& 7#3 = x := by revert x; decide
theorem and_mask12 (x : BitVec 12) : x &&& 4095#12 = x := by
  rw [show 4095#12 = BitVec.allOnes 12 by decide, BitVec.and_allOnes]

theorem Row.fields_build {r : Row} (hr : r ∈ opcodeMap) {w : CmdWord} (h : r.selects w = true) :
    (r.build (Fields.ofWord w)).fields = Fields.ofWord w := by
  rw [Row.selects_iff] at h
  generalize Fields.ofWord w = f at *
  obtain ⟨op, s, x, rd, rs1, rs2, f3, j⟩ := f
  simp only [opcodeMap, storageRows, adderRows, multiplierRows, dividerRows, shifterRows, comparatorRows, bitwiseRows,
    List.cons_append, List.nil_append, List.mem_cons, List.not_mem_nil, or_false] at hr
  rcases hr with h1 | h1 | h1 | h1 | h1 | h1 | h1 | h1 | h1 | h1 | h1 | h1 | h1 | h1 | h1 | h1 | h1 | h1 | h1 | h1 | h1 | h1 | h1 | h1 | h1 | h1 | h1 | h1 | h1 | h1 | h1 | h1 | h1 | h1 | h1 | h1 | h1 | h1 | h1 | h1 | h1 | h1 | h1 | h1 | h1 | h1 | h1 | h1 | h1 <;>
    (subst h1
     simp [Fields.and, Fields.ofWord, and_mask6, and_mask1, and_mask3, and_mask12] at h
     simp_all [Instr.fields])

end Sys2Proof
end

