-- ==== Sys2Proof/Laws/PerInstr.lean ====
section
/-! SUPPORT. Facts about every command as syntax, one lemma a constructor. Family `Encodes`: the command's CMD word selects a row of
the opcode map with the command's mnemonic, and that row builds the command back from the word's fields (30_encoding.md R87). -/

namespace Sys2Proof.Laws

/-- The command's word selects its own row (30_encoding.md R87). -/
def Encodes.Statement (i : Instr) : Prop :=
  ∃ r ∈ opcodeMap, r.selects (encode i) = true ∧ r.mnemonic = i.mnemonic ∧ r.build (Fields.ofWord (encode i)) = i

theorem Encodes.of_row {i : Instr} (n : Nat) (h : n < opcodeMap.length)
    (hs : i.fields.and (Fields.ofWord opcodeMap[n].mask) = Fields.ofWord opcodeMap[n].pattern)
    (hm : opcodeMap[n].mnemonic = i.mnemonic) (hb : opcodeMap[n].build i.fields = i) : Encodes.Statement i :=
  ⟨opcodeMap[n], List.getElem_mem h, (Row.selects_iff _ _).2 (by rw [Fields.ofWord_encode]; exact hs), hm,
    by rw [Fields.ofWord_encode]; exact hb⟩

theorem Encodes.ldU (rd : Reg) : Encodes.Statement (.ldU rd) :=
  Encodes.of_row 0 (by decide)
    (by simp [Instr.fields, Fields.and, Fields.ofWord, opcodeMap, storageRows, adderRows, multiplierRows, dividerRows, shifterRows, comparatorRows, bitwiseRows]) rfl
    (by simp [Instr.fields, opcodeMap, storageRows, adderRows, multiplierRows, dividerRows, shifterRows, comparatorRows, bitwiseRows])

theorem Encodes.ldS (rd : Reg) : Encodes.Statement (.ldS rd) :=
  Encodes.of_row 1 (by decide)
    (by simp [Instr.fields, Fields.and, Fields.ofWord, opcodeMap, storageRows, adderRows, multiplierRows, dividerRows, shifterRows, comparatorRows, bitwiseRows]) rfl
    (by simp [Instr.fields, opcodeMap, storageRows, adderRows, multiplierRows, dividerRows, shifterRows, comparatorRows, bitwiseRows])

theorem Encodes.mov (rd rs1 : Reg) : Encodes.Statement (.mov rd rs1) :=
  Encodes.of_row 2 (by decide)
    (by simp [Instr.fields, Fields.and, Fields.ofWord, opcodeMap, storageRows, adderRows, multiplierRows, dividerRows, shifterRows, comparatorRows, bitwiseRows]) rfl
    (by simp [Instr.fields, opcodeMap, storageRows, adderRows, multiplierRows, dividerRows, shifterRows, comparatorRows, bitwiseRows])

theorem Encodes.wrlimb (rd : Reg) (j : BitVec 12) : Encodes.Statement (.wrlimb rd j) :=
  Encodes.of_row 3 (by decide)
    (by simp [Instr.fields, Fields.and, Fields.ofWord, opcodeMap, storageRows, adderRows, multiplierRows, dividerRows, shifterRows, comparatorRows, bitwiseRows]) rfl
    (by simp [Instr.fields, opcodeMap, storageRows, adderRows, multiplierRows, dividerRows, shifterRows, comparatorRows, bitwiseRows])

theorem Encodes.rdlimb (rs1 : Reg) (j : BitVec 12) : Encodes.Statement (.rdlimb rs1 j) :=
  Encodes.of_row 4 (by decide)
    (by simp [Instr.fields, Fields.and, Fields.ofWord, opcodeMap, storageRows, adderRows, multiplierRows, dividerRows, shifterRows, comparatorRows, bitwiseRows]) rfl
    (by simp [Instr.fields, opcodeMap, storageRows, adderRows, multiplierRows, dividerRows, shifterRows, comparatorRows, bitwiseRows])

theorem Encodes.getbit (rs1 : Reg) : Encodes.Statement (.getbit rs1) :=
  Encodes.of_row 5 (by decide)
    (by simp [Instr.fields, Fields.and, Fields.ofWord, opcodeMap, storageRows, adderRows, multiplierRows, dividerRows, shifterRows, comparatorRows, bitwiseRows]) rfl
    (by simp [Instr.fields, opcodeMap, storageRows, adderRows, multiplierRows, dividerRows, shifterRows, comparatorRows, bitwiseRows])

theorem Encodes.setbit (rd rs1 : Reg) : Encodes.Statement (.setbit rd rs1) :=
  Encodes.of_row 6 (by decide)
    (by simp [Instr.fields, Fields.and, Fields.ofWord, opcodeMap, storageRows, adderRows, multiplierRows, dividerRows, shifterRows, comparatorRows, bitwiseRows]) rfl
    (by simp [Instr.fields, opcodeMap, storageRows, adderRows, multiplierRows, dividerRows, shifterRows, comparatorRows, bitwiseRows])

theorem Encodes.bitaddr : Encodes.Statement (.bitaddr) :=
  Encodes.of_row 7 (by decide)
    (by simp [Instr.fields, Fields.and, Fields.ofWord, opcodeMap, storageRows, adderRows, multiplierRows, dividerRows, shifterRows, comparatorRows, bitwiseRows]) rfl
    (by simp [Instr.fields, opcodeMap, storageRows, adderRows, multiplierRows, dividerRows, shifterRows, comparatorRows, bitwiseRows])

theorem Encodes.add (rd rs1 rs2 : Reg) : Encodes.Statement (.add rd rs1 rs2) :=
  Encodes.of_row 8 (by decide)
    (by simp [Instr.fields, Fields.and, Fields.ofWord, opcodeMap, storageRows, adderRows, multiplierRows, dividerRows, shifterRows, comparatorRows, bitwiseRows]) rfl
    (by simp [Instr.fields, opcodeMap, storageRows, adderRows, multiplierRows, dividerRows, shifterRows, comparatorRows, bitwiseRows])

theorem Encodes.addiU (rd rs1 : Reg) : Encodes.Statement (.addiU rd rs1) :=
  Encodes.of_row 9 (by decide)
    (by simp [Instr.fields, Fields.and, Fields.ofWord, opcodeMap, storageRows, adderRows, multiplierRows, dividerRows, shifterRows, comparatorRows, bitwiseRows]) rfl
    (by simp [Instr.fields, opcodeMap, storageRows, adderRows, multiplierRows, dividerRows, shifterRows, comparatorRows, bitwiseRows])

theorem Encodes.addiS (rd rs1 : Reg) : Encodes.Statement (.addiS rd rs1) :=
  Encodes.of_row 10 (by decide)
    (by simp [Instr.fields, Fields.and, Fields.ofWord, opcodeMap, storageRows, adderRows, multiplierRows, dividerRows, shifterRows, comparatorRows, bitwiseRows]) rfl
    (by simp [Instr.fields, opcodeMap, storageRows, adderRows, multiplierRows, dividerRows, shifterRows, comparatorRows, bitwiseRows])

theorem Encodes.sub (rd rs1 rs2 : Reg) : Encodes.Statement (.sub rd rs1 rs2) :=
  Encodes.of_row 11 (by decide)
    (by simp [Instr.fields, Fields.and, Fields.ofWord, opcodeMap, storageRows, adderRows, multiplierRows, dividerRows, shifterRows, comparatorRows, bitwiseRows]) rfl
    (by simp [Instr.fields, opcodeMap, storageRows, adderRows, multiplierRows, dividerRows, shifterRows, comparatorRows, bitwiseRows])

theorem Encodes.subiU (rd rs1 : Reg) : Encodes.Statement (.subiU rd rs1) :=
  Encodes.of_row 12 (by decide)
    (by simp [Instr.fields, Fields.and, Fields.ofWord, opcodeMap, storageRows, adderRows, multiplierRows, dividerRows, shifterRows, comparatorRows, bitwiseRows]) rfl
    (by simp [Instr.fields, opcodeMap, storageRows, adderRows, multiplierRows, dividerRows, shifterRows, comparatorRows, bitwiseRows])

theorem Encodes.subiS (rd rs1 : Reg) : Encodes.Statement (.subiS rd rs1) :=
  Encodes.of_row 13 (by decide)
    (by simp [Instr.fields, Fields.and, Fields.ofWord, opcodeMap, storageRows, adderRows, multiplierRows, dividerRows, shifterRows, comparatorRows, bitwiseRows]) rfl
    (by simp [Instr.fields, opcodeMap, storageRows, adderRows, multiplierRows, dividerRows, shifterRows, comparatorRows, bitwiseRows])

theorem Encodes.neg (rd rs1 : Reg) : Encodes.Statement (.neg rd rs1) :=
  Encodes.of_row 14 (by decide)
    (by simp [Instr.fields, Fields.and, Fields.ofWord, opcodeMap, storageRows, adderRows, multiplierRows, dividerRows, shifterRows, comparatorRows, bitwiseRows]) rfl
    (by simp [Instr.fields, opcodeMap, storageRows, adderRows, multiplierRows, dividerRows, shifterRows, comparatorRows, bitwiseRows])

theorem Encodes.mul (rd rs1 rs2 : Reg) : Encodes.Statement (.mul rd rs1 rs2) :=
  Encodes.of_row 15 (by decide)
    (by simp [Instr.fields, Fields.and, Fields.ofWord, opcodeMap, storageRows, adderRows, multiplierRows, dividerRows, shifterRows, comparatorRows, bitwiseRows]) rfl
    (by simp [Instr.fields, opcodeMap, storageRows, adderRows, multiplierRows, dividerRows, shifterRows, comparatorRows, bitwiseRows])

theorem Encodes.muliU (rd rs1 : Reg) : Encodes.Statement (.muliU rd rs1) :=
  Encodes.of_row 16 (by decide)
    (by simp [Instr.fields, Fields.and, Fields.ofWord, opcodeMap, storageRows, adderRows, multiplierRows, dividerRows, shifterRows, comparatorRows, bitwiseRows]) rfl
    (by simp [Instr.fields, opcodeMap, storageRows, adderRows, multiplierRows, dividerRows, shifterRows, comparatorRows, bitwiseRows])

theorem Encodes.muliS (rd rs1 : Reg) : Encodes.Statement (.muliS rd rs1) :=
  Encodes.of_row 17 (by decide)
    (by simp [Instr.fields, Fields.and, Fields.ofWord, opcodeMap, storageRows, adderRows, multiplierRows, dividerRows, shifterRows, comparatorRows, bitwiseRows]) rfl
    (by simp [Instr.fields, opcodeMap, storageRows, adderRows, multiplierRows, dividerRows, shifterRows, comparatorRows, bitwiseRows])

theorem Encodes.mulw (rd rs1 : Reg) : Encodes.Statement (.mulw rd rs1) :=
  Encodes.of_row 18 (by decide)
    (by simp [Instr.fields, Fields.and, Fields.ofWord, opcodeMap, storageRows, adderRows, multiplierRows, dividerRows, shifterRows, comparatorRows, bitwiseRows]) rfl
    (by simp [Instr.fields, opcodeMap, storageRows, adderRows, multiplierRows, dividerRows, shifterRows, comparatorRows, bitwiseRows])

theorem Encodes.divU (rd rs1 rs2 : Reg) : Encodes.Statement (.divU rd rs1 rs2) :=
  Encodes.of_row 19 (by decide)
    (by simp [Instr.fields, Fields.and, Fields.ofWord, opcodeMap, storageRows, adderRows, multiplierRows, dividerRows, shifterRows, comparatorRows, bitwiseRows]) rfl
    (by simp [Instr.fields, opcodeMap, storageRows, adderRows, multiplierRows, dividerRows, shifterRows, comparatorRows, bitwiseRows])

theorem Encodes.divS (rd rs1 rs2 : Reg) : Encodes.Statement (.divS rd rs1 rs2) :=
  Encodes.of_row 20 (by decide)
    (by simp [Instr.fields, Fields.and, Fields.ofWord, opcodeMap, storageRows, adderRows, multiplierRows, dividerRows, shifterRows, comparatorRows, bitwiseRows]) rfl
    (by simp [Instr.fields, opcodeMap, storageRows, adderRows, multiplierRows, dividerRows, shifterRows, comparatorRows, bitwiseRows])

theorem Encodes.modU (rd rs1 rs2 : Reg) : Encodes.Statement (.modU rd rs1 rs2) :=
  Encodes.of_row 21 (by decide)
    (by simp [Instr.fields, Fields.and, Fields.ofWord, opcodeMap, storageRows, adderRows, multiplierRows, dividerRows, shifterRows, comparatorRows, bitwiseRows]) rfl
    (by simp [Instr.fields, opcodeMap, storageRows, adderRows, multiplierRows, dividerRows, shifterRows, comparatorRows, bitwiseRows])

theorem Encodes.modS (rd rs1 rs2 : Reg) : Encodes.Statement (.modS rd rs1 rs2) :=
  Encodes.of_row 22 (by decide)
    (by simp [Instr.fields, Fields.and, Fields.ofWord, opcodeMap, storageRows, adderRows, multiplierRows, dividerRows, shifterRows, comparatorRows, bitwiseRows]) rfl
    (by simp [Instr.fields, opcodeMap, storageRows, adderRows, multiplierRows, dividerRows, shifterRows, comparatorRows, bitwiseRows])

theorem Encodes.divmodU (rd rd2 rs1 rs2 : Reg) : Encodes.Statement (.divmodU rd rd2 rs1 rs2) :=
  Encodes.of_row 23 (by decide)
    (by simp [Instr.fields, Fields.and, Fields.ofWord, opcodeMap, storageRows, adderRows, multiplierRows, dividerRows, shifterRows, comparatorRows, bitwiseRows]) rfl
    (by simp [Instr.fields, opcodeMap, storageRows, adderRows, multiplierRows, dividerRows, shifterRows, comparatorRows, bitwiseRows])

theorem Encodes.divmodS (rd rd2 rs1 rs2 : Reg) : Encodes.Statement (.divmodS rd rd2 rs1 rs2) :=
  Encodes.of_row 24 (by decide)
    (by simp [Instr.fields, Fields.and, Fields.ofWord, opcodeMap, storageRows, adderRows, multiplierRows, dividerRows, shifterRows, comparatorRows, bitwiseRows]) rfl
    (by simp [Instr.fields, opcodeMap, storageRows, adderRows, multiplierRows, dividerRows, shifterRows, comparatorRows, bitwiseRows])

theorem Encodes.shl (rd rs1 : Reg) : Encodes.Statement (.shl rd rs1) :=
  Encodes.of_row 25 (by decide)
    (by simp [Instr.fields, Fields.and, Fields.ofWord, opcodeMap, storageRows, adderRows, multiplierRows, dividerRows, shifterRows, comparatorRows, bitwiseRows]) rfl
    (by simp [Instr.fields, opcodeMap, storageRows, adderRows, multiplierRows, dividerRows, shifterRows, comparatorRows, bitwiseRows])

theorem Encodes.shrU (rd rs1 : Reg) : Encodes.Statement (.shrU rd rs1) :=
  Encodes.of_row 26 (by decide)
    (by simp [Instr.fields, Fields.and, Fields.ofWord, opcodeMap, storageRows, adderRows, multiplierRows, dividerRows, shifterRows, comparatorRows, bitwiseRows]) rfl
    (by simp [Instr.fields, opcodeMap, storageRows, adderRows, multiplierRows, dividerRows, shifterRows, comparatorRows, bitwiseRows])

theorem Encodes.shrS (rd rs1 : Reg) : Encodes.Statement (.shrS rd rs1) :=
  Encodes.of_row 27 (by decide)
    (by simp [Instr.fields, Fields.and, Fields.ofWord, opcodeMap, storageRows, adderRows, multiplierRows, dividerRows, shifterRows, comparatorRows, bitwiseRows]) rfl
    (by simp [Instr.fields, opcodeMap, storageRows, adderRows, multiplierRows, dividerRows, shifterRows, comparatorRows, bitwiseRows])

theorem Encodes.cmpU (rs1 rs2 : Reg) : Encodes.Statement (.cmpU rs1 rs2) :=
  Encodes.of_row 28 (by decide)
    (by simp [Instr.fields, Fields.and, Fields.ofWord, opcodeMap, storageRows, adderRows, multiplierRows, dividerRows, shifterRows, comparatorRows, bitwiseRows]) rfl
    (by simp [Instr.fields, opcodeMap, storageRows, adderRows, multiplierRows, dividerRows, shifterRows, comparatorRows, bitwiseRows])

theorem Encodes.cmpS (rs1 rs2 : Reg) : Encodes.Statement (.cmpS rs1 rs2) :=
  Encodes.of_row 29 (by decide)
    (by simp [Instr.fields, Fields.and, Fields.ofWord, opcodeMap, storageRows, adderRows, multiplierRows, dividerRows, shifterRows, comparatorRows, bitwiseRows]) rfl
    (by simp [Instr.fields, opcodeMap, storageRows, adderRows, multiplierRows, dividerRows, shifterRows, comparatorRows, bitwiseRows])

theorem Encodes.seqU (rs1 rs2 : Reg) : Encodes.Statement (.seqU rs1 rs2) :=
  Encodes.of_row 30 (by decide)
    (by simp [Instr.fields, Fields.and, Fields.ofWord, opcodeMap, storageRows, adderRows, multiplierRows, dividerRows, shifterRows, comparatorRows, bitwiseRows]) rfl
    (by simp [Instr.fields, opcodeMap, storageRows, adderRows, multiplierRows, dividerRows, shifterRows, comparatorRows, bitwiseRows])

theorem Encodes.seqS (rs1 rs2 : Reg) : Encodes.Statement (.seqS rs1 rs2) :=
  Encodes.of_row 31 (by decide)
    (by simp [Instr.fields, Fields.and, Fields.ofWord, opcodeMap, storageRows, adderRows, multiplierRows, dividerRows, shifterRows, comparatorRows, bitwiseRows]) rfl
    (by simp [Instr.fields, opcodeMap, storageRows, adderRows, multiplierRows, dividerRows, shifterRows, comparatorRows, bitwiseRows])

theorem Encodes.sneU (rs1 rs2 : Reg) : Encodes.Statement (.sneU rs1 rs2) :=
  Encodes.of_row 32 (by decide)
    (by simp [Instr.fields, Fields.and, Fields.ofWord, opcodeMap, storageRows, adderRows, multiplierRows, dividerRows, shifterRows, comparatorRows, bitwiseRows]) rfl
    (by simp [Instr.fields, opcodeMap, storageRows, adderRows, multiplierRows, dividerRows, shifterRows, comparatorRows, bitwiseRows])

theorem Encodes.sneS (rs1 rs2 : Reg) : Encodes.Statement (.sneS rs1 rs2) :=
  Encodes.of_row 33 (by decide)
    (by simp [Instr.fields, Fields.and, Fields.ofWord, opcodeMap, storageRows, adderRows, multiplierRows, dividerRows, shifterRows, comparatorRows, bitwiseRows]) rfl
    (by simp [Instr.fields, opcodeMap, storageRows, adderRows, multiplierRows, dividerRows, shifterRows, comparatorRows, bitwiseRows])

theorem Encodes.sltU (rs1 rs2 : Reg) : Encodes.Statement (.sltU rs1 rs2) :=
  Encodes.of_row 34 (by decide)
    (by simp [Instr.fields, Fields.and, Fields.ofWord, opcodeMap, storageRows, adderRows, multiplierRows, dividerRows, shifterRows, comparatorRows, bitwiseRows]) rfl
    (by simp [Instr.fields, opcodeMap, storageRows, adderRows, multiplierRows, dividerRows, shifterRows, comparatorRows, bitwiseRows])

theorem Encodes.sltS (rs1 rs2 : Reg) : Encodes.Statement (.sltS rs1 rs2) :=
  Encodes.of_row 35 (by decide)
    (by simp [Instr.fields, Fields.and, Fields.ofWord, opcodeMap, storageRows, adderRows, multiplierRows, dividerRows, shifterRows, comparatorRows, bitwiseRows]) rfl
    (by simp [Instr.fields, opcodeMap, storageRows, adderRows, multiplierRows, dividerRows, shifterRows, comparatorRows, bitwiseRows])

theorem Encodes.sleU (rs1 rs2 : Reg) : Encodes.Statement (.sleU rs1 rs2) :=
  Encodes.of_row 36 (by decide)
    (by simp [Instr.fields, Fields.and, Fields.ofWord, opcodeMap, storageRows, adderRows, multiplierRows, dividerRows, shifterRows, comparatorRows, bitwiseRows]) rfl
    (by simp [Instr.fields, opcodeMap, storageRows, adderRows, multiplierRows, dividerRows, shifterRows, comparatorRows, bitwiseRows])

theorem Encodes.sleS (rs1 rs2 : Reg) : Encodes.Statement (.sleS rs1 rs2) :=
  Encodes.of_row 37 (by decide)
    (by simp [Instr.fields, Fields.and, Fields.ofWord, opcodeMap, storageRows, adderRows, multiplierRows, dividerRows, shifterRows, comparatorRows, bitwiseRows]) rfl
    (by simp [Instr.fields, opcodeMap, storageRows, adderRows, multiplierRows, dividerRows, shifterRows, comparatorRows, bitwiseRows])

theorem Encodes.sgtU (rs1 rs2 : Reg) : Encodes.Statement (.sgtU rs1 rs2) :=
  Encodes.of_row 38 (by decide)
    (by simp [Instr.fields, Fields.and, Fields.ofWord, opcodeMap, storageRows, adderRows, multiplierRows, dividerRows, shifterRows, comparatorRows, bitwiseRows]) rfl
    (by simp [Instr.fields, opcodeMap, storageRows, adderRows, multiplierRows, dividerRows, shifterRows, comparatorRows, bitwiseRows])

theorem Encodes.sgtS (rs1 rs2 : Reg) : Encodes.Statement (.sgtS rs1 rs2) :=
  Encodes.of_row 39 (by decide)
    (by simp [Instr.fields, Fields.and, Fields.ofWord, opcodeMap, storageRows, adderRows, multiplierRows, dividerRows, shifterRows, comparatorRows, bitwiseRows]) rfl
    (by simp [Instr.fields, opcodeMap, storageRows, adderRows, multiplierRows, dividerRows, shifterRows, comparatorRows, bitwiseRows])

theorem Encodes.sgeU (rs1 rs2 : Reg) : Encodes.Statement (.sgeU rs1 rs2) :=
  Encodes.of_row 40 (by decide)
    (by simp [Instr.fields, Fields.and, Fields.ofWord, opcodeMap, storageRows, adderRows, multiplierRows, dividerRows, shifterRows, comparatorRows, bitwiseRows]) rfl
    (by simp [Instr.fields, opcodeMap, storageRows, adderRows, multiplierRows, dividerRows, shifterRows, comparatorRows, bitwiseRows])

theorem Encodes.sgeS (rs1 rs2 : Reg) : Encodes.Statement (.sgeS rs1 rs2) :=
  Encodes.of_row 41 (by decide)
    (by simp [Instr.fields, Fields.and, Fields.ofWord, opcodeMap, storageRows, adderRows, multiplierRows, dividerRows, shifterRows, comparatorRows, bitwiseRows]) rfl
    (by simp [Instr.fields, opcodeMap, storageRows, adderRows, multiplierRows, dividerRows, shifterRows, comparatorRows, bitwiseRows])

theorem Encodes.isnegU (rs1 : Reg) : Encodes.Statement (.isnegU rs1) :=
  Encodes.of_row 42 (by decide)
    (by simp [Instr.fields, Fields.and, Fields.ofWord, opcodeMap, storageRows, adderRows, multiplierRows, dividerRows, shifterRows, comparatorRows, bitwiseRows]) rfl
    (by simp [Instr.fields, opcodeMap, storageRows, adderRows, multiplierRows, dividerRows, shifterRows, comparatorRows, bitwiseRows])

theorem Encodes.isnegS (rs1 : Reg) : Encodes.Statement (.isnegS rs1) :=
  Encodes.of_row 43 (by decide)
    (by simp [Instr.fields, Fields.and, Fields.ofWord, opcodeMap, storageRows, adderRows, multiplierRows, dividerRows, shifterRows, comparatorRows, bitwiseRows]) rfl
    (by simp [Instr.fields, opcodeMap, storageRows, adderRows, multiplierRows, dividerRows, shifterRows, comparatorRows, bitwiseRows])

theorem Encodes.and (rd rs1 rs2 : Reg) : Encodes.Statement (.and rd rs1 rs2) :=
  Encodes.of_row 44 (by decide)
    (by simp [Instr.fields, Fields.and, Fields.ofWord, opcodeMap, storageRows, adderRows, multiplierRows, dividerRows, shifterRows, comparatorRows, bitwiseRows]) rfl
    (by simp [Instr.fields, opcodeMap, storageRows, adderRows, multiplierRows, dividerRows, shifterRows, comparatorRows, bitwiseRows])

theorem Encodes.or (rd rs1 rs2 : Reg) : Encodes.Statement (.or rd rs1 rs2) :=
  Encodes.of_row 45 (by decide)
    (by simp [Instr.fields, Fields.and, Fields.ofWord, opcodeMap, storageRows, adderRows, multiplierRows, dividerRows, shifterRows, comparatorRows, bitwiseRows]) rfl
    (by simp [Instr.fields, opcodeMap, storageRows, adderRows, multiplierRows, dividerRows, shifterRows, comparatorRows, bitwiseRows])

theorem Encodes.xor (rd rs1 rs2 : Reg) : Encodes.Statement (.xor rd rs1 rs2) :=
  Encodes.of_row 46 (by decide)
    (by simp [Instr.fields, Fields.and, Fields.ofWord, opcodeMap, storageRows, adderRows, multiplierRows, dividerRows, shifterRows, comparatorRows, bitwiseRows]) rfl
    (by simp [Instr.fields, opcodeMap, storageRows, adderRows, multiplierRows, dividerRows, shifterRows, comparatorRows, bitwiseRows])

theorem Encodes.not (rd rs1 : Reg) : Encodes.Statement (.not rd rs1) :=
  Encodes.of_row 47 (by decide)
    (by simp [Instr.fields, Fields.and, Fields.ofWord, opcodeMap, storageRows, adderRows, multiplierRows, dividerRows, shifterRows, comparatorRows, bitwiseRows]) rfl
    (by simp [Instr.fields, opcodeMap, storageRows, adderRows, multiplierRows, dividerRows, shifterRows, comparatorRows, bitwiseRows])

theorem Encodes.clz (rs1 : Reg) : Encodes.Statement (.clz rs1) :=
  Encodes.of_row 48 (by decide)
    (by simp [Instr.fields, Fields.and, Fields.ofWord, opcodeMap, storageRows, adderRows, multiplierRows, dividerRows, shifterRows, comparatorRows, bitwiseRows]) rfl
    (by simp [Instr.fields, opcodeMap, storageRows, adderRows, multiplierRows, dividerRows, shifterRows, comparatorRows, bitwiseRows])

end Sys2Proof.Laws
end

