-- ==== Sys2Proof/Tests/Slice0.lean ====
section
/-! SUPPORT. Tests. Expected results come from spec/: the examples of the rules and 95_test_vectors.md; each test names its source.
Then the witnesses: for each statement with hypotheses, a concrete state and operands that meet them. -/

namespace Sys2Proof.Tests

open Sys2Proof.Machine

/-! ### Decoding: every constructor, its word written out from the "Encoding" line of its rule or from the rule's example -/

/-- R110 to R118. -/
theorem test_decode_storage :
    decode 0x04E00000 = .instr (.ldU .x7) ∧
    decode 0x06200000 = .instr (.ldS .x1) ∧
    decode 0x08640000 = .instr (.mov .x3 .x1) ∧
    decode 0x0C400001 = .instr (.wrlimb .x2 1) ∧
    decode 0x10040FFF = .instr (.rdlimb .x1 0xFFF) ∧
    decode 0x14040000 = .instr (.getbit .x1) ∧
    decode 0x18200000 = .instr (.setbit .x1 .x0) ∧
    decode 0x1C000000 = .instr .bitaddr := by
  decide

/-- R142 to R146. -/
theorem test_decode_addsub :
    decode 0x20298000 = .instr (.add .x1 .x2 .x3) ∧
    decode 0x21240000 = .instr (.addiU .x1 .x1) ∧
    decode 0x23240000 = .instr (.addiS .x1 .x1) ∧
    decode 0x24298000 = .instr (.sub .x1 .x2 .x3) ∧
    decode 0x25480000 = .instr (.subiU .x2 .x2) ∧
    decode 0x27480000 = .instr (.subiS .x2 .x2) ∧
    decode 0x28840000 = .instr (.neg .x4 .x1) := by
  decide

/-- R162 to R165. -/
theorem test_decode_multiply :
    decode 0x2C298000 = .instr (.mul .x1 .x2 .x3) ∧
    decode 0x2D240000 = .instr (.muliU .x1 .x1) ∧
    decode 0x2F240000 = .instr (.muliS .x1 .x1) ∧
    decode 0x30440000 = .instr (.mulw .x2 .x1) := by
  decide

/-- R184 to R186. -/
theorem test_decode_divide :
    decode 0x34650000 = .instr (.divU .x3 .x1 .x2) ∧
    decode 0x36650000 = .instr (.divS .x3 .x1 .x2) ∧
    decode 0x38850000 = .instr (.modU .x4 .x1 .x2) ∧
    decode 0x3A850000 = .instr (.modS .x4 .x1 .x2) ∧
    decode 0x3C654000 = .instr (.divmodU .x3 .x4 .x1 .x2) ∧
    decode 0x3E654000 = .instr (.divmodS .x3 .x4 .x1 .x2) := by
  decide

/-- R202 to R204. -/
theorem test_decode_shift :
    decode 0x40440000 = .instr (.shl .x2 .x1) ∧
    decode 0x44440000 = .instr (.shrU .x2 .x1) ∧
    decode 0x46440000 = .instr (.shrS .x2 .x1) := by
  decide

/-- R221 to R228. -/
theorem test_decode_compare :
    decode 0x48050000 = .instr (.cmpU .x1 .x2) ∧
    decode 0x4A050000 = .instr (.cmpS .x1 .x2) ∧
    decode 0x4C050000 = .instr (.seqU .x1 .x2) ∧
    decode 0x4E050000 = .instr (.seqS .x1 .x2) ∧
    decode 0x4C051000 = .instr (.sneU .x1 .x2) ∧
    decode 0x4E051000 = .instr (.sneS .x1 .x2) ∧
    decode 0x4C052000 = .instr (.sltU .x1 .x2) ∧
    decode 0x4E052000 = .instr (.sltS .x1 .x2) ∧
    decode 0x4C053000 = .instr (.sleU .x1 .x2) ∧
    decode 0x4E053000 = .instr (.sleS .x1 .x2) ∧
    decode 0x4C054000 = .instr (.sgtU .x1 .x2) ∧
    decode 0x4E054000 = .instr (.sgtS .x1 .x2) ∧
    decode 0x4C055000 = .instr (.sgeU .x1 .x2) ∧
    decode 0x4E055000 = .instr (.sgeS .x1 .x2) ∧
    decode 0x50040000 = .instr (.isnegU .x1) ∧
    decode 0x52040000 = .instr (.isnegS .x1) := by
  decide

/-- R240 to R245. -/
theorem test_decode_bitwise :
    decode 0x54650000 = .instr (.and .x3 .x1 .x2) ∧
    decode 0x58650000 = .instr (.or .x3 .x1 .x2) ∧
    decode 0x5C650000 = .instr (.xor .x3 .x1 .x2) ∧
    decode 0x60400000 = .instr (.not .x2 .x0) ∧
    decode 0x64040000 = .instr (.clz .x1) := by
  decide

/-- The illegal words of 95_test_vectors.md 2.8 and 2.9. -/
theorem test_decode_illegal :
    decode 0x00000000 = .illegal .reservedOpcode ∧
    decode 0x68000000 = .illegal .reservedOpcode ∧
    decode 0xFC000000 = .illegal .reservedOpcode ∧
    decode 0x22000000 = .illegal .reservedField ∧
    decode 0x20000001 = .illegal .reservedField ∧
    decode 0x21008000 = .illegal .reservedField ∧
    decode 0x4C006000 = .illegal .reservedCondition ∧
    decode 0x4E007000 = .illegal .reservedCondition ∧
    decode 0x3C000000 = .illegal .sameDestination ∧
    decode 0x3E249000 = .illegal .sameDestination ∧
    decode 0x62000000 = .illegal .reservedField ∧
    decode 0x1C200000 = .illegal .reservedField ∧
    decode 0x10240001 = .illegal .reservedField ∧
    decode 0x0C040000 = .illegal .reservedField ∧
    decode 0x48200000 = .illegal .reservedField ∧
    decode 0x31000000 = .illegal .reservedField ∧
    decode 0x34650001 = .illegal .reservedField := by
  decide

/-- A legal DIVMOD word (95_test_vectors.md 2.8). -/
theorem test_decode_divmod_legal : decode 0x3C001000 = .instr (.divmodU .x0 .x1 .x0 .x0) := by decide

/-! ### WellFormed: the one check, with terms it refuses (30_encoding.md R90) -/

theorem test_wf_divmodU : (Instr.divmodU .x3 .x3 .x1 .x2).wf = false ∧ (Instr.divmodU .x3 .x4 .x1 .x2).wf = true := by decide

theorem test_wf_divmodS : (Instr.divmodS .x1 .x1 .x1 .x2).wf = false ∧ (Instr.divmodS .x1 .x2 .x1 .x2).wf = true := by decide

/-- The decoder refuses the word of an ill-formed term (95_test_vectors.md 2.4a). -/
theorem test_wf_decode : decode (encode (.divmodU .x3 .x3 .x1 .x2)) = .illegal .sameDestination := by decide

/-- A table word: CMD in bits 31:0 (log 9). -/
theorem test_decodeTableWord : decodeTableWord 32 0x06200000 = some (.ldS .x1) ∧ decodeTableWord 32 0 = none := by decide

/-! ### One step each -/

/-- A block of width `n` whose registers X1, X2 and X3 hold `a`, `b` and `c`. -/
def block (n : Nat) (a b c : Int) : State := (((State.resetAt n).withX .x1 a).withX .x2 b).withX .x3 c

/-- The state after one command. -/
def after (s : State) (cmd : CmdWord) (imm : Imm) : Option State :=
  match step (s.presentNext ⟨cmd, imm⟩) with
  | .next t => some t
  | .fault _ => none
  | .refused _ => none

/-- The limbs of a wide register after one command. -/
def limbsOf (r : Reg) (s : Option State) : Option Limbs := s.map fun t => (t.regs.get r).limbs

/-- RES and RES2 after one command. -/
def resultsOf (s : Option State) : Option (BitVec 64 × BitVec 64) := s.map fun t => (t.res, t.res2)

/-- STATUS, FAULT_CMD and FAULT_IMM after one command. -/
def recordOf (s : Option State) : Option (BitVec 64 × CmdWord × Imm) := s.map fun t => (t.status, t.faultCmd, t.faultImm)

/-- 95_test_vectors.md 2.1: 2^64 - 1 is zero-extended. -/
theorem test_ldU : limbsOf .x1 (after (block 80 0 0 0) 0x04200000 0xFFFFFFFFFFFFFFFF) = some [0xFFFFFFFFFFFFFFFF, 0] := by decide

/-- 95_test_vectors.md 2.1: -25. -/
theorem test_ldS : limbsOf .x1 (after (block 80 0 0 0) 0x06200000 0xFFFFFFFFFFFFFFE7) = some [0xFFFFFFFFFFFFFFE7, 0xFFFF] := by decide

/-- 95_test_vectors.md 2.1b: padding at N = 65. -/
theorem test_ldS_width_65 : limbsOf .x1 (after (block 65 0 0 0) 0x06200000 0xFFFFFFFFFFFFFFFF) = some [0xFFFFFFFFFFFFFFFF, 1] := by decide

/-- 95_test_vectors.md 2.1. -/
theorem test_mov : limbsOf .x3 (after (block 80 (-25) 0 0) 0x08640000 0) = some [0xFFFFFFFFFFFFFFE7, 0xFFFF] := by decide

/-- 95_test_vectors.md 2.1: limb W-1 is masked. -/
theorem test_wrlimb : limbsOf .x2 (after (block 80 0 0 0) 0x0C400001 0xFFFFFFFFFFFFFFFF) = some [0, 0xFFFF] := by decide

/-- 95_test_vectors.md 2.1: j = W faults with cause 4. -/
theorem test_wrlimb_fault :
    recordOf (after (block 80 0 0 0) 0x0C400002 1) = some (0x41, 0x0C400002, 1) := by decide

/-- 41_storage_bits.md R114: the padding reads 0. -/
theorem test_rdlimb : resultsOf (after (block 80 (-25) 0 0) 0x10040001 0) = some (0xFFFF, 0) := by decide

/-- 95_test_vectors.md 2.9, LIMB_INDEX: STATUS 0x41. -/
theorem test_rdlimb_fault :
    recordOf (after (block 80 5 0 0) 0x10040002 0) = some (0x41, 0x10040002, 0) := by decide

/-- 95_test_vectors.md 2.1: the sign bit. -/
theorem test_getbit : resultsOf (after (block 80 (-25) 0 0) 0x14040000 0x4F) = some (1, 0) := by decide

/-- 95_test_vectors.md 2.9, BIT_INDEX: STATUS 0x21. -/
theorem test_getbit_fault :
    recordOf (after (block 80 5 0 0) 0x14040000 0x50) = some (0x21, 0x14040000, 0x50) := by decide

/-- 95_test_vectors.md 2.1, with x1 for x0: bit 64. -/
theorem test_setbit : limbsOf .x1 (after (block 80 0 0 0) 0x18240000 0x40) = some [0, 1] := by decide

/-- 95_test_vectors.md 2.1: on BIT_INDEX the destination is unchanged. -/
theorem test_setbit_fault : limbsOf .x2 (after (block 80 5 9 0) 0x18440000 0x50) = some [9, 0] := by decide

/-- 95_test_vectors.md 2.1: any position is legal. -/
theorem test_bitaddr : resultsOf (after (block 80 0 0 0) 0x1C000000 0xFFFFFFFFFFFFFFFF) = some (0x03FFFFFFFFFFFFFF, 0x3F) := by decide

/-- 95_test_vectors.md 2.2: max + 1 = min. -/
theorem test_add : limbsOf .x1 (after (block 80 0 (2^79 - 1) 1) 0x20298000 0) = some [0, 0x8000] := by decide

/-- 95_test_vectors.md 2.2: the carry crosses a limb. -/
theorem test_add_carry : limbsOf .x1 (after (block 80 0 (2^64 - 1) 1) 0x20298000 0) = some [0, 1] := by decide

/-- 95_test_vectors.md 2.2. -/
theorem test_addiU : limbsOf .x1 (after (block 80 1 0 0) 0x21240000 0xFFFFFFFFFFFFFFFF) = some [0, 1] := by decide

/-- 95_test_vectors.md 2.2: sign extension. -/
theorem test_addiS : limbsOf .x1 (after (block 80 0 0 0) 0x23240000 0x8000000000000000) = some [0x8000000000000000, 0xFFFF] := by decide

/-- 95_test_vectors.md 2.2: 0 - 1, rs1 is the minuend. -/
theorem test_sub : limbsOf .x1 (after (block 80 0 0 1) 0x24298000 0) = some [0xFFFFFFFFFFFFFFFF, 0xFFFF] := by decide

/-- 95_test_vectors.md 2.2: the borrow crosses a limb. -/
theorem test_sub_borrow : limbsOf .x1 (after (block 80 0 (2^64) 1) 0x24298000 0) = some [0xFFFFFFFFFFFFFFFF, 0] := by decide

/-- 95_test_vectors.md 2.2. -/
theorem test_subiU : limbsOf .x2 (after (block 80 0 0 0) 0x25480000 0xFFFFFFFFFFFFFFFF) = some [1, 0xFFFF] := by decide

/-- 95_test_vectors.md 2.2: subtracting -1 adds 1. -/
theorem test_subiS : limbsOf .x2 (after (block 80 0 5 0) 0x27480000 0xFFFFFFFFFFFFFFFF) = some [6, 0] := by decide

/-- 95_test_vectors.md 2.2: -25. -/
theorem test_neg : limbsOf .x4 (after (block 80 25 0 0) 0x28840000 0) = some [0xFFFFFFFFFFFFFFE7, 0xFFFF] := by decide

/-- 95_test_vectors.md 2.2: NEG min = min. -/
theorem test_neg_min : limbsOf .x4 (after (block 80 0 (-2^79) 0) 0x28880000 0) = some [0, 0x8000] := by decide

/-- 95_test_vectors.md 2.3c: the scenario of 1.5. -/
theorem test_mul : limbsOf .x1 (after (block 80 0 92233720368547758070 100) 0x2C298000 0) = some [0xFFFFFFFFFFFFFC18, 0x1F3] := by decide

/-- 95_test_vectors.md 2.3c: min * -1 = min. -/
theorem test_mul_min : limbsOf .x1 (after (block 80 0 (-2^79) (-1)) 0x2C298000 0) = some [0, 0x8000] := by decide

/-- 95_test_vectors.md 2.3c: 7 * (2^64 - 1). -/
theorem test_muliU : limbsOf .x1 (after (block 80 7 0 0) 0x2D240000 0xFFFFFFFFFFFFFFFF) = some [0xFFFFFFFFFFFFFFF9, 6] := by decide

/-- 95_test_vectors.md 2.3c: 7 * -3. -/
theorem test_muliS : limbsOf .x1 (after (block 80 7 0 0) 0x2F240000 0xFFFFFFFFFFFFFFFD) = some [0xFFFFFFFFFFFFFFEB, 0xFFFF] := by decide

/-- 95_test_vectors.md 2.3a: the product. -/
theorem test_mulw : limbsOf .x2 (after (block 80 (2^79 - 1) 0 0) 0x30440000 0xFFFFFFFFFFFFFFFF) = some [1, 0x7FFF] := by decide

/-- 95_test_vectors.md 2.3b, N = 128: the overflow limb. -/
theorem test_mulw_overflow : resultsOf (after (block 128 (-1) 0 0) 0x30440000 0xFFFFFFFFFFFFFFFF) = some (0xFFFFFFFFFFFFFFFE, 0) := by decide

/-- 95_test_vectors.md 2.4: the pattern of -7 by 2. -/
theorem test_divU : limbsOf .x3 (after (block 80 (-7) 2 0) 0x34650000 0) = some [0xFFFFFFFFFFFFFFFC, 0x7FFF] := by decide

/-- 44_divide.md R182: STATUS is FAULT and cause 3. -/
theorem test_divU_fault :
    recordOf (after (block 80 7 0 9) 0x34650000 0) = some (0x31, 0x34650000, 0) := by decide

/-- 95_test_vectors.md 2.4: truncation toward zero. -/
theorem test_divS : limbsOf .x3 (after (block 80 (-7) 2 0) 0x36650000 0) = some [0xFFFFFFFFFFFFFFFD, 0xFFFF] := by decide

/-- 95_test_vectors.md 2.4: min / -1 = min. -/
theorem test_divS_min : limbsOf .x3 (after (block 80 (-2^79) (-1) 0) 0x36650000 0) = some [0, 0x8000] := by decide

/-- 95_test_vectors.md 2.4: the pattern of -7 by 2. -/
theorem test_modU : limbsOf .x4 (after (block 80 (-7) 2 0) 0x38850000 0) = some [1, 0] := by decide

/-- 95_test_vectors.md 2.4: the dividend's sign. -/
theorem test_modS : limbsOf .x4 (after (block 80 (-7) 2 0) 0x3A850000 0) = some [0xFFFFFFFFFFFFFFFF, 0xFFFF] := by decide

/-- 95_test_vectors.md 2.4a: the destination is unchanged. -/
theorem test_modS_fault : limbsOf .x3 (after (block 80 7 0 9) 0x3A650000 0) = some [9, 0] := by decide

/-- 95_test_vectors.md 2.4: max by 2^64 + 1. -/
theorem test_divmodU_quotient : limbsOf .x3 (after (block 80 (2^79 - 1) (2^64 + 1) 0) 0x3C654000 0) = some [0x7FFF, 0] := by decide

/-- 95_test_vectors.md 2.4: max by 2^64 + 1. -/
theorem test_divmodU_remainder : limbsOf .x4 (after (block 80 (2^79 - 1) (2^64 + 1) 0) 0x3C654000 0) = some [0xFFFFFFFFFFFF8000, 0] := by decide

/-- 95_test_vectors.md 2.4a: the quotient to a source. -/
theorem test_divmodS_quotient : limbsOf .x2 (after (block 80 7 2 0) 0x3E451000 0) = some [3, 0] := by decide

/-- 95_test_vectors.md 2.4a: the remainder to a source. -/
theorem test_divmodS_remainder : limbsOf .x1 (after (block 80 7 2 0) 0x3E451000 0) = some [1, 0] := by decide

/-- 95_test_vectors.md 2.5: to the sign bit. -/
theorem test_shl : limbsOf .x2 (after (block 80 1 0 0) 0x40440000 79) = some [0, 0x8000] := by decide

/-- 95_test_vectors.md 2.5: the longest distance. -/
theorem test_shl_long : limbsOf .x2 (after (block 80 (2^64 + 5) 0 0) 0x40440000 0xFFFFFFFFFFFFFFFF) = some [0, 0] := by decide

/-- 95_test_vectors.md 2.5: zero fill. -/
theorem test_shrU : limbsOf .x2 (after (block 80 (-25) 0 0) 0x44440000 1) = some [0xFFFFFFFFFFFFFFF3, 0x7FFF] := by decide

/-- 95_test_vectors.md 2.5: by one limb exactly. -/
theorem test_shrU_limb : limbsOf .x2 (after (block 80 (2^64 + 5) 0 0) 0x44440000 64) = some [1, 0] := by decide

/-- 95_test_vectors.md 2.5: min by 49, the case of 90_conflicts.md C2. -/
theorem test_shrS : limbsOf .x2 (after (block 80 (-2^79) 0 0) 0x46440000 49) = some [0xFFFFFFFFC0000000, 0xFFFF] := by decide

/-- 95_test_vectors.md 2.5: the longest distance. -/
theorem test_shrS_long : limbsOf .x2 (after (block 80 (-25) 0 0) 0x46440000 0xFFFFFFFFFFFFFFFF) = some [0xFFFFFFFFFFFFFFFF, 0xFFFF] := by decide

/-- 95_test_vectors.md 2.6: -1 against 0. -/
theorem test_cmpU : resultsOf (after (block 80 (-1) 0 0) 0x48050000 0) = some (1, 0) := by decide

/-- 95_test_vectors.md 2.6: -1 against 0. -/
theorem test_cmpS : resultsOf (after (block 80 (-1) 0 0) 0x4A050000 0) = some (0xFFFFFFFFFFFFFFFF, 0) := by decide

/-- 95_test_vectors.md 2.6. -/
theorem test_seqU : resultsOf (after (block 80 25 25 0) 0x4C050000 0) = some (1, 0) := by decide

/-- 95_test_vectors.md 2.6. -/
theorem test_seqS : resultsOf (after (block 80 25 50 0) 0x4E050000 0) = some (0, 0) := by decide

/-- 95_test_vectors.md 2.6. -/
theorem test_sneU : resultsOf (after (block 80 25 50 0) 0x4C051000 0) = some (1, 0) := by decide

/-- 95_test_vectors.md 2.6. -/
theorem test_sneS : resultsOf (after (block 80 25 25 0) 0x4E051000 0) = some (0, 0) := by decide

/-- 95_test_vectors.md 2.6: max below min. -/
theorem test_sltU : resultsOf (after (block 80 (2^79 - 1) (-2^79) 0) 0x4C052000 0) = some (1, 0) := by decide

/-- 95_test_vectors.md 2.6. -/
theorem test_sltS : resultsOf (after (block 80 (-1) 0 0) 0x4E052000 0) = some (1, 0) := by decide

/-- 95_test_vectors.md 2.6: -1 against 0. -/
theorem test_sleU : resultsOf (after (block 80 (-1) 0 0) 0x4C053000 0) = some (0, 0) := by decide

/-- 95_test_vectors.md 2.6. -/
theorem test_sleS : resultsOf (after (block 80 25 25 0) 0x4E053000 0) = some (1, 0) := by decide

/-- 95_test_vectors.md 2.6: a higher limb decides. -/
theorem test_sgtU : resultsOf (after (block 80 (2^64) (2^64 - 1) 0) 0x4C054000 0) = some (1, 0) := by decide

/-- 95_test_vectors.md 2.6: max above min. -/
theorem test_sgtS : resultsOf (after (block 80 (2^79 - 1) (-2^79) 0) 0x4E054000 0) = some (1, 0) := by decide

/-- 95_test_vectors.md 2.6: 0 against -1. -/
theorem test_sgeU : resultsOf (after (block 80 0 (-1) 0) 0x4C055000 0) = some (0, 0) := by decide

/-- 95_test_vectors.md 2.6: 0 against -1. -/
theorem test_sgeS : resultsOf (after (block 80 0 (-1) 0) 0x4E055000 0) = some (1, 0) := by decide

/-- 95_test_vectors.md 2.6a. -/
theorem test_isnegU : resultsOf (after (block 80 (-25) 0 0) 0x50040000 0) = some (0, 0) := by decide

/-- 95_test_vectors.md 2.6a. -/
theorem test_isnegS : resultsOf (after (block 80 (-25) 0 0) 0x52040000 0) = some (1, 0) := by decide

/-- 95_test_vectors.md 2.7. -/
theorem test_and : limbsOf .x3 (after (block 80 (-1) 0xF0F 0) 0x54650000 0) = some [0xF0F, 0] := by decide

/-- 95_test_vectors.md 2.7. -/
theorem test_or : limbsOf .x3 (after (block 80 (2^64) 1 0) 0x58650000 0) = some [1, 1] := by decide

/-- 95_test_vectors.md 2.7. -/
theorem test_xor : limbsOf .x3 (after (block 80 (-1) 25 0) 0x5C650000 0) = some [0xFFFFFFFFFFFFFFE6, 0xFFFF] := by decide

/-- 95_test_vectors.md 2.7: NOT max = min, the padding 0. -/
theorem test_not : limbsOf .x2 (after (block 80 (2^79 - 1) 0 0) 0x60440000 0) = some [0, 0x8000] := by decide

/-- 95_test_vectors.md 2.7: 2^64. -/
theorem test_clz : resultsOf (after (block 80 (2^64) 0 0) 0x64040000 0) = some (0xF, 0) := by decide

/-- 95_test_vectors.md 2.7a, N = 65: CLZ 0 = N. -/
theorem test_clz_zero : resultsOf (after (block 65 0 0 0) 0x64040000 0) = some (0x41, 0) := by decide

/-- 95_test_vectors.md 2.9, ILLEGAL: STATUS 0x11, and IMM is recorded. -/
theorem test_illegal :
    recordOf (after (block 80 5 0 0) 0x68000000 0x1234) = some (0x11, 0x68000000, 0x1234) := by decide

/-- 95_test_vectors.md 2.9: ILLEGAL comes before DIV_ZERO. -/
theorem test_illegal_first :
    recordOf (after (block 80 5 0 0) 0x34650001 0) = some (0x11, 0x34650001, 0) := by decide

/-- 95_test_vectors.md 2.9: the fault state discards, and the record stays. -/
theorem test_fault_state_discards :
    ((after (block 80 5 0 0) 0x14040000 0x50).bind fun t => after t 0x06200000 6).map
      (fun t => (t.status, t.faultCmd, t.k, (t.regs.get .x1).limbs)) = some (0x21, 0x14040000, 2, [5, 0]) := by
  decide

/-- 10_state.md R36: the host's index after one command. -/
theorem test_index : (after (block 80 5 0 0) 0x1C000000 0).map (·.k) = some 1 := by decide

/-- 70_reset_and_hazards.md R290: reset clears the record. -/
theorem test_reset_clears_fault :
    (match step { (block 80 5 0 0) with fault := true, cause := .divZero, inputs := [.reset] } with
      | .next t => (t.status, t.inReset)
      | .fault _ => (1, false)
      | .refused _ => (1, false)) = (0, true) := by
  decide

/-- 00_scope.md R6: N = 64 and N = 262145 are refused, N = 65 and N = 262144 are not. -/
theorem test_width_bounds : widthOk 64 = false ∧ widthOk 65 = true ∧ widthOk 262144 = true ∧ widthOk 262145 = false := by decide

/-- A word placed by `withFetchWord` is the next command a step runs, from reset (logs 7, 9). -/
theorem test_withFetchWord :
    (match step (State.reset.withFetchWord 32 0x1C000000) with
      | .next t => (t.k, t.busy)
      | .fault _ => (0, true)
      | .refused _ => (0, true)) = (1, false) := by
  decide

/-- `strictStep` stops at a read of an unwritten limb: `MOV x3, x1` right after reset (41_storage_bits.md R111; 93 U1). -/
theorem test_strict_unwritten : Safety.strictStep (State.reset.presentNext ⟨0x08640000, 0⟩) = .fault .unwrittenLimb := rfl

/-! ### Witnesses: a concrete state and operands that meet the hypotheses of each statement -/

/-- The block right after reset, with one command presented. -/
def presenting (cmd : CmdWord) : State := State.reset.presentNext ⟨cmd, 0⟩

theorem ready (cmd : CmdWord) : (presenting cmd).Ready ⟨cmd, 0⟩ [] := ⟨show widthOk Config.resetBits = true by decide, rfl, rfl, rfl⟩

theorem reset_inv : State.reset.Inv :=
  ⟨by decide, fun r => by cases r <;> decide, fun _ => ⟨rfl, rfl, rfl⟩, (fun h => by cases h), ⟨rfl, rfl, rfl⟩, (fun h => by cases h)⟩

/-- The block right after reset, the fault state entered, with one command presented. -/
def faulty (cmd : CmdWord) : State := { presenting cmd with fault := true, cause := .divZero }

/-- The block right after reset with the host's next events given. -/
def hosting (l : List HostEvent) : State := { State.reset with inputs := l }

/-- The block held in reset with the host's next events given. -/
def heldInReset (l : List HostEvent) : State := { State.reset with inReset := true, inputs := l }

theorem witness_StepAnswersExactlyForLegalWidths :
    (65 ≤ (State.resetAt 65).bits ∧ (State.resetAt 65).bits ≤ 262144) ∧
    (65 ≤ (State.resetAt 262144).bits ∧ (State.resetAt 262144).bits ≤ 262144) ∧
    ¬(65 ≤ (State.resetAt 64).bits ∧ (State.resetAt 64).bits ≤ 262144) ∧
    ¬(65 ≤ (State.resetAt 262145).bits ∧ (State.resetAt 262145).bits ≤ 262144) := by
  simp [State.resetAt]

theorem witness_LimbAndPaddingCounts : widthOk 65 = true ∧ widthOk 128 = true ∧ widthOk 262144 = true := by decide

theorem witness_WideRegisterReadsBackModuloWidth :
    widthOk State.reset.bits = true ∧ State.reset.bits ≤ 80 ∧ Reg.x1 ≠ Reg.x0 := by decide

theorem witness_PaddingBitsReadZero :
    State.reset.Inv ∧ (∃ t, step State.reset = .next t) ∧ State.reset.bits ≤ 80 :=
  ⟨reset_inv, ⟨_, rfl⟩, by decide⟩

theorem witness_NoCommandReadsResultRegisters :
    (∃ t, exec (.ldU .x1) State.reset = .next t) ∧ (Instr.ldU .x1).writesRes = false ∧ (Instr.ldU .x1).writesRes2 = false ∧
    ∃ t, exec .bitaddr State.reset = .next t :=
  ⟨⟨_, rfl⟩, rfl, rfl, ⟨_, rfl⟩⟩

theorem witness_CommandIndexCountsAcceptedCommands :
    (∃ t, step (hosting []) = .next t) ∧ (∃ t, step (hosting [.command ⟨0x1C000000, 0⟩]) = .next t) ∧
    (∃ t, step (heldInReset [.command ⟨0x1C000000, 0⟩]) = .next t) ∧
    (∃ t, step (hosting [.commandAbandoned ⟨0x1C000000, 0⟩]) = .next t) ∧
    (∃ t, step (heldInReset [.commandAbandoned ⟨0x1C000000, 0⟩]) = .next t) ∧
    (∃ t, step (hosting [.reset]) = .next t) ∧ (∃ t, step (hosting [.idle]) = .next t) ∧
    ∃ t, step (hosting [.hostRead 5]) = .next t :=
  ⟨⟨_, rfl⟩, ⟨_, rfl⟩, ⟨_, rfl⟩, ⟨_, rfl⟩, ⟨_, rfl⟩, ⟨_, rfl⟩, ⟨_, rfl⟩, ⟨_, rfl⟩⟩

theorem witness_HostRegisterMapContents :
    State.reset.busy = false ∧ ((2 : Nat) ≠ 0 ∧ (2 : Nat) ≠ 1 ∧ ¬(4 ≤ 2 ∧ 2 ≤ 7)) ∧
    (∃ t, step (hosting []) = .next t ∧ (hosting []).inputs = []) ∧
    (∃ t, step (hosting [.idle]) = .next t ∧ ∃ rest, (hosting [.idle]).inputs = .idle :: rest) ∧
    ∃ t, step (hosting [.hostRead 5]) = .next t ∧ ∃ a rest, (hosting [.hostRead 5]).inputs = .hostRead a :: rest :=
  ⟨rfl, by decide, ⟨_, rfl, rfl⟩, ⟨_, rfl, _, rfl⟩, ⟨_, rfl, _, _, rfl⟩⟩

theorem witness_WidthNeverChanges : ∃ t, step State.reset = .next t := ⟨_, rfl⟩

theorem witness_StateAfterReset : 80 ≤ 80 := by decide

theorem witness_HostReadHasNoSideEffect :
    widthOk (hosting [.hostRead 5]).bits = true ∧ (hosting [.hostRead 5]).inputs = .hostRead 5 :: [] ∧
    (hosting [.hostRead 5]).busy = false := by decide

theorem witness_DecodeOfEncodeIsTheCommand :
    (Instr.add .x7 .x0 .x7).wf = true ∧ (Instr.wrlimb .x7 0xFFF).wf = true ∧ (Instr.divmodS .x1 .x2 .x1 .x2).wf = true := by decide

theorem witness_EncodeOfDecodeIsTheWord : decode 0x3C001000 = .instr (.divmodU .x0 .x1 .x0 .x0) := by decide

theorem witness_ReservedEncodingsRaiseIllegal :
    ((presenting 0).Ready ⟨0, 0⟩ [] ∧ ((0 : CmdWord).extractLsb' 26 6).toNat = 0) ∧
    ((presenting 0x68000000).Ready ⟨0x68000000, 0⟩ [] ∧ 0x1A ≤ ((0x68000000 : CmdWord).extractLsb' 26 6).toNat) ∧
    ((presenting 0x4C006000).Ready ⟨0x4C006000, 0⟩ [] ∧ ((0x4C006000 : CmdWord).extractLsb' 26 6).toNat = 0x13 ∧
      6 ≤ ((0x4C006000 : CmdWord).extractLsb' 12 3).toNat) :=
  ⟨⟨ready _, by decide⟩, ⟨ready _, by decide⟩, ⟨ready _, by decide, by decide⟩⟩

theorem witness_DivmodWithOneDestinationRaisesIllegal :
    ((presenting 0x3C653000).Ready ⟨0x3C653000, 0⟩ [] ∧
      (0x3C653000 : CmdWord) = 0x3C000000 ||| Reg.x3.field 21 ||| Reg.x1.field 18 ||| Reg.x2.field 15 ||| Reg.x3.field 12) ∧
    ((presenting 0x3E249000).Ready ⟨0x3E249000, 0⟩ [] ∧
      (0x3E249000 : CmdWord) = 0x3E000000 ||| Reg.x1.field 21 ||| Reg.x1.field 18 ||| Reg.x1.field 15 ||| Reg.x1.field 12) :=
  ⟨⟨ready _, by decide⟩, ⟨ready _, by decide⟩⟩

theorem witness_WriteLimbReplacesOneLimb :
    (State.reset.regs.get .x2).wf State.reset.bits = true ∧ State.reset.fault = false ∧
    limbCount State.reset.bits ≤ (2 : BitVec 12).toNat ∧ (1 : BitVec 12).toNat < limbCount State.reset.bits := by decide

theorem witness_ReadLimbWritesResult :
    (State.reset.regs.get .x1).wf State.reset.bits = true ∧ State.reset.fault = false ∧
    limbCount State.reset.bits ≤ (2 : BitVec 12).toNat ∧ (1 : BitVec 12).toNat < limbCount State.reset.bits ∧
    State.reset.bits ≤ 64 * (1 : BitVec 12).toNat + 16 := by decide

/-- A position N, and a position N - 1. -/
theorem witness_GetBitWritesResult :
    State.reset.bits ≤ ({ State.reset with imm := 80 } : State).imm.toNat ∧ ({ State.reset with imm := 80 } : State).fault = false ∧
    ({ State.reset with imm := 79 } : State).imm.toNat < State.reset.bits := by decide

/-- A position N, and a position N - 1. -/
theorem witness_SetBitSetsOneBit :
    State.reset.bits ≤ ({ State.reset with imm := 80 } : State).imm.toNat ∧ ({ State.reset with imm := 80 } : State).fault = false ∧
    ({ State.reset with imm := 79 } : State).imm.toNat < State.reset.bits := by decide

/-- A zero divisor, and the divisors 1 and -1. -/
theorem witness_DivideWritesTheQuotient :
    widthOk (block 80 7 0 0).bits = true ∧ (block 80 7 0 0).u .x2 = 0 ∧ (block 80 7 0 0).fault = false ∧
    (block 80 7 1 0).u .x2 ≠ 0 ∧ (block 80 7 (-1) 0).u .x2 ≠ 0 := by decide

/-- A zero divisor, and the divisors 1 and -1. -/
theorem witness_ModuloWritesTheRemainder :
    widthOk (block 80 7 0 0).bits = true ∧ (block 80 7 0 0).u .x2 = 0 ∧ (block 80 7 0 0).fault = false ∧
    (block 80 7 1 0).u .x2 ≠ 0 ∧ (block 80 7 (-1) 0).u .x2 ≠ 0 := by decide

/-- One destination; two destinations with a zero divisor, and with the divisors 1 and -1. -/
theorem witness_DivmodWritesQuotientAndRemainder :
    widthOk (block 80 7 0 0).bits = true ∧ Reg.x3 = Reg.x3 ∧ Reg.x3 ≠ Reg.x4 ∧ (block 80 7 0 0).u .x2 = 0 ∧
    (block 80 7 0 0).fault = false ∧ (block 80 7 1 0).u .x2 ≠ 0 ∧ (block 80 7 (-1) 0).u .x2 ≠ 0 := by decide

theorem witness_CompareWritesTheSign : widthOk (block 80 (-1) 0 0).bits = true := by decide

theorem witness_EqualityWritesOneOrZero : widthOk (block 80 25 25 0).bits = true := by decide

theorem witness_OrderRelationsWriteOneOrZero : widthOk (block 80 (-1) 0 0).bits = true := by decide

theorem witness_IsNegativeReadsTheSignBit : widthOk (block 65 (-1) 0 0).bits = true := by decide

theorem witness_OnlyDestinationRegistersChange :
    (∃ t, exec (.divmodU .x3 .x4 .x1 .x2) (block 80 7 2 0) = .next t) ∧ Reg.x1 ∉ (Instr.divmodU .x3 .x4 .x1 .x2).dests :=
  ⟨⟨_, rfl⟩, by decide⟩

/-- Each cause: an illegal word, a position N, a zero divisor, a limb index W. -/
theorem witness_FaultEntryRecordsTheCommand :
    ((presenting 0).Ready ⟨0, 0⟩ [] ∧ (presenting 0).faultOf ⟨0, 0⟩ ≠ .none) ∧
    ((State.reset.presentNext ⟨0x14040000, 80⟩).Ready ⟨0x14040000, 80⟩ [] ∧ State.reset.faultOf ⟨0x14040000, 80⟩ ≠ .none) ∧
    ((presenting 0x36650000).Ready ⟨0x36650000, 0⟩ [] ∧ (presenting 0x36650000).faultOf ⟨0x36650000, 0⟩ ≠ .none) ∧
    ((presenting 0x10040002).Ready ⟨0x10040002, 0⟩ [] ∧ (presenting 0x10040002).faultOf ⟨0x10040002, 0⟩ ≠ .none) :=
  ⟨⟨ready _, by decide⟩, ⟨⟨by decide, rfl, rfl, rfl⟩, by decide⟩, ⟨ready _, by decide⟩, ⟨ready _, by decide⟩⟩

/-- A position N - 1, and a limb index W - 1. -/
theorem witness_NoOtherConditionFaults :
    ((State.reset.presentNext ⟨0x14040000, 79⟩).Ready ⟨0x14040000, 79⟩ [] ∧
      (State.reset.presentNext ⟨0x14040000, 79⟩).faultOf ⟨0x14040000, 79⟩ = .none) ∧
    ((presenting 0x10040001).Ready ⟨0x10040001, 0⟩ [] ∧ (presenting 0x10040001).faultOf ⟨0x10040001, 0⟩ = .none) :=
  ⟨⟨⟨by decide, rfl, rfl, rfl⟩, by decide⟩, ⟨ready _, by decide⟩⟩

theorem witness_FaultStateDiscardsCommands :
    widthOk (faulty 0x06200000).bits = true ∧ (faulty 0x06200000).inReset = false ∧ (faulty 0x06200000).fault = true ∧
    (faulty 0x06200000).inputs = .command ⟨0x06200000, 0⟩ :: [] := by decide

theorem witness_OnlyResetClearsTheFault :
    (faulty 0x06200000).fault = true ∧ (∀ e rest, (faulty 0x06200000).inputs = e :: rest → e.resets = false) ∧
    ∃ t, step (faulty 0x06200000) = .next t :=
  ⟨rfl, fun e rest h => by cases h; rfl, ⟨_, rfl⟩⟩

theorem witness_ResetEdgeSetsEveryPiece :
    widthOk (hosting [.reset, .idle]).bits = true ∧ (hosting [.reset, .idle]).inputs = .reset :: [.idle] := by decide

theorem witness_HeldInResetAcceptsNoCommand :
    (widthOk (heldInReset []).bits = true ∧ (heldInReset []).inReset = true ∧ (heldInReset []).inputs = []) ∧
    ((heldInReset [.idle]).inReset = true ∧ (heldInReset [.idle]).inputs = .idle :: []) ∧
    ((heldInReset [.command ⟨0x1C000000, 0⟩]).inReset = true ∧
      (heldInReset [.command ⟨0x1C000000, 0⟩]).inputs = .command ⟨0x1C000000, 0⟩ :: []) := by decide

theorem witness_ResetAbandonsTheCommand :
    widthOk (hosting [.commandAbandoned ⟨0x1C000000, 0⟩]).bits = true ∧
    (hosting [.commandAbandoned ⟨0x1C000000, 0⟩]).inReset = false ∧
    (hosting [.commandAbandoned ⟨0x1C000000, 0⟩]).inputs = .commandAbandoned ⟨0x1C000000, 0⟩ :: [] := by decide

theorem witness_StepRunsTheDecodedCommand :
    (presenting 0x06200000).Ready ⟨0x06200000, 0⟩ [] ∧ decode 0x06200000 = .instr (.ldS .x1) :=
  ⟨ready _, by decide⟩

theorem witness_InvariantHoldsAtReset : widthOk 65 = true ∧ widthOk 262144 = true := by decide

theorem witness_StepKeepsTheInvariant : (presenting 0x06200000).Inv ∧ ∃ t, step (presenting 0x06200000) = .next t :=
  ⟨⟨reset_inv.width, reset_inv.regs, fun _ => ⟨rfl, rfl, rfl⟩, (fun h => by cases h), ⟨rfl, rfl, rfl⟩, (fun h => by cases h)⟩, ⟨_, rfl⟩⟩

/-- `presenting 0x06200000` with 7 in the unwritten limb 0 of X5 and other values in RES and RES2. -/
def otherGarbage : State :=
  { presenting 0x06200000 with
    regs := State.reset.regs.set .x5 ⟨[7, 0], [false, false]⟩, res := 1, res2 := 2 }

theorem witness_UnwrittenLimbsNeverShow :
    (presenting 0x06200000).Inv ∧ otherGarbage.Inv ∧ (presenting 0x06200000).AgreeOnWritten otherGarbage ∧
    presenting 0x06200000 ≠ otherGarbage ∧ ∃ t, Safety.strictStep (presenting 0x06200000) = .next t := by
  refine ⟨witness_StepKeepsTheInvariant.1, ?_, ?_, by decide, ⟨_, rfl⟩⟩
  · exact ⟨by decide, fun r => by cases r <;> decide, fun _ => ⟨rfl, rfl, rfl⟩, (fun h => by cases h), ⟨rfl, rfl, rfl⟩,
      (fun h => by cases h)⟩
  · refine ⟨⟨_, _, _, rfl⟩, fun r => ⟨by cases r <;> rfl, fun j hj => ?_⟩⟩
    have : ∀ r, ((presenting 0x06200000).regs.get r).written = [false, false] := by intro r; cases r <;> rfl
    rw [WideReg.isWritten, this r] at hj
    match j with
    | 0 => cases hj
    | 1 => cases hj
    | j + 2 => cases hj

end Sys2Proof.Tests
end

section
/-! The scope statements (00_scope.md): which states step, what a written register reads back, and what a command leaves unchanged.
A command's cases come from `exec_cases`; the values read back from the canonical form of a register. -/

namespace Sys2Proof.Machine

/-! ### Widths, limbs and padding -/

/-- The range of N in numerals (00_scope.md R6). -/
theorem widthOk_iff (n : Nat) : widthOk n = true ↔ 65 ≤ n ∧ n ≤ 262144 := by
  rw [widthOk, Bool.and_eq_true, decide_eq_true_iff, decide_eq_true_iff, Config.minBits, Config.maxBits]

/-- N bits of value and P of padding fill the storage (00_scope.md R8). -/
theorem padCount_add (n : Nat) : padCount n + n = 64 * limbCount n :=
  Nat.sub_add_cancel (le_storage n)

/-- Settles O2: W is fixed by `64(W-1) < N <= 64W`, and the range of N bounds it. -/
theorem limbAndPaddingCounts : Obligations.LimbAndPaddingCounts := by
  intro n h
  obtain ⟨hmin, hmax⟩ := (widthOk_iff n).1 h
  have hle := le_storage n
  have hlt := storage_lt n
  have hpad := padCount_add n
  refine ⟨?_, hle, ?_, ?_, hpad, ?_⟩ <;> omega

/-! ### Every command, and so every step, answers a next state -/

/-- No meaning answers a fault or a refusal (60_exceptions.md R262; 70_reset_and_hazards.md R296). -/
theorem exec_next (i : Instr) (s : State) : ∃ t, exec i s = .next t := by
  obtain ⟨c, -, h⟩ | ⟨f, a, b, h, -⟩ := exec_cases i s
  · exact ⟨_, h⟩
  · exact ⟨_, h⟩

theorem State.runDecoded_next (s : State) : ∃ t, s.runDecoded = .next t := by
  unfold State.runDecoded
  split
  · exact ⟨_, rfl⟩
  · exact exec_next _ s

theorem State.runCommand_next (s : State) (c : Command) : ∃ t, s.runCommand c = .next t := by
  unfold State.runCommand
  split
  · exact ⟨_, completed_next _⟩
  · obtain ⟨t, ht⟩ := (s.accept c).runDecoded_next
    exact ⟨t.complete, congrArg completed ht⟩

theorem State.edge_command (s : State) (c : Command) :
    s.edge (.command c) =
      if s.inReset then .next { s with inReset := false, inputs := .command c :: s.inputs } else s.runCommand c := rfl

theorem State.edge_commandAbandoned (s : State) (c : Command) :
    s.edge (.commandAbandoned c) =
      if s.inReset then .next { s with inReset := false, inputs := .commandAbandoned c :: s.inputs }
      else .next (s.accept c).resetEdge := rfl

theorem State.edge_next (s : State) (e : HostEvent) : ∃ t, s.edge e = .next t := by
  cases e with
  | reset | idle | hostRead => exact ⟨_, rfl⟩
  | command c =>
    rw [State.edge_command]
    split
    · exact ⟨_, rfl⟩
    · exact s.runCommand_next c
  | commandAbandoned c =>
    rw [State.edge_commandAbandoned]
    split <;> exact ⟨_, rfl⟩

theorem State.hostStep_next (s : State) : ∃ t, s.hostStep = .next t := by
  unfold State.hostStep
  split
  · exact s.edge_next .idle
  · exact State.edge_next _ _

/-- Settles O1: the width check is the only branch of a step that does not answer a next state. -/
theorem stepAnswersExactlyForLegalWidths : Obligations.StepAnswersExactlyForLegalWidths := by
  intro s
  rw [← widthOk_iff]
  refine ⟨fun h => ?_, step_of_not_width⟩
  rw [step_of_width h]
  exact s.hostStep_next

/-! ### Reading a written register back -/

/-- The form of the result statements is the model's own `x[r] <- v` (00_scope.md R15). -/
theorem State.withX_eq_setX (s : State) (r : Reg) (k : Int) : s.withX r k = s.setX r (bvN s.bits k) := by
  simp [State.withX, State.setX, WideReg.ofBits]

@[simp] theorem State.withX_bits (s : State) (r : Reg) (k : Int) : (s.withX r k).bits = s.bits := rfl

@[simp] theorem State.withX_get_same (s : State) (r : Reg) (k : Int) :
    (s.withX r k).regs.get r = ⟨bvN s.bits k, List.replicate (limbCount s.bits) true⟩ :=
  RegFile.get_set_same ..

@[simp] theorem State.x_withX_same (s : State) (r : Reg) (k : Int) : (s.withX r k).x r = bvN s.bits k := by
  rw [State.withX_eq_setX, State.x_setX_same, clearPad_bvN]

@[simp] theorem State.x_withX_other (s : State) {r r' : Reg} (k : Int) (h : r' ≠ r) : (s.withX r k).x r' = s.x r' := by
  rw [State.withX_eq_setX, State.x_setX_other s _ h]

/-- The signed view is the balanced residue modulo 2^N of the unsigned one (00_scope.md R12). -/
theorem Canonical.sval_eq_bmod {n : Nat} (hn : 0 < n) {a : Limbs} (h : Canonical n a) :
    sval n a = Int.bmod (uval a) (2 ^ n) := by
  obtain ⟨hlo, hhi⟩ := sval_bounds hn h
  have hpow : ((2 ^ n : Nat) : Int) = 2 ^ (n - 1) * 2 := by
    rw [← pow_succ, Nat.sub_add_cancel hn]; norm_cast
  have hself : Int.bmod (sval n a) (2 ^ n) = sval n a :=
    Int.bmod_eq_of_le_mul_two (by omega) (by omega)
  have hcongr : sval n a % (2 ^ n : Nat) = uval a % (2 ^ n : Nat) := by exact_mod_cast sval_emod n a
  rw [← hself, ← Int.emod_bmod, hcongr, Int.emod_bmod]

/-- `bv_N(k)` read unsigned (00_scope.md R13). -/
theorem uval_bvN_eq_emod (n : Nat) (k : Int) : (uval (bvN n k) : Int) = k % 2 ^ n := by
  rw [uval_bvN, toNat_emod_pow]

/-- `bv_N(k)` read signed (00_scope.md R12, R13). -/
theorem sval_bvN {n : Nat} (hn : 0 < n) (k : Int) : sval n (bvN n k) = Int.bmod k (2 ^ n) := by
  rw [(canonical_bvN n k).sval_eq_bmod hn, uval_bvN_eq_emod, ← Int.emod_bmod k]
  norm_cast

/-- Settles O3: the register holds `bv_N(k)`, which is canonical, and no other register is written. -/
theorem wideRegisterReadsBackModuloWidth : Obligations.WideRegisterReadsBackModuloWidth := by
  intro s r k hw
  refine ⟨?_, ?_, fun p hp => ?_, fun r' hr => ⟨?_, ?_⟩⟩
  · rw [State.u, State.x_withX_same, uval_bvN_eq_emod]
  · rw [State.sgn, State.x_withX_same, State.withX_bits, sval_bvN (widthOk_pos hw)]
  · rw [State.withX_get_same]
    exact (canonical_bvN s.bits k).bitAt_of_le hp
  · rw [State.u, State.x_withX_other s k hr, ← State.u]
  · rw [State.sgn, State.x_withX_other s k hr, State.withX_bits, ← State.sgn]

/-! ### What a command leaves unchanged -/

/-- Settles O47: a fault entry writes no wide register, and any other command only its destinations. -/
theorem onlyDestinationRegistersChange : Obligations.OnlyDestinationRegistersChange := by
  intro i s t h r hr
  obtain ⟨c, -, hc⟩ | ⟨f, a, b, hf, hwrites⟩ := exec_cases i s
  · cases hc.symm.trans h
    rw [State.raise_regs]
  · cases hf.symm.trans h
    exact hwrites.other r hr

/-- Fault entry leaves the record as it was, with FAULT = 1 already (60_exceptions.md R264), or records the command and nothing
else (R262). -/
theorem State.raise_keeps_record_or_enters (s : State) (c : Cause) :
    ((s.raise c).fault = s.fault ∧ (s.raise c).cause = s.cause ∧ (s.raise c).faultCmd = s.faultCmd ∧
      (s.raise c).faultImm = s.faultImm) ∨
    s.raise c = { s with fault := true, cause := c, faultCmd := s.cmd, faultImm := s.imm } := by
  cases h : s.fault with
  | true => left; rw [State.raise_of_fault h]; exact ⟨h, rfl, rfl, rfl⟩
  | false => right; exact State.raise_of_no_fault h c

/-- Settles O48: a failed operand check is a fault entry, and any other command writes registers, RES and RES2 at most. -/
theorem everyCommandCompletesOrFaults : Obligations.EveryCommandCompletesOrFaults := by
  intro i s
  obtain ⟨c, hne, h⟩ | ⟨f, a, b, h, -⟩ := exec_cases i s
  · refine ⟨s.raise c, h, s.raise_bits c, s.raise_busy c, s.raise_cmd c, s.raise_imm c, s.raise_inReset c, s.raise_k c,
      s.raise_inputs c, ?_⟩
    exact (s.raise_keeps_record_or_enters c).imp_right fun hr => ⟨c, hne, hr⟩
  · exact ⟨s.withResults f a b, h, rfl, rfl, rfl, rfl, rfl, rfl, rfl, .inl ⟨rfl, rfl, rfl, rfl⟩⟩

end Sys2Proof.Machine
end

section
/-! The state statements (10_state.md): what one edge can do, said once (`EdgeTo`), and from it the invariant, the padding, the width,
the host command index, the host register map and the state after reset. -/

namespace Sys2Proof.Machine

/-! ### What an edge can do -/

/-- The state an edge with event `e` leads to (70_reset_and_hazards.md R290 to R294): one constructor for each way out. What the
command itself computes is left open: a fault entry, or new registers and results. -/
inductive EdgeTo (s : State) : HostEvent → State → Prop
  | reset : EdgeTo s .reset s.resetEdge
  | idle : EdgeTo s .idle { s with inReset := false }
  | hostRead (addr : BitVec 3) : EdgeTo s (.hostRead addr) s
  | heldCommand (c : Command) (held : s.inReset = true) :
      EdgeTo s (.command c) { s with inReset := false, inputs := .command c :: s.inputs }
  | heldAbandoned (c : Command) (held : s.inReset = true) :
      EdgeTo s (.commandAbandoned c) { s with inReset := false, inputs := .commandAbandoned c :: s.inputs }
  | abandoned (c : Command) (out : s.inReset = false) : EdgeTo s (.commandAbandoned c) (s.accept c).resetEdge
  | faulted (c : Command) (out : s.inReset = false) (noFault : s.fault = false) {k : Cause} (hk : k ≠ .none) :
      EdgeTo s (.command c) ((s.accept c).raise k).complete
  | completed (c : Command) (out : s.inReset = false) {f : RegFile} (a b : BitVec 64)
      (wf : ∀ r, (s.regs.get r).wf s.bits = true → (f.get r).wf s.bits = true) :
      EdgeTo s (.command c) ((s.accept c).withResults f a b).complete

/-- In the fault state a command is accepted and discarded (60_exceptions.md R264). -/
theorem State.runCommand_of_fault {s : State} (h : s.fault = true) (c : Command) :
    s.runCommand c = .next (s.accept c).complete := by
  rw [State.runCommand, if_pos h, completed_next]

/-- Without a fault it is decoded (30_encoding.md R91), and an illegal CMD raises ILLEGAL. -/
theorem State.runCommand_of_illegal {s : State} (h : s.fault = false) {c : Command} {why : Illegal}
    (hd : decode c.cmd = .illegal why) : s.runCommand c = .next ((s.accept c).raise .illegal).complete := by
  rw [State.runCommand, if_neg (Bool.eq_false_iff.1 h), State.runDecoded, State.accept_cmd, hd]
  rfl

/-- A decoded command runs its rule (30_encoding.md R91). -/
theorem State.runCommand_of_instr {s : State} (h : s.fault = false) {c : Command} {i : Instr}
    (hd : decode c.cmd = .instr i) : s.runCommand c = completed (exec i (s.accept c)) := by
  rw [State.runCommand, if_neg (Bool.eq_false_iff.1 h), State.runDecoded, State.accept_cmd, hd]

theorem EdgeTo.of_runCommand {s t : State} {c : Command} (out : s.inReset = false) (h : s.runCommand c = .next t) :
    EdgeTo s (.command c) t := by
  cases hfault : s.fault with
  | true =>
    cases (State.runCommand_of_fault hfault c).symm.trans h
    exact .completed c out s.res s.res2 fun _ hr => hr
  | false =>
    cases hd : decode c.cmd with
    | illegal why =>
      cases (State.runCommand_of_illegal hfault hd).symm.trans h
      exact .faulted c out hfault (by decide)
    | instr i =>
      rw [State.runCommand_of_instr hfault hd] at h
      obtain ⟨k, hk, he⟩ | ⟨f, a, b, he, hwrites⟩ := exec_cases i (s.accept c)
      · rw [he] at h
        cases h
        exact .faulted c out hfault hk
      · rw [he] at h
        cases h
        exact .completed c out a b hwrites.wf

theorem EdgeTo.of_edge {s t : State} {e : HostEvent} (h : s.edge e = .next t) : EdgeTo s e t := by
  cases e with
  | reset => cases h; exact .reset
  | idle => cases h; exact .idle
  | hostRead addr => cases h; exact .hostRead addr
  | command c =>
    rw [State.edge_command] at h
    split at h
    · rename_i held; cases h; exact .heldCommand c held
    · rename_i hout; exact .of_runCommand (Bool.eq_false_iff.2 hout) h
  | commandAbandoned c =>
    rw [State.edge_commandAbandoned] at h
    split at h
    · rename_i held; cases h; exact .heldAbandoned c held
    · rename_i hout; cases h; exact .abandoned c (Bool.eq_false_iff.2 hout)

theorem widthOk_of_step {s t : State} (h : step s = .next t) : widthOk s.bits = true := by
  by_contra hw
  cases (step_of_not_width hw).symm.trans h

/-- All a step can do: idle on an exhausted list (10_state.md R36), or take the host's next event. -/
theorem step_cases {s t : State} (h : step s = .next t) :
    (s.inputs = [] ∧ t = { s with inReset := false }) ∨
    ∃ e rest, s.inputs = e :: rest ∧ EdgeTo { s with inputs := rest } e t := by
  have hw := widthOk_of_step h
  by_cases hi : s.inputs = []
  · exact .inl ⟨hi, (Host.Outcome.next.inj ((step_of_no_inputs hw hi).symm.trans h)).symm⟩
  · obtain ⟨e, rest, hcons⟩ := List.exists_cons_of_ne_nil hi
    exact .inr ⟨e, rest, hcons, .of_edge ((step_of_inputs hw hcons).symm.trans h)⟩

/-! ### The width -/

theorem EdgeTo.bits_eq {s t : State} {e : HostEvent} (h : EdgeTo s e t) : t.bits = s.bits := by
  cases h with
  | faulted c _ _ hk => exact State.raise_bits ..
  | _ => rfl

theorem step_bits {s t : State} (h : step s = .next t) : t.bits = s.bits := by
  obtain ⟨-, rfl⟩ | ⟨e, rest, -, hedge⟩ := step_cases h
  · rfl
  · exact hedge.bits_eq

/-- Settles O8: N is a field that no event writes, and registers 3 and 4 read it. -/
theorem widthNeverChanges : Obligations.WidthNeverChanges := by
  intro s t h
  have hbits := step_bits h
  refine ⟨hbits, ?_, ?_⟩
  · exact congrArg (BitVec.ofNat 64) hbits
  · exact congrArg (fun n => BitVec.ofNat 64 (limbCount n)) hbits

/-! ### The invariant -/

theorem inv_resetAt {n : Nat} (h : widthOk n = true) : (State.resetAt n).Inv where
  width := h
  regs r := by rw [State.resetAt, RegFile.get_reset]; exact WideReg.wf_reset n
  noRecord _ := ⟨rfl, rfl, rfl⟩
  recorded hf := by cases hf
  idle := ⟨rfl, rfl, rfl⟩
  reset _ := ⟨rfl, rfl⟩

/-- Settles O57: every register after reset is canonical, and the record is empty. -/
theorem invariantHoldsAtReset : Obligations.InvariantHoldsAtReset :=
  ⟨fun _ => inv_resetAt, inv_resetAt (by decide)⟩

/-- What the host does next is no part of the invariant (log 7). -/
theorem State.Inv.with_inputs {s : State} (h : s.Inv) (l : List HostEvent) : ({ s with inputs := l } : State).Inv :=
  ⟨h.width, h.regs, h.noRecord, h.recorded, h.idle, h.reset⟩

/-- The end of reset (70_reset_and_hazards.md R290). -/
theorem State.Inv.out_of_reset {s : State} (h : s.Inv) : ({ s with inReset := false } : State).Inv :=
  ⟨h.width, h.regs, h.noRecord, h.recorded, h.idle, fun hr => by cases hr⟩

/-- An edge of reset needs nothing of the state but its width (70_reset_and_hazards.md R290). -/
theorem inv_resetEdge {s : State} (h : widthOk s.bits = true) : s.resetEdge.Inv :=
  have hreset := inv_resetAt h
  ⟨h, hreset.regs, hreset.noRecord, hreset.recorded, hreset.idle, fun _ => ⟨rfl, rfl⟩⟩

/-- A command that faults records a cause (60_exceptions.md R262). -/
theorem State.Inv.complete_raise {s : State} (h : s.Inv) (c : Command) (out : s.inReset = false) (noFault : s.fault = false)
    {k : Cause} (hk : k ≠ .none) : ((s.accept c).raise k).complete.Inv := by
  rw [State.raise_of_no_fault (s := s.accept c) noFault]
  exact
    { width := h.width
      regs := h.regs
      noRecord := fun hf => by cases hf
      recorded := fun _ => hk
      idle := ⟨rfl, rfl, rfl⟩
      reset := fun hr => by cases out.symm.trans hr }

/-- A command that does not fault keeps the record, and its registers canonical. -/
theorem State.Inv.complete_withResults {s : State} (h : s.Inv) (c : Command) (out : s.inReset = false) {f : RegFile}
    (a b : BitVec 64) (wf : ∀ r, (s.regs.get r).wf s.bits = true → (f.get r).wf s.bits = true) :
    ((s.accept c).withResults f a b).complete.Inv where
  width := h.width
  regs r := wf r (h.regs r)
  noRecord := h.noRecord
  recorded := h.recorded
  idle := ⟨rfl, rfl, rfl⟩
  reset hr := by cases out.symm.trans hr

theorem State.Inv.edge {s t : State} {e : HostEvent} (h : s.Inv) (hedge : EdgeTo s e t) : t.Inv := by
  cases hedge with
  | reset => exact inv_resetEdge h.width
  | idle => exact h.out_of_reset
  | hostRead => exact h
  | heldCommand | heldAbandoned => exact h.out_of_reset.with_inputs _
  | abandoned c => exact inv_resetEdge (s := s.accept c) h.width
  | faulted c out noFault hk => exact h.complete_raise c out noFault hk
  | completed c out a b wf => exact h.complete_withResults c out a b wf

/-- Settles O58: each way out of an edge keeps the invariant. -/
theorem stepKeepsTheInvariant : Obligations.StepKeepsTheInvariant := by
  intro s t hinv h
  obtain ⟨-, rfl⟩ | ⟨e, rest, -, hedge⟩ := step_cases h
  · exact hinv.out_of_reset
  · exact (hinv.with_inputs rest).edge hedge

/-- Padding bits of a canonical register are 0 (00_scope.md R8; 10_state.md R32). -/
theorem WideReg.bitAt_of_le {n : Nat} {w : WideReg} (h : w.wf n = true) {p : Nat} (hp : n ≤ p) : bitAt w.limbs p = false :=
  ((WideReg.wf_iff n w).1 h).1.bitAt_of_le hp

/-- Settles O4: the invariant holds after the step, and N is the same. -/
theorem paddingBitsReadZero : Obligations.PaddingBitsReadZero := by
  intro s t hinv h r p hp
  rw [← step_bits h] at hp
  exact WideReg.bitAt_of_le ((stepKeepsTheInvariant s t hinv h).regs r) hp

/-! ### The host command index -/

/-- Settles O6: acceptance alone advances k, and only an edge of reset clears it. -/
theorem commandIndexCountsAcceptedCommands : Obligations.CommandIndexCountsAcceptedCommands := by
  refine ⟨rfl, fun s t h => ⟨fun hi => ?_, fun e rest hi => ?_⟩⟩
  · obtain ⟨-, rfl⟩ | ⟨e, rest, hcons, -⟩ := step_cases h
    · rfl
    · cases hi.symm.trans hcons
  · obtain ⟨hnil, -⟩ | ⟨e', rest', hcons, hedge⟩ := step_cases h
    · cases hi.symm.trans hnil
    · cases hi.symm.trans hcons
      cases hedge with
      | reset | idle | hostRead => rfl
      | heldCommand c held | heldAbandoned c held => exact (if_pos held).symm
      | abandoned c out => exact (if_neg (Bool.eq_false_iff.1 out)).symm
      | faulted c out => exact (State.raise_k ..).trans (if_neg (Bool.eq_false_iff.1 out)).symm
      | completed c out => exact (if_neg (Bool.eq_false_iff.1 out)).symm

/-! ### The host register map -/

/-- STATUS bit by bit (10_state.md R40): above bit 7 the code of CAUSE, 4 bits wide, reads 0. -/
theorem State.getLsbD_status (s : State) (p : Nat) :
    s.status.getLsbD p =
      if p = 0 then s.fault else if p = 1 then s.busy else decide (4 ≤ p) && s.cause.code.getLsbD (p - 4) := by
  rw [State.status, BitVec.getLsbD_setWidth, BitVec.getLsbD_append, BitVec.getLsbD_append, BitVec.getLsbD_append]
  by_cases hp : p < 4
  · interval_cases p <;> simp
  · obtain ⟨q, rfl⟩ : ∃ q, p = q + 4 := ⟨p - 4, by omega⟩
    have hcode : s.cause.code.getLsbD q = true → q + 4 < 64 := fun h => by
      have := BitVec.lt_of_getLsbD h
      omega
    simpa using hcode

/-- An idle edge or a host read writes no host register (10_state.md R39). -/
theorem EdgeTo.hostReg_eq {s t : State} {e : HostEvent} (h : EdgeTo s e t) (he : e = .idle ∨ ∃ a, e = .hostRead a)
    (addr : BitVec 3) : t.hostReg addr = s.hostReg addr := by
  obtain rfl | ⟨a, rfl⟩ := he
  · cases h; rfl
  · cases h; rfl

/-- Settles O7: STATUS is read bit by bit, the other registers by their numbers, and the three events write none of them. -/
theorem hostRegisterMapContents : Obligations.HostRegisterMapContents := by
  intro s draw
  refine ⟨⟨s.getLsbD_status 0, s.getLsbD_status 1, ?_, fun p h0 h1 hp => ?_⟩, fun hbusy => ?_, fun t h hin addr => ?_⟩
  · apply BitVec.eq_of_getLsbD_eq
    intro b hb
    rw [BitVec.getLsbD_extractLsb', State.getLsbD_status, if_neg (by omega), if_neg (by omega)]
    simp [hb]
  · rw [State.getLsbD_status, if_neg h0, if_neg h1]
    by_cases h4 : 4 ≤ p
    · rw [BitVec.getLsbD_of_ge _ _ (by omega), Bool.and_false]
    · rw [decide_eq_false h4, Bool.false_and]
  · have hread : ∀ addr, s.hregData draw addr = s.hostReg addr := fun addr => if_neg (Bool.eq_false_iff.1 hbusy)
    simp only [hread]
    exact ⟨rfl, rfl, rfl, rfl, rfl, rfl, rfl, rfl⟩
  · obtain ⟨-, rfl⟩ | ⟨e, rest, hcons, hedge⟩ := step_cases h
    · rfl
    · refine hedge.hostReg_eq ?_ addr
      obtain hnil | ⟨rest', hidle⟩ | ⟨a, rest', hread⟩ := hin
      · cases hcons.symm.trans hnil
      · cases hcons.symm.trans hidle; exact .inl rfl
      · cases hcons.symm.trans hread; exact .inr ⟨a, rfl⟩

/-! ### The state after reset -/

/-- Settles O9: the entries the spec names are fields of `resetAt`; the registers hold W unwritten limbs, all 0. -/
theorem stateAfterReset : Obligations.StateAfterReset := by
  intro n
  refine ⟨rfl, rfl, rfl, rfl, rfl, rfl, rfl, rfl, rfl, fun r => ?_⟩
  have hreg : (State.resetAt n).regs.get r = WideReg.reset n := RegFile.get_reset n r
  rw [hreg]
  refine ⟨fun j => ?_, fun p => WideReg.bitAt_of_le (WideReg.wf_reset n)⟩
  simp [WideReg.isWritten, WideReg.reset]

end Sys2Proof.Machine
end

section
/-! What a command reads (10_state.md R33, R34). A command's answer depends on IMM and the values of its source registers alone: from
two states alike in those, `exec` raises the same fault, or makes the same writes (`exec_alike`). RES and RES2 are not among them
(R34), and in a safe run neither are unwritten limbs (R33, R45). -/

namespace Sys2Proof.Machine

/-! ### The writes of a command as data -/

/-- One write to the register file: `x[rd] <- v` (00_scope.md R15), or one limb (41_storage_bits.md R113). -/
inductive RegWrite where
  | value (rd : Reg) (v : Limbs)
  | limb (rd : Reg) (j : Nat) (v : Limb)

/-- The write, made in a block of width `n`. -/
def RegWrite.apply (n : Nat) (f : RegFile) : RegWrite → RegFile
  | .value rd v => f.set rd (WideReg.ofBits n v)
  | .limb rd j v => f.set rd ((f.get rd).setLimb n j v)

/-- The writes of one command, and its values for RES and RES2 if it has any (10_state.md R35). -/
structure Effect where
  regs : List RegWrite := []
  res  : Option (BitVec 64) := none
  res2 : Option (BitVec 64) := none

/-- The state after the writes. -/
def Effect.apply (e : Effect) (s : State) : State :=
  s.withResults (e.regs.foldl (RegWrite.apply s.bits) s.regs) (e.res.getD s.res) (e.res2.getD s.res2)

/-! ### Two runs that do the same -/

/-- Two answers, of runs from `s` and from `s'`, that enter the same fault or make the same writes. `exec_alike` ties it to the
model. -/
def AnswerAlike (s s' : State) (r r' : Result) : Prop :=
  (∃ k, r = .next (s.raise k) ∧ r' = .next (s'.raise k)) ∨
    ∃ e : Effect, r = .next (e.apply s) ∧ r' = .next (e.apply s')

theorem AnswerAlike.fault {s s' : State} (k : Cause) : AnswerAlike s s' (.next (s.raise k)) (.next (s'.raise k)) :=
  .inl ⟨k, rfl, rfl⟩

theorem AnswerAlike.effect {s s' : State} {r r' : Result} {e e' : Effect} (he : e' = e) (hr : r = .next (e.apply s))
    (hr' : r' = .next (e'.apply s')) : AnswerAlike s s' r r' :=
  .inr ⟨e, hr, he ▸ hr'⟩

theorem AnswerAlike.setX {s s' : State} (rd : Reg) {v v' : Limbs} (hv : v' = v) :
    AnswerAlike s s' (.next (s.setX rd v)) (.next (s'.setX rd v')) :=
  .effect (e := { regs := [.value rd v] }) (e' := { regs := [.value rd v'] }) (by rw [hv]) rfl rfl

theorem AnswerAlike.setRes {s s' : State} {w w' : BitVec 64} (hw : w' = w) :
    AnswerAlike s s' (.next (s.setRes w)) (.next (s'.setRes w')) :=
  .effect (e := { res := some w }) (e' := { res := some w' }) (by rw [hw]) rfl rfl

/-- A check that goes the same way in both runs, before commands that do the same. -/
theorem AnswerAlike.check {s s' : State} {p p' : Prop} [Decidable p] [Decidable p'] (hp : p' ↔ p) (k : Cause) {r r' : Result}
    (h : ¬ p → AnswerAlike s s' r r') :
    AnswerAlike s s' (if p then .next (s.raise k) else r) (if p' then .next (s'.raise k) else r') := by
  by_cases hc : p
  · rw [if_pos hc, if_pos (hp.2 hc)]
    exact .fault k
  · rw [if_neg hc, if_neg (mt hp.1 hc)]
    exact h hc

/-! ### A command's answer depends on its sources alone -/

/-- The two states are alike in what command `i` reads (10_state.md R33). -/
structure ReadsAlike (i : Instr) (s s' : State) : Prop where
  bits : s'.bits = s.bits
  imm  : s'.imm = s.imm
  x    : ∀ r ∈ i.sources, s'.x r = s.x r
  /-- RDLIMB reads one limb, if its index is in range (41_storage_bits.md R112, R114). -/
  limb : ∀ (r : Reg) (j : BitVec 12), i = .rdlimb r j → j.toNat < limbCount s.bits → s'.limb r j.toNat = s.limb r j.toNat

section
variable {i : Instr} {s s' : State} (h : ReadsAlike i s s')
include h

theorem ReadsAlike.immU : s'.immU = s.immU := by rw [State.immU, State.immU, h.bits, h.imm]

theorem ReadsAlike.immS : s'.immS = s.immS := by rw [State.immS, State.immS, h.bits, h.imm]

theorem ReadsAlike.immCount : s'.immCount = s.immCount := by rw [State.immCount, State.immCount, h.imm]

theorem ReadsAlike.u {r : Reg} (hr : r ∈ i.sources) : s'.u r = s.u r := by rw [State.u, State.u, h.x r hr]

theorem ReadsAlike.checkBit {r r' : Result} (hk : AnswerAlike s s' r r') : AnswerAlike s s' (s.checkBit r) (s'.checkBit r') :=
  .check (by rw [h.immCount, h.bits]) _ fun _ => hk

theorem ReadsAlike.checkLimb {j : BitVec 12} {r r' : Result} (hk : j.toNat < limbCount s.bits → AnswerAlike s s' r r') :
    AnswerAlike s s' (s.checkLimb j r) (s'.checkLimb j r') :=
  .check (by rw [h.bits]) _ fun hj => hk (not_le.1 hj)

theorem ReadsAlike.checkDivisor {d : Reg} (hd : d ∈ i.sources) {r r' : Result} (hk : AnswerAlike s s' r r') :
    AnswerAlike s s' (s.checkDivisor d r) (s'.checkDivisor d r') :=
  .check (by rw [h.u hd]) _ fun _ => hk

end

theorem AnswerAlike.checkDests {s s' : State} {rd rd2 : Reg} {r r' : Result} (hk : AnswerAlike s s' r r') :
    AnswerAlike s s' (s.checkDests rd rd2 r) (s'.checkDests rd rd2 r') :=
  .check Iff.rfl _ fun _ => hk

/-- From two states alike in what the command reads, it raises the same fault or makes the same writes. -/
theorem exec_alike {i : Instr} {s s' : State} (h : ReadsAlike i s s') : AnswerAlike s s' (exec i s) (exec i s') := by
  cases i
  case ldU rd => exact .setX rd h.immU
  case ldS rd => exact .setX rd h.immS
  case bitaddr => 
    exact .effect
      (e := ⟨[], some (BitVec.ofNat 64 (wordIndex s.immCount)), some (BitVec.ofNat 64 (bitIndex s.immCount))⟩)
      (e' := ⟨[], some (BitVec.ofNat 64 (wordIndex s'.immCount)), some (BitVec.ofNat 64 (bitIndex s'.immCount))⟩)
      (by rw [h.immCount]) rfl rfl
  case wrlimb rd j =>
    exact h.checkLimb fun _ =>
      .effect (e := ⟨[.limb rd _ _], none, none⟩) (e' := ⟨[.limb rd _ _], none, none⟩) (by rw [h.imm]) rfl rfl
  case rdlimb r j => exact h.checkLimb fun hj => .setRes (h.limb r j rfl hj)
  case getbit a =>
    have ha := h.x a List.mem_cons_self
    exact h.checkBit (.setRes (by rw [ha, h.immCount]))
  case setbit rd a =>
    have ha := h.x a List.mem_cons_self
    exact h.checkBit (.setX rd (by rw [ha, h.immCount]))
  case mov rd a | neg rd a | not rd a | addiU rd a | addiS rd a | subiU rd a | subiS rd a | muliU rd a | muliS rd a
      | shl rd a | shrU rd a | shrS rd a =>
    have ha := h.x a List.mem_cons_self
    exact .setX rd (by simp only [ha, h.bits, h.immU, h.immS, h.immCount])
  case isnegU a | isnegS a | clz a =>
    have ha := h.x a List.mem_cons_self
    exact .setRes (by simp only [ha, h.bits])
  case mulw rd a =>
    have ha := h.x a List.mem_cons_self
    exact .effect (e := ⟨[.value rd _], some _, none⟩) (e' := ⟨[.value rd _], some _, none⟩)
      (by rw [ha, h.bits, h.imm]) rfl rfl
  case add rd a b | sub rd a b | mul rd a b | and rd a b | or rd a b | xor rd a b =>
    have ha := h.x a List.mem_cons_self
    have hb := h.x b (List.mem_cons_of_mem _ List.mem_cons_self)
    exact .setX rd (by simp only [ha, hb, h.bits])
  case divU rd a d | divS rd a d | modU rd a d | modS rd a d =>
    have ha := h.x a List.mem_cons_self
    have hmem := List.mem_cons_of_mem a (List.mem_cons_self (a := d) (l := []))
    exact h.checkDivisor hmem (.setX rd (by simp only [ha, h.x d hmem, h.bits]))
  case divmodU rd rd2 a d | divmodS rd rd2 a d =>
    have ha := h.x a List.mem_cons_self
    have hmem := List.mem_cons_of_mem a (List.mem_cons_self (a := d) (l := []))
    exact .checkDests (h.checkDivisor hmem
      (.effect (e := ⟨[.value rd _, .value rd2 _], none, none⟩) (e' := ⟨[.value rd _, .value rd2 _], none, none⟩)
        (by rw [ha, h.x d hmem, h.bits]) rfl rfl))
  case cmpU a b | cmpS a b | seqU a b | seqS a b | sneU a b | sneS a b | sltU a b | sltS a b | sleU a b | sleS a b
      | sgtU a b | sgtS a b | sgeU a b | sgeS a b =>
    have ha := h.x a List.mem_cons_self
    have hb := h.x b (List.mem_cons_of_mem _ List.mem_cons_self)
    exact .setRes (by simp only [ha, hb, h.bits])

/-! ### RES and RES2 are read by no command -/

theorem State.raise_withResults (s : State) (f : RegFile) (a b : BitVec 64) (k : Cause) :
    (s.withResults f a b).raise k = (s.raise k).withResults f a b := by
  cases h : s.fault with
  | true => rw [State.raise_of_fault h, State.raise_of_fault (s := s.withResults f a b) h]
  | false => rw [State.raise_of_no_fault h, State.raise_of_no_fault (s := s.withResults f a b) h]; rfl

theorem Effect.apply_withResults (e : Effect) (s : State) (f : RegFile) (a b : BitVec 64) :
    e.apply (s.withResults f a b) =
      (e.apply s).withResults (e.regs.foldl (RegWrite.apply s.bits) f) (e.res.getD a) (e.res2.getD b) := rfl

/-- A command that does not write RES (RES2) leaves it (10_state.md R34). -/
theorem exec_keeps_results {i : Instr} {s t : State} (h : exec i s = .next t) :
    (i.writesRes = false → t.res = s.res) ∧ (i.writesRes2 = false → t.res2 = s.res2) := by
  obtain ⟨k, -, hk⟩ | ⟨f, a, b, hf, hwrites⟩ := exec_cases i s
  · cases hk.symm.trans h
    exact ⟨fun _ => s.raise_res k, fun _ => s.raise_res2 k⟩
  · cases hf.symm.trans h
    exact ⟨hwrites.res, hwrites.res2⟩

/-- A result register ends as the command writes it, or as it was in each run. -/
theorem getD_same_or_kept (w : Option (BitVec 64)) (a b : BitVec 64) :
    w.getD b = w.getD a ∨ w.getD a = a ∧ w.getD b = b := by
  cases w with
  | none => exact .inr ⟨rfl, rfl⟩
  | some v => exact .inl rfl

/-- Settles O5: RES and RES2 are not among what a command reads, so both runs raise the same fault or make the same writes. -/
theorem noCommandReadsResultRegisters : Obligations.NoCommandReadsResultRegisters := by
  intro i s t a b h
  obtain ⟨hres, hres2⟩ := exec_keeps_results h
  refine ⟨hres, hres2, ?_⟩
  have halike : ReadsAlike i s (s.withResults s.regs a b) := ⟨rfl, rfl, fun _ _ => rfl, fun _ _ _ _ => rfl⟩
  obtain ⟨k, hr, hr'⟩ | ⟨e, hr, hr'⟩ := exec_alike halike
  · cases hr.symm.trans h
    refine ⟨_, hr', ?_, .inr ⟨s.raise_res k, State.raise_res ..⟩, .inr ⟨s.raise_res2 k, State.raise_res2 ..⟩⟩
    rw [State.raise_withResults, ← s.raise_regs k]
    rfl
  · cases hr.symm.trans h
    exact ⟨_, hr', rfl, getD_same_or_kept e.res s.res a, getD_same_or_kept e.res2 s.res2 b⟩

/-! ### Registers that agree on their written limbs -/

/-- The two registers have the same written limbs (10_state.md R33), and as many limbs. -/
structure WideReg.Agrees (w w' : WideReg) : Prop where
  length  : w'.limbs.length = w.limbs.length
  written : w'.written = w.written
  limb    : ∀ j, w.isWritten j = true → limbAt w'.limbs j = limbAt w.limbs j

theorem WideReg.Agrees.refl (w : WideReg) : w.Agrees w := ⟨rfl, rfl, fun _ _ => rfl⟩

theorem WideReg.Agrees.isWritten_eq {w w' : WideReg} (h : w.Agrees w') : w'.isWritten = w.isWritten := by
  funext j
  rw [WideReg.isWritten, WideReg.isWritten, h.written]

/-- A register all of whose limbs are written has the same value in both (00_scope.md R15). -/
theorem WideReg.Agrees.clearPad_eq {n : Nat} {w w' : WideReg} (h : w.Agrees w') (hall : w.allWritten n = true) :
    clearPad n w'.limbs = clearPad n w.limbs := by
  have hlimb : ∀ j ∈ List.range (limbCount n), limbAt w'.limbs j = limbAt w.limbs j :=
    fun j hj => h.limb j (List.all_eq_true.1 hall j hj)
  unfold clearPad mkLimbs
  exact List.map_congr_left fun j hj => by rw [hlimb j hj]

theorem limbAt_clearPad_congr {n : Nat} {st st' : Limbs} {j : Nat} (h : limbAt st' j = limbAt st j) :
    limbAt (clearPad n st') j = limbAt (clearPad n st) j := by
  rw [clearPad, clearPad, limbAt_mkLimbs, limbAt_mkLimbs, h]

theorem WideReg.isWritten_setLimb_other (n : Nat) (w : WideReg) {i j : Nat} (v : Limb) (h : i ≠ j) :
    (w.setLimb n j v).isWritten i = w.isWritten i := by
  simp [WideReg.isWritten, WideReg.setLimb, List.getD_eq_getElem?_getD, Ne.symm h]

/-- The limb that WRLIMB writes is the same in both, and it leaves the others (41_storage_bits.md R113). -/
theorem WideReg.Agrees.setLimb {w w' : WideReg} (h : w.Agrees w') (n j : Nat) (v : Limb) :
    (w.setLimb n j v).Agrees (w'.setLimb n j v) := by
  have hset : ∀ i, (w.setLimb n j v).isWritten i = true → limbAt (w'.limbs.set j v) i = limbAt (w.limbs.set j v) i := by
    intro i hi
    by_cases hij : i = j
    · simp [hij, limbAt, List.getElem?_set, h.length]
    · have hother := h.limb i (by rwa [WideReg.isWritten_setLimb_other n w v hij] at hi)
      simpa [limbAt, List.getElem?_set, Ne.symm hij] using hother
  refine ⟨?_, by rw [WideReg.setLimb, WideReg.setLimb, h.written], fun i hi => ?_⟩
  · unfold WideReg.setLimb; dsimp only; split <;> simp [h.length]
  · have := hset i hi
    unfold WideReg.setLimb
    dsimp only
    split
    · exact limbAt_clearPad_congr this
    · exact this

/-- Register files agree if each register does. -/
def RegFile.Agrees (f f' : RegFile) : Prop := ∀ r, (f.get r).Agrees (f'.get r)

theorem RegFile.Agrees.set {f f' : RegFile} (h : f.Agrees f') (rd : Reg) {w w' : WideReg} (hw : w.Agrees w') :
    (f.set rd w).Agrees (f'.set rd w') := by
  intro r
  rw [RegFile.get_set, RegFile.get_set]
  split
  · exact hw
  · exact h r

theorem RegFile.Agrees.apply {f f' : RegFile} (h : f.Agrees f') (n : Nat) (w : RegWrite) :
    (w.apply n f).Agrees (w.apply n f') := by
  cases w with
  | value rd v => exact h.set rd (.refl _)
  | limb rd j v => exact h.set rd ((h rd).setLimb n j v)

theorem RegFile.Agrees.foldl {f f' : RegFile} (h : f.Agrees f') (n : Nat) (ws : List RegWrite) :
    (ws.foldl (RegWrite.apply n) f).Agrees (ws.foldl (RegWrite.apply n) f') := by
  induction ws generalizing f f' with
  | nil => exact h
  | cons w ws ih => exact ih (h.apply n w)

/-! ### States that agree on what the spec specifies -/

/-- `AgreeOnWritten` in the form that every operation of a step keeps: the registers have as many limbs, and RES (RES2) is the same
if `p` (if `q`). -/
inductive State.Agrees (p q : Prop) (s : State) : State → Prop
  | intro {f : RegFile} {a b : BitVec 64} (regs : s.regs.Agrees f) (res : p → a = s.res) (res2 : q → b = s.res2) :
      State.Agrees p q s (s.withResults f a b)

section
variable {p q : Prop} {s s' : State}

/-- Registers of states that keep the invariant have W limbs (10_state.md R30). -/
theorem State.Agrees.of_agreeOnWritten (hinv : s.Inv) (hinv' : s'.Inv) (h : s.AgreeOnWritten s') :
    State.Agrees (s'.res = s.res) (s'.res2 = s.res2) s s' := by
  obtain ⟨⟨f, a, b, rfl⟩, hregs⟩ := h
  refine .intro (fun r => ?_) id id
  obtain ⟨hlen, -⟩ := ((WideReg.wf_iff ..).1 (hinv.regs r)).1
  obtain ⟨hlen', -⟩ := ((WideReg.wf_iff ..).1 (hinv'.regs r)).1
  exact ⟨hlen'.trans hlen.symm, (hregs r).1, (hregs r).2⟩

theorem State.Agrees.agreeOnWritten (h : State.Agrees p q s s') : s.AgreeOnWritten s' := by
  obtain ⟨hregs, -, -⟩ := h
  exact ⟨⟨_, _, _, rfl⟩, fun r => ⟨(hregs r).written, (hregs r).limb⟩⟩

theorem State.Agrees.res_eq (h : State.Agrees p q s s') (hp : p) : s'.res = s.res := by
  obtain ⟨-, hres, -⟩ := h
  exact hres hp

theorem State.Agrees.res2_eq (h : State.Agrees p q s s') (hq : q) : s'.res2 = s.res2 := by
  obtain ⟨-, -, hres2⟩ := h
  exact hres2 hq

theorem State.Agrees.refl (p q : Prop) (s : State) : State.Agrees p q s s :=
  .intro (s := s) (f := s.regs) (fun _ => .refl _) (fun _ => rfl) fun _ => rfl

/-- An update that neither reads nor writes the registers, RES and RES2 keeps the agreement. -/
theorem State.Agrees.map (h : State.Agrees p q s s') (g : State → State)
    (comm : ∀ f a b, g (s.withResults f a b) = (g s).withResults f a b) (regs : (g s).regs = s.regs)
    (res : (g s).res = s.res) (res2 : (g s).res2 = s.res2) : State.Agrees p q (g s) (g s') := by
  obtain ⟨hregs, hres, hres2⟩ := h
  rw [comm]
  refine .intro ?_ ?_ ?_
  · rwa [regs]
  · rwa [res]
  · rwa [res2]

theorem State.Agrees.with_inputs (h : State.Agrees p q s s') (l : List HostEvent) :
    State.Agrees p q { s with inputs := l } { s' with inputs := l } :=
  h.map (fun u => { u with inputs := l }) (fun _ _ _ => rfl) rfl rfl rfl

theorem State.Agrees.out_of_reset (h : State.Agrees p q s s') :
    State.Agrees p q { s with inReset := false } { s' with inReset := false } :=
  h.map (fun u => { u with inReset := false }) (fun _ _ _ => rfl) rfl rfl rfl

/-- An event presented to a block held in reset stays first in the list (70_reset_and_hazards.md R293). -/
theorem State.Agrees.held (h : State.Agrees p q s s') (e : HostEvent) :
    State.Agrees p q { s with inReset := false, inputs := e :: s.inputs } { s' with inReset := false, inputs := e :: s'.inputs } :=
  h.map (fun u => { u with inReset := false, inputs := e :: u.inputs }) (fun _ _ _ => rfl) rfl rfl rfl

theorem State.Agrees.accept (h : State.Agrees p q s s') (c : Command) : State.Agrees p q (s.accept c) (s'.accept c) :=
  h.map (·.accept c) (fun _ _ _ => rfl) rfl rfl rfl

theorem State.Agrees.complete (h : State.Agrees p q s s') : State.Agrees p q s.complete s'.complete :=
  h.map State.complete (fun _ _ _ => rfl) rfl rfl rfl

theorem State.Agrees.raise (h : State.Agrees p q s s') (k : Cause) : State.Agrees p q (s.raise k) (s'.raise k) :=
  h.map (·.raise k) (fun f a b => s.raise_withResults f a b k) (s.raise_regs k) (s.raise_res k) (s.raise_res2 k)

/-- Nothing that an edge of reset leaves depends on a register or a result (10_state.md R45). -/
theorem State.Agrees.resetEdge (h : State.Agrees p q s s') : State.Agrees p q s.resetEdge s'.resetEdge := by
  cases h
  exact .refl p q s.resetEdge

theorem State.Agrees.effect (h : State.Agrees p q s s') (e : Effect) : State.Agrees p q (e.apply s) (e.apply s') := by
  obtain ⟨hregs, hres, hres2⟩ := h
  rw [Effect.apply_withResults]
  exact .intro (hregs.foldl s.bits e.regs) (fun hp => congrArg _ (hres hp)) fun hq => congrArg _ (hres2 hq)

/-! ### A safe step -/

theorem State.Agrees.bits_eq (h : State.Agrees p q s s') : s'.bits = s.bits := by cases h; rfl

theorem State.Agrees.fault_eq (h : State.Agrees p q s s') : s'.fault = s.fault := by cases h; rfl

theorem State.Agrees.inReset_eq (h : State.Agrees p q s s') : s'.inReset = s.inReset := by cases h; rfl

theorem State.Agrees.inputs_eq (h : State.Agrees p q s s') : s'.inputs = s.inputs := by cases h; rfl

theorem State.Agrees.nextInstr_eq (h : State.Agrees p q s s') : s'.nextInstr = s.nextInstr := by cases h; rfl

/-- The safe reads of a command (10_state.md R33): every source whole, and RDLIMB's one limb if its index is in range. -/
theorem State.readsWritten_iff (s : State) (i : Instr) :
    s.readsWritten i = true ↔
      (∀ r ∈ i.sources, (s.regs.get r).allWritten s.bits = true) ∧
      ∀ (r : Reg) (j : BitVec 12), i = .rdlimb r j → j.toNat < limbCount s.bits →
        (s.regs.get r).isWritten j.toNat = true := by
  refine Bool.and_eq_true_iff.trans (and_congr List.all_eq_true ?_)
  cases i with
  | rdlimb r j =>
    rw [Bool.or_eq_true, decide_eq_true_iff, ← not_lt, ← imp_iff_not_or]
    exact ⟨fun h r j hi => by cases hi; exact h, fun h => h r j rfl⟩
  | _ => exact ⟨fun _ _ _ hi => (by cases hi), fun _ => rfl⟩

/-- The written marks are the same in both, so the same reads are safe. -/
theorem State.Agrees.readsWritten (h : State.Agrees p q s s') {i : Instr} (hread : s.readsWritten i = true) :
    s'.readsWritten i = true := by
  obtain ⟨hregs, -, -⟩ := h
  obtain ⟨hsources, hlimb⟩ := (s.readsWritten_iff i).1 hread
  refine (State.readsWritten_iff _ i).2 ⟨fun r hr => ?_, fun r j hi hj => ?_⟩
  · rw [State.withResults_regs, WideReg.allWritten, (hregs r).isWritten_eq]
    exact hsources r hr
  · rw [State.withResults_regs, (hregs r).isWritten_eq]
    exact hlimb r j hi hj

/-- A command that reads written limbs alone reads the same in both (10_state.md R33). -/
theorem State.Agrees.readsAlike (h : State.Agrees p q s s') {i : Instr} (hread : s.readsWritten i = true) :
    ReadsAlike i s s' := by
  obtain ⟨hregs, -, -⟩ := h
  obtain ⟨hsources, hlimb⟩ := (s.readsWritten_iff i).1 hread
  exact
    { bits := rfl
      imm := rfl
      x := fun r hr => (hregs r).clearPad_eq (hsources r hr)
      limb := fun r j hi hj => (hregs r).limb _ (hlimb r j hi hj) }

/-- The same fault, or the same writes, keep the agreement. -/
theorem State.Agrees.answer (h : State.Agrees p q s s') {r r' : Result} (halike : AnswerAlike s s' r r') {t : State}
    (hr : r = .next t) : ∃ t', r' = .next t' ∧ State.Agrees p q t t' := by
  obtain ⟨k, hk, hk'⟩ | ⟨e, he, he'⟩ := halike
  · cases hk.symm.trans hr
    exact ⟨_, hk', h.raise k⟩
  · cases he.symm.trans hr
    exact ⟨_, he', h.effect e⟩

theorem completed_eq_next {r : Result} {t : State} (h : completed r = .next t) : ∃ u, r = .next u ∧ t = u.complete := by
  cases r with
  | next u => cases h; exact ⟨u, rfl, rfl⟩
  | fault | refused => cases h

/-- A command whose reads are safe runs alike in both: discarded, refused by the decoder, or executed. -/
theorem State.Agrees.runCommand (h : State.Agrees p q s s') {c : Command}
    (hread : s.fault = false → ∀ i, decode c.cmd = .instr i → s.readsWritten i = true) {t : State}
    (hrun : s.runCommand c = .next t) : ∃ t', s'.runCommand c = .next t' ∧ State.Agrees p q t t' := by
  have haccept := h.accept c
  cases hfault : s.fault with
  | true =>
    cases (State.runCommand_of_fault hfault c).symm.trans hrun
    exact ⟨_, State.runCommand_of_fault (h.fault_eq.trans hfault) c, haccept.complete⟩
  | false =>
    have hfault' : s'.fault = false := h.fault_eq.trans hfault
    cases hd : decode c.cmd with
    | illegal why =>
      cases (State.runCommand_of_illegal hfault hd).symm.trans hrun
      exact ⟨_, State.runCommand_of_illegal hfault' hd, (haccept.raise .illegal).complete⟩
    | instr i =>
      obtain ⟨u, hu, rfl⟩ := completed_eq_next ((State.runCommand_of_instr hfault hd).symm.trans hrun)
      obtain ⟨u', hu', hagree⟩ := haccept.answer (exec_alike (haccept.readsAlike (hread hfault i hd))) hu
      exact ⟨u'.complete, (State.runCommand_of_instr hfault' hd).trans (congrArg completed hu'), hagree.complete⟩

/-- No read of an unwritten limb is up next, and in the fault state only reset is (93 U1, U2). -/
structure State.SafeNext (s : State) : Prop where
  noFault : (s.fault && !(s.inputs.head?.elim false HostEvent.resets)) = false
  written : ∀ i, s.nextInstr = some i → s.readsWritten i = true

theorem strictStep_eq_next_iff {t : State} : Safety.strictStep s = .next t ↔ s.SafeNext ∧ step s = .next t := by
  have helim : (s.nextInstr.elim false fun i => !s.readsWritten i) = false ↔
      ∀ i, s.nextInstr = some i → s.readsWritten i = true := by
    cases s.nextInstr <;> simp
  unfold Safety.strictStep
  split
  · rename_i hf
    exact ⟨(by intro h; cases h), fun h => absurd (hf.symm.trans h.1.noFault) (by decide)⟩
  · rename_i hf
    split
    · rename_i hu
      exact ⟨(by intro h; cases h), fun h => absurd (hu.symm.trans (helim.2 h.1.written)) (by decide)⟩
    · rename_i hu
      exact ⟨fun h => ⟨⟨Bool.eq_false_iff.2 hf, helim.1 (Bool.eq_false_iff.2 hu)⟩, h⟩, And.right⟩

theorem State.Agrees.safeNext (h : State.Agrees p q s s') (hsafe : s.SafeNext) : s'.SafeNext where
  noFault := by rw [h.fault_eq, h.inputs_eq]; exact hsafe.noFault
  written i hi := h.readsWritten (hsafe.written i (h.nextInstr_eq.symm.trans hi))

theorem State.nextInstr_of_command {c : Command} {rest : List HostEvent} (hi : s.inputs = .command c :: rest)
    (out : s.inReset = false) (noFault : s.fault = false) {i : Instr} (hd : decode c.cmd = .instr i) :
    s.nextInstr = some i := by
  simp [State.nextInstr, hi, out, noFault, hd]

/-- One event keeps the agreement, if the command it presents reads safely. -/
theorem State.Agrees.edge (h : State.Agrees p q s s') {e : HostEvent}
    (hread : ∀ c, e = .command c → s.inReset = false → s.fault = false →
      ∀ i, decode c.cmd = .instr i → s.readsWritten i = true) {t : State} (hedge : s.edge e = .next t) :
    ∃ t', s'.edge e = .next t' ∧ State.Agrees p q t t' := by
  cases e with
  | reset => cases hedge; exact ⟨_, rfl, h.resetEdge⟩
  | idle => cases hedge; exact ⟨_, rfl, h.out_of_reset⟩
  | hostRead addr => cases hedge; exact ⟨_, rfl, h⟩
  | command c =>
    rw [State.edge_command] at hedge ⊢
    rw [h.inReset_eq]
    split at hedge
    · rename_i held
      cases hedge
      exact ⟨_, if_pos held, h.held _⟩
    · rename_i out
      rw [if_neg out]
      exact h.runCommand (hread c rfl (Bool.eq_false_iff.2 out)) hedge
  | commandAbandoned c =>
    rw [State.edge_commandAbandoned] at hedge ⊢
    rw [h.inReset_eq]
    split at hedge
    · rename_i held
      cases hedge
      exact ⟨_, if_pos held, h.held _⟩
    · rename_i out
      cases hedge
      exact ⟨_, if_neg out, (h.accept c).resetEdge⟩

/-- A safe step keeps the agreement. -/
theorem State.Agrees.step (h : State.Agrees p q s s') (hsafe : s.SafeNext) {t : State} (hstep : step s = .next t) :
    ∃ t', Machine.step s' = .next t' ∧ State.Agrees p q t t' := by
  have hw := widthOk_of_step hstep
  have hw' : widthOk s'.bits = true := by rw [h.bits_eq]; exact hw
  by_cases hi : s.inputs = []
  · cases (step_of_no_inputs hw hi).symm.trans hstep
    exact ⟨_, step_of_no_inputs hw' (h.inputs_eq.trans hi), h.out_of_reset⟩
  · obtain ⟨e, rest, hcons⟩ := List.exists_cons_of_ne_nil hi
    rw [step_of_inputs hw hcons] at hstep
    rw [step_of_inputs hw' (h.inputs_eq.trans hcons)]
    refine (h.with_inputs rest).edge (fun c hc out noFault i hd => ?_) hstep
    exact hsafe.written i (State.nextInstr_of_command (s := s) (hc ▸ hcons) out noFault hd)

end

/-- Settles O59: the agreement implies that the same steps are safe, and a safe step keeps it. -/
theorem unwrittenLimbsNeverShow : Obligations.UnwrittenLimbsNeverShow := by
  intro s s' t hinv hinv' hagree hstrict
  obtain ⟨hsafe, hstep⟩ := strictStep_eq_next_iff.1 hstrict
  have h := State.Agrees.of_agreeOnWritten hinv hinv' hagree
  obtain ⟨t', hstep', ht⟩ := h.step hsafe hstep
  exact ⟨t', strictStep_eq_next_iff.2 ⟨h.safeNext hsafe, hstep'⟩, ht.agreeOnWritten, ht.res_eq, ht.res2_eq⟩

end Sys2Proof.Machine
end

section
/-! The memory statement (20_memory.md): what a host read and RDLIMB leave unchanged. -/

namespace Sys2Proof.Machine

/-- While BUSY = 0 a host read answers the host register's content, whatever its draw (10_state.md R46). -/
theorem State.hregData_of_not_busy {s : State} (h : s.busy = false) (draw : Nat) (addr : BitVec 3) :
    s.hregData draw addr = s.hostReg addr :=
  if_neg (Bool.eq_false_iff.1 h)

/-- A step on a host read takes the read off the host's list (20_memory.md R66). -/
theorem step_of_hostRead {s : State} {a : BitVec 3} {rest : List HostEvent} (h : widthOk s.bits = true)
    (hi : s.inputs = .hostRead a :: rest) : step s = .next { s with inputs := rest } :=
  (step_of_inputs h hi).trans rfl

/-- RDLIMB with an index in range writes the limb to RES (41_storage_bits.md R114). -/
theorem exec_rdlimb_of_lt {s : State} {j : BitVec 12} (h : j.toNat < limbCount s.bits) (r : Reg) :
    exec (.rdlimb r j) s = .next (s.setRes (s.limb r j.toNat)) :=
  State.checkLimb_of_lt h _

/-- RDLIMB with an index out of range is a fault entry (41_storage_bits.md R112). -/
theorem exec_rdlimb_of_ge {s : State} {j : BitVec 12} (h : limbCount s.bits ≤ j.toNat) (r : Reg) :
    exec (.rdlimb r j) s = .next (s.raise .limbIndex) :=
  State.checkLimb_of_ge h _

/-- Settles O10: a host read touches the host's list alone, which no host register reads, and RDLIMB splits on its limb index. -/
theorem hostReadHasNoSideEffect : Obligations.HostReadHasNoSideEffect := by
  intro s a rest hwidth hread
  refine ⟨step_of_hostRead hwidth hread, fun hbusy draw draw' => ?_, fun r j => ?_⟩
  · calc s.hregData draw a
        = s.hostReg a := State.hregData_of_not_busy hbusy draw a
      _ = ({ s with inputs := rest } : State).hostReg a := rfl
      _ = ({ s with inputs := rest } : State).hregData draw' a :=
          (State.hregData_of_not_busy (s := { s with inputs := rest }) hbusy draw' a).symm
  · obtain hj | hj := lt_or_ge j.toNat (limbCount s.bits)
    · exact .inl ⟨_, exec_rdlimb_of_lt hj r⟩
    · exact .inr (exec_rdlimb_of_ge hj r)

end Sys2Proof.Machine
end

section
/-! The encoding statements (30_encoding.md). Two rows of the opcode map differ in a bit that both masks keep, so a CMD selects at most
one row and the decoder finds it: decoding and encoding invert each other. A reserved CMD is no command's encoding. -/

namespace Sys2Proof

/-! ### The rows of the opcode map do not overlap (R87) -/

/-- Under both masks the rows' patterns differ. -/
def Row.Apart (a b : Row) : Prop := b.mask &&& a.pattern ≠ a.mask &&& b.pattern

/-- A CMD that selects both rows agrees with each pattern under both masks. -/
theorem Row.Apart.not_selects_both {a b : Row} (h : a.Apart b) (w : CmdWord) :
    ¬(a.selects w = true ∧ b.selects w = true) := by
  rintro ⟨ha, hb⟩
  have ha : w &&& a.mask = a.pattern := beq_iff_eq.1 ha
  have hb : w &&& b.mask = b.pattern := beq_iff_eq.1 hb
  apply h
  rw [← ha, ← hb]
  ac_rfl

theorem opcodeMap_pairwise_apart : opcodeMap.Pairwise Row.Apart := by
  unfold Row.Apart
  decide

/-- Settles O14: any two rows are apart. -/
theorem opcodeMapRowsDoNotOverlap : Obligations.OpcodeMapRowsDoNotOverlap :=
  ⟨rfl, opcodeMap_pairwise_apart.imp Row.Apart.not_selects_both⟩

/-! ### The decoder by the row (R91) -/

/-- The row found is the row selected: the rows before it are apart from it. -/
theorem rowOf_eq_some_iff {w : CmdWord} {r : Row} : rowOf w = some r ↔ r ∈ opcodeMap ∧ r.selects w = true := by
  refine ⟨fun h => ⟨List.mem_of_find?_eq_some h, List.find?_some (p := (Row.selects · w)) h⟩, fun ⟨hr, hsel⟩ => ?_⟩
  obtain ⟨before, after, hmap⟩ := List.append_of_mem hr
  have hpairs := opcodeMapRowsDoNotOverlap.2
  rw [hmap, List.pairwise_append] at hpairs
  obtain ⟨-, -, hbefore⟩ := hpairs
  refine List.find?_eq_some_iff_append.2 ⟨hsel, before, after, hmap, fun a ha => ?_⟩
  have hdisjoint := hbefore a ha r List.mem_cons_self w
  simpa [hsel] using hdisjoint

/-- A row that the CMD selects decides what it decodes to: the row's command, or the check of R90. -/
theorem decode_of_selects {w : CmdWord} {r : Row} (hr : r ∈ opcodeMap) (h : r.selects w = true) :
    decode w =
      if (r.build (Fields.ofWord w)).wf then .instr (r.build (Fields.ofWord w)) else .illegal .sameDestination := by
  rw [decode, rowOf_eq_some_iff.2 ⟨hr, h⟩]

/-- A decoded command is the one that a selected row builds. -/
theorem selects_of_decode {w : CmdWord} {i : Instr} (h : decode w = .instr i) :
    ∃ r ∈ opcodeMap, r.selects w = true ∧ r.build (Fields.ofWord w) = i := by
  unfold decode at h
  split at h
  · cases h
  · rename_i r hrow
    obtain ⟨hr, hsel⟩ := rowOf_eq_some_iff.1 hrow
    refine ⟨r, hr, hsel, ?_⟩
    dsimp only at h
    split at h
    · exact Decoded.instr.inj h
    · cases h

/-- A decoded command's fields are the CMD's (R84). -/
theorem fields_of_decode {w : CmdWord} {i : Instr} (h : decode w = .instr i) : i.fields = Fields.ofWord w := by
  obtain ⟨r, hr, hsel, rfl⟩ := selects_of_decode h
  exact Row.fields_build hr hsel

/-- Settles O13: laying out the decoded command's fields gives the CMD back. -/
theorem encodeOfDecodeIsTheWord : Obligations.EncodeOfDecodeIsTheWord := by
  intro w i h
  refine ⟨?_, Machine.wf_of_decode h⟩
  rw [encode, fields_of_decode h, Fields.toWord_ofWord]

/-! ### The encoder by the row (R81, R87) -/

/-- Every command's word selects a row that builds the command back. -/
theorem encodes (i : Instr) : Laws.Encodes.Statement i := by
  cases i with
  | ldU rd => exact Laws.Encodes.ldU rd
  | ldS rd => exact Laws.Encodes.ldS rd
  | mov rd rs1 => exact Laws.Encodes.mov rd rs1
  | wrlimb rd j => exact Laws.Encodes.wrlimb rd j
  | rdlimb rs1 j => exact Laws.Encodes.rdlimb rs1 j
  | getbit rs1 => exact Laws.Encodes.getbit rs1
  | setbit rd rs1 => exact Laws.Encodes.setbit rd rs1
  | bitaddr => exact Laws.Encodes.bitaddr
  | add rd rs1 rs2 => exact Laws.Encodes.add rd rs1 rs2
  | addiU rd rs1 => exact Laws.Encodes.addiU rd rs1
  | addiS rd rs1 => exact Laws.Encodes.addiS rd rs1
  | sub rd rs1 rs2 => exact Laws.Encodes.sub rd rs1 rs2
  | subiU rd rs1 => exact Laws.Encodes.subiU rd rs1
  | subiS rd rs1 => exact Laws.Encodes.subiS rd rs1
  | neg rd rs1 => exact Laws.Encodes.neg rd rs1
  | mul rd rs1 rs2 => exact Laws.Encodes.mul rd rs1 rs2
  | muliU rd rs1 => exact Laws.Encodes.muliU rd rs1
  | muliS rd rs1 => exact Laws.Encodes.muliS rd rs1
  | mulw rd rs1 => exact Laws.Encodes.mulw rd rs1
  | divU rd rs1 rs2 => exact Laws.Encodes.divU rd rs1 rs2
  | divS rd rs1 rs2 => exact Laws.Encodes.divS rd rs1 rs2
  | modU rd rs1 rs2 => exact Laws.Encodes.modU rd rs1 rs2
  | modS rd rs1 rs2 => exact Laws.Encodes.modS rd rs1 rs2
  | divmodU rd rd2 rs1 rs2 => exact Laws.Encodes.divmodU rd rd2 rs1 rs2
  | divmodS rd rd2 rs1 rs2 => exact Laws.Encodes.divmodS rd rd2 rs1 rs2
  | shl rd rs1 => exact Laws.Encodes.shl rd rs1
  | shrU rd rs1 => exact Laws.Encodes.shrU rd rs1
  | shrS rd rs1 => exact Laws.Encodes.shrS rd rs1
  | cmpU rs1 rs2 => exact Laws.Encodes.cmpU rs1 rs2
  | cmpS rs1 rs2 => exact Laws.Encodes.cmpS rs1 rs2
  | seqU rs1 rs2 => exact Laws.Encodes.seqU rs1 rs2
  | seqS rs1 rs2 => exact Laws.Encodes.seqS rs1 rs2
  | sneU rs1 rs2 => exact Laws.Encodes.sneU rs1 rs2
  | sneS rs1 rs2 => exact Laws.Encodes.sneS rs1 rs2
  | sltU rs1 rs2 => exact Laws.Encodes.sltU rs1 rs2
  | sltS rs1 rs2 => exact Laws.Encodes.sltS rs1 rs2
  | sleU rs1 rs2 => exact Laws.Encodes.sleU rs1 rs2
  | sleS rs1 rs2 => exact Laws.Encodes.sleS rs1 rs2
  | sgtU rs1 rs2 => exact Laws.Encodes.sgtU rs1 rs2
  | sgtS rs1 rs2 => exact Laws.Encodes.sgtS rs1 rs2
  | sgeU rs1 rs2 => exact Laws.Encodes.sgeU rs1 rs2
  | sgeS rs1 rs2 => exact Laws.Encodes.sgeS rs1 rs2
  | isnegU rs1 => exact Laws.Encodes.isnegU rs1
  | isnegS rs1 => exact Laws.Encodes.isnegS rs1
  | and rd rs1 rs2 => exact Laws.Encodes.and rd rs1 rs2
  | or rd rs1 rs2 => exact Laws.Encodes.or rd rs1 rs2
  | xor rd rs1 rs2 => exact Laws.Encodes.xor rd rs1 rs2
  | not rd rs1 => exact Laws.Encodes.not rd rs1
  | clz rs1 => exact Laws.Encodes.clz rs1

/-- Of a command's own word the decoder refuses only what the check of R90 refuses. -/
theorem decode_encode (i : Instr) : decode (encode i) = if i.wf then .instr i else .illegal .sameDestination := by
  obtain ⟨r, hr, hsel, -, hbuild⟩ := encodes i
  rw [decode_of_selects hr hsel, hbuild]

/-- Settles O12: a command's word selects its own row and no other. -/
theorem decodeOfEncodeIsTheCommand : Obligations.DecodeOfEncodeIsTheCommand := by
  intro i h
  rw [decode_encode, if_pos h]

theorem decode_of_encode_eq {w : CmdWord} {i : Instr} (hw : encode i = w) (hwf : i.wf = true) : decode w = .instr i :=
  hw ▸ decodeOfEncodeIsTheCommand i hwf

/-- Settles O11: each word is the encoding of its command. -/
theorem specExampleWordsDecode : Obligations.SpecExampleWordsDecode := by
  refine ⟨?_, ?_, ?_, ?_, ?_, ?_, ?_, ?_, ?_, ?_, ?_, ?_⟩ <;> exact decode_of_encode_eq rfl rfl

theorem encode_divmodU (rd rd2 rs1 rs2 : Reg) :
    encode (.divmodU rd rd2 rs1 rs2) =
      0x3C000000 ||| rd.field 21 ||| rs1.field 18 ||| rs2.field 15 ||| rd2.field 12 := by
  rw [encode, Fields.toWord_eq_or]
  simp [Instr.fields, Reg.field]

theorem encode_divmodS (rd rd2 rs1 rs2 : Reg) :
    encode (.divmodS rd rd2 rs1 rs2) =
      0x3E000000 ||| rd.field 21 ||| rs1.field 18 ||| rs2.field 15 ||| rd2.field 12 := by
  rw [encode, Fields.toWord_eq_or]
  simp [Instr.fields, Reg.field]

/-! ### Reserved encodings (R88, R89) -/

/-- Opcode 0x00 and opcodes from 0x1A are reserved (R88), and under opcode 0x13 so are f3 of 6 and 7 (R89). -/
def Fields.Reserved (f : Fields) : Prop :=
  f.op.toNat = 0 ∨ 0x1A ≤ f.op.toNat ∨ (f.op.toNat = 0x13 ∧ 6 ≤ f.f3.toNat)

/-- The commands' opcodes are 0x01 to 0x19 (R87) and the conditions of opcode 0x13 are 0 to 5 (R89). -/
theorem Instr.fields_not_reserved (i : Instr) : ¬i.fields.Reserved := by
  cases i <;> simp [Instr.fields, Fields.Reserved]

theorem decode_of_reserved {w : CmdWord} (h : (Fields.ofWord w).Reserved) : ∃ why, decode w = .illegal why := by
  cases hd : decode w with
  | illegal why => exact ⟨why, rfl⟩
  | instr i => exact absurd (fields_of_decode hd ▸ h) i.fields_not_reserved

end Sys2Proof

namespace Sys2Proof.Machine

/-! ### The step on a decoded CMD (R91) -/

theorem step_of_ready_eq_runCommand {s : State} {c : Command} {rest : List HostEvent} (h : s.Ready c rest) :
    step s = ({ s with inputs := rest } : State).runCommand c := by
  rw [step_of_inputs h.width h.presented, State.edge_command, if_neg (Bool.eq_false_iff.1 h.outOfReset)]

theorem step_of_ready_instr {s : State} {c : Command} {rest : List HostEvent} {i : Instr} (h : s.Ready c rest)
    (hd : decode c.cmd = .instr i) :
    step s = completed (exec i (({ s with inputs := rest } : State).accept c)) :=
  (step_of_ready_eq_runCommand h).trans (State.runCommand_of_instr (s := { s with inputs := rest }) h.noFault hd)

/-- A ready block that takes an illegal CMD records ILLEGAL and changes nothing else (60_exceptions.md R262). -/
theorem step_of_ready_illegal {s : State} {c : Command} {rest : List HostEvent} {why : Illegal} (h : s.Ready c rest)
    (hd : decode c.cmd = .illegal why) : step s = .next (s.faulted c rest .illegal) := by
  have hfault : ({ s with inputs := rest } : State).fault = false := h.noFault
  have haccept : (({ s with inputs := rest } : State).accept c).fault = false := hfault
  calc step s
      = ({ s with inputs := rest } : State).runCommand c := step_of_ready_eq_runCommand h
    _ = .next ((({ s with inputs := rest } : State).accept c).raise .illegal).complete :=
        State.runCommand_of_illegal hfault hd
    _ = .next (s.faulted c rest .illegal) := by rw [State.raise_of_no_fault haccept]; rfl

/-- Settles O15: the decoder answers illegal. -/
theorem reservedEncodingsRaiseIllegal : Obligations.ReservedEncodingsRaiseIllegal := by
  intro s c rest hready hreserved
  obtain ⟨why, hd⟩ := decode_of_reserved (w := c.cmd) hreserved
  exact step_of_ready_illegal hready hd

/-- Settles O16: the word encodes a DIVMOD that is not well formed, so it selects that command's row. -/
theorem divmodWithOneDestinationRaisesIllegal : Obligations.DivmodWithOneDestinationRaisesIllegal := by
  intro s c rest rd rs1 rs2 hready hcmd
  have hencodes : ∃ i : Instr, encode i = c.cmd ∧ i.wf = false := by
    obtain hU | hS := hcmd
    · exact ⟨_, (encode_divmodU rd rd rs1 rs2).trans hU.symm, bne_self_eq_false rd⟩
    · exact ⟨_, (encode_divmodS rd rd rs1 rs2).trans hS.symm, bne_self_eq_false rd⟩
  obtain ⟨i, hi, hwf⟩ := hencodes
  obtain ⟨r, hr, hsel, -⟩ := encodes i
  have hd : decode c.cmd = .illegal .sameDestination := by
    rw [← hi, decode_encode, if_neg (Bool.eq_false_iff.1 hwf)]
  exact ⟨⟨r, hr, hi ▸ hsel⟩, step_of_ready_illegal hready hd⟩

/-- Settles O56: acceptance, `exec` and completion, written out. -/
theorem stepRunsTheDecodedCommand : Obligations.StepRunsTheDecodedCommand := by
  intro s c rest i hready hd
  exact (step_of_ready_instr hready hd).trans rfl

end Sys2Proof.Machine
end

section
/-! The storage statements (41_storage_bits.md). One equation for each outcome of each command: its result, or the fault entry of a
failed operand check. The results' bits come from the laws of the storage. -/

namespace Sys2Proof

/-! ### CMD words (the "Encoding" lines of R110 to R118) -/

/-- A command's CMD is the OR of its fields at their positions (30_encoding.md R81). -/
theorem encode_eq_or (i : Instr) :
    encode i = i.fields.op.setWidth 32 <<< 26 ||| i.fields.s.setWidth 32 <<< 25 ||| i.fields.x.setWidth 32 <<< 24
      ||| i.fields.rd.setWidth 32 <<< 21 ||| i.fields.rs1.setWidth 32 <<< 18 ||| i.fields.rs2.setWidth 32 <<< 15
      ||| i.fields.f3.setWidth 32 <<< 12 ||| i.fields.j.setWidth 32 :=
  Fields.toWord_eq_or i.fields

theorem encode_ldU (rd : Reg) : encode (.ldU rd) = 0x04000000 ||| rd.field 21 := by
  simp [encode_eq_or, Instr.fields, Reg.field]

theorem encode_ldS (rd : Reg) : encode (.ldS rd) = 0x06000000 ||| rd.field 21 := by
  simp [encode_eq_or, Instr.fields, Reg.field]

theorem encode_mov (rd rs1 : Reg) : encode (.mov rd rs1) = 0x08000000 ||| rd.field 21 ||| rs1.field 18 := by
  simp [encode_eq_or, Instr.fields, Reg.field]

theorem encode_wrlimb (rd : Reg) (j : BitVec 12) :
    encode (.wrlimb rd j) = 0x0C000000 ||| rd.field 21 ||| j.setWidth 32 := by
  simp [encode_eq_or, Instr.fields, Reg.field]

theorem encode_rdlimb (rs1 : Reg) (j : BitVec 12) :
    encode (.rdlimb rs1 j) = 0x10000000 ||| rs1.field 18 ||| j.setWidth 32 := by
  simp [encode_eq_or, Instr.fields, Reg.field]

theorem encode_getbit (rs1 : Reg) : encode (.getbit rs1) = 0x14000000 ||| rs1.field 18 := by
  simp [encode_eq_or, Instr.fields, Reg.field]

theorem encode_setbit (rd rs1 : Reg) : encode (.setbit rd rs1) = 0x18000000 ||| rd.field 21 ||| rs1.field 18 := by
  simp [encode_eq_or, Instr.fields, Reg.field]

theorem encode_bitaddr : encode .bitaddr = 0x1C000000 := by decide

end Sys2Proof

namespace Sys2Proof.Machine

/-! ### A failed operand check with FAULT = 0 -/

/-- A limb index out of range records LIMB_INDEX and changes nothing else (R112; 60_exceptions.md R262). -/
theorem State.checkLimb_records {s : State} {j : BitVec 12} (hj : limbCount s.bits ≤ j.toNat) (hf : s.fault = false)
    (k : Result) :
    s.checkLimb j k = .next { s with fault := true, cause := .limbIndex, faultCmd := s.cmd, faultImm := s.imm } := by
  rw [State.checkLimb_of_ge hj, State.raise_of_no_fault hf]

/-- A bit position out of range records BIT_INDEX and changes nothing else (R115; 60_exceptions.md R262). -/
theorem State.checkBit_records {s : State} (hp : s.bits ≤ s.imm.toNat) (hf : s.fault = false) (k : Result) :
    s.checkBit k = .next { s with fault := true, cause := .bitIndex, faultCmd := s.cmd, faultImm := s.imm } := by
  rw [State.checkBit_of_ge hp, State.raise_of_no_fault hf]

/-! ### LD.U, LD.S and MOV -/

theorem exec_ldU (rd : Reg) (s : State) : exec (.ldU rd) s = .next (s.withX rd s.imm.toNat) := by
  rw [State.withX_eq_setX]; rfl

theorem exec_ldS (rd : Reg) (s : State) : exec (.ldS rd) s = .next (s.withX rd s.imm.toInt) := by
  rw [State.withX_eq_setX]; rfl

/-- Settles O17: IMM's unsigned or signed value is what `zext_N` or `sext_N` is `bv_N` of. -/
theorem loadExtendsTheNativeInteger : Obligations.LoadExtendsTheNativeInteger :=
  fun rd s => ⟨encode_ldU rd, encode_ldS rd, exec_ldU rd s, exec_ldS rd s⟩

theorem exec_mov (rd rs1 : Reg) (s : State) : exec (.mov rd rs1) s = .next (s.withX rd (s.u rs1)) := by
  rw [State.withX_eq_setX, ← State.x_eq_bvN]; rfl

/-- Settles O18: the N-bit value is `bv_N` of its own unsigned reading. -/
theorem moveCopiesTheValue : Obligations.MoveCopiesTheValue :=
  fun rd rs1 s => ⟨encode_mov rd rs1, exec_mov rd rs1 s⟩

/-! ### WRLIMB and RDLIMB -/

theorem exec_wrlimb_of_lt {s : State} {j : BitVec 12} (h : j.toNat < limbCount s.bits) (rd : Reg) :
    exec (.wrlimb rd j) s =
      .next { s with regs := s.regs.set rd ((s.regs.get rd).setLimb s.bits j.toNat s.imm) } :=
  State.checkLimb_of_lt h _

theorem WideReg.isWritten_setLimb_same (n : Nat) {w : WideReg} {j : Nat} (hj : j < w.written.length) (v : Limb) :
    (w.setLimb n j v).isWritten j = true := by
  simp [WideReg.isWritten, WideReg.setLimb, hj]

/-- WRLIMB marks the limb it writes and no other (R113; 10_state.md R33). -/
theorem WideReg.isWritten_setLimb (n : Nat) {w : WideReg} {j : Nat} (hj : j < w.written.length) (v : Limb) (i : Nat) :
    (w.setLimb n j v).isWritten i = (i == j || w.isWritten i) := by
  by_cases hij : i = j
  · rw [hij, WideReg.isWritten_setLimb_same n hj, beq_self_eq_true, Bool.true_or]
  · rw [WideReg.isWritten_setLimb_other n w v hij, beq_false_of_ne hij, Bool.false_or]

/-- Settles O19: the register's bits and marks after WRLIMB, which leaves it canonical, or the failed limb check. -/
theorem writeLimbReplacesOneLimb : Obligations.WriteLimbReplacesOneLimb := by
  intro rd j s hwf
  refine ⟨encode_wrlimb rd j, fun hj hf => State.checkLimb_records hj hf _, fun hj => ?_⟩
  obtain ⟨-, hmarks⟩ := (WideReg.wf_iff s.bits _).1 hwf
  obtain ⟨⟨hlimbs', -⟩, hmarks'⟩ := (WideReg.wf_iff s.bits _).1 (WideReg.wf_setLimb hwf hj s.imm)
  exact ⟨_, exec_wrlimb_of_lt hj rd, hlimbs', WideReg.bitAt_setLimb hwf hj s.imm, hmarks',
    WideReg.isWritten_setLimb s.bits (hmarks ▸ hj) s.imm⟩

/-- Limb j of a canonical register reads 0 in the padding (R114; 10_state.md R32). -/
theorem State.getLsbD_limb_of_le {s : State} {r : Reg} (h : (s.regs.get r).wf s.bits = true) {j b : Nat}
    (hb : s.bits ≤ 64 * j + b) : (s.limb r j).getLsbD b = false := by
  obtain hlt | hge := Nat.lt_or_ge b 64
  · rw [State.limb, ← bitAt_limb _ hlt]
    exact WideReg.bitAt_of_le h hb
  · exact BitVec.getLsbD_of_ge _ _ hge

/-- Settles O20: RES takes the limb of the storage, whose padding is 0, or the limb check fails. -/
theorem readLimbWritesResult : Obligations.ReadLimbWritesResult := by
  intro rs1 j s hwf
  refine ⟨encode_rdlimb rs1 j, fun hj hf => State.checkLimb_records hj hf _, fun hj => ?_⟩
  exact ⟨_, exec_rdlimb_of_lt hj rs1, fun b hb => (bitAt_limb _ hb).symm, fun b hb => State.getLsbD_limb_of_le hwf hb⟩

/-! ### GETBIT, SETBIT and BITADDR -/

theorem setWidth_ofBool_eq_ite (b : Bool) : (BitVec.ofBool b).setWidth 64 = if b then 1 else 0 := by
  cases b <;> rfl

theorem exec_getbit_of_lt {s : State} (h : s.imm.toNat < s.bits) (rs1 : Reg) :
    exec (.getbit rs1) s = .next { s with res := if (s.u rs1).testBit s.imm.toNat then 1 else 0 } := by
  rw [State.u, testBit_uval, ← setWidth_ofBool_eq_ite]
  exact State.checkBit_of_lt h _

/-- Settles O21: bit pos of the storage is bit pos of the value, or the position check fails. -/
theorem getBitWritesResult : Obligations.GetBitWritesResult :=
  fun rs1 _ => ⟨encode_getbit rs1, fun hp hf => State.checkBit_records hp hf _, fun hp => exec_getbit_of_lt hp rs1⟩

/-- Setting a bit of an N-bit value: OR with its weight (R117). -/
theorem Canonical.setBit_eq {n : Nat} {st : Limbs} (h : Canonical n st) {p : Nat} (hp : p < n) :
    setBit st p = bvN n ((uval st ||| 2 ^ p : Nat) : Int) := by
  have hlen : p < 64 * st.length := h.1.symm ▸ hp.trans_le (le_storage n)
  apply (canonical_setBit h hp).eq_bvN
  congr 2
  apply Nat.eq_of_testBit_eq
  intro q
  rw [testBit_uval, bitAt_setBit hlen, Nat.testBit_or, testBit_uval, Nat.testBit_two_pow, Bool.or_comm,
    decide_eq_decide.2 (eq_comm (a := q) (b := p))]

theorem exec_setbit_of_lt {s : State} (h : s.imm.toNat < s.bits) (rd rs1 : Reg) :
    exec (.setbit rd rs1) s = .next (s.withX rd ((s.u rs1 ||| 2 ^ s.imm.toNat : Nat) : Int)) := by
  rw [State.withX_eq_setX, State.u, ← (canonical_x s rs1).setBit_eq h]
  exact State.checkBit_of_lt h _

/-- Settles O22: the storage with bit pos set is `bv_N` of the value with bit pos set, or the position check fails. -/
theorem setBitSetsOneBit : Obligations.SetBitSetsOneBit :=
  fun rd rs1 _ =>
    ⟨encode_setbit rd rs1, fun hp hf => State.checkBit_records hp hf _, fun hp => exec_setbit_of_lt hp rd rs1⟩

/-- Settles O23: BITADDR checks nothing, so it has one outcome, the two indices of 00_scope.md R11. -/
theorem bitAddressSplitsThePosition : Obligations.BitAddressSplitsThePosition :=
  fun _ => ⟨encode_bitaddr, rfl⟩

end Sys2Proof.Machine
end

section
/-! The addition, subtraction and negation statements (42_addsub.md). An engine maps residues modulo 2^N to the residue of the
integer result, so every view of an operand (u, s, an extended IMM) gives a closed form of the same destination. -/

namespace Sys2Proof

/-! ### CMD words (the "Encoding" lines of R142 to R146) -/

theorem encode_add (rd rs1 rs2 : Reg) :
    encode (.add rd rs1 rs2) = 0x20000000 ||| rd.field 21 ||| rs1.field 18 ||| rs2.field 15 := by
  simp [encode_eq_or, Instr.fields, Reg.field]

theorem encode_addiU (rd rs1 : Reg) : encode (.addiU rd rs1) = 0x21000000 ||| rd.field 21 ||| rs1.field 18 := by
  simp [encode_eq_or, Instr.fields, Reg.field]

theorem encode_addiS (rd rs1 : Reg) : encode (.addiS rd rs1) = 0x23000000 ||| rd.field 21 ||| rs1.field 18 := by
  simp [encode_eq_or, Instr.fields, Reg.field]

theorem encode_sub (rd rs1 rs2 : Reg) :
    encode (.sub rd rs1 rs2) = 0x24000000 ||| rd.field 21 ||| rs1.field 18 ||| rs2.field 15 := by
  simp [encode_eq_or, Instr.fields, Reg.field]

theorem encode_subiU (rd rs1 : Reg) : encode (.subiU rd rs1) = 0x25000000 ||| rd.field 21 ||| rs1.field 18 := by
  simp [encode_eq_or, Instr.fields, Reg.field]

theorem encode_subiS (rd rs1 : Reg) : encode (.subiS rd rs1) = 0x27000000 ||| rd.field 21 ||| rs1.field 18 := by
  simp [encode_eq_or, Instr.fields, Reg.field]

theorem encode_neg (rd rs1 : Reg) : encode (.neg rd rs1) = 0x28000000 ||| rd.field 21 ||| rs1.field 18 := by
  simp [encode_eq_or, Instr.fields, Reg.field]

end Sys2Proof

namespace Sys2Proof.Machine

/-! ### The engines on residues modulo 2^N -/

/-- `add_limbs` of two residues is the residue of the sum (R140; 00_scope.md R13). -/
theorem addLimbs_bvN (n : Nat) (k l : Int) : addLimbs n (bvN n k) (bvN n l) = bvN n (k + l) := by
  rw [addLimbs_eq (canonical_bvN n k) (canonical_bvN n l), uval_bvN_eq_emod, uval_bvN_eq_emod]
  exact bvN_congr (Int.add_emod k l _).symm

/-- `sub_limbs` of two residues is the residue of the difference (R141; 00_scope.md R13). -/
theorem subLimbs_bvN (n : Nat) (k l : Int) : subLimbs n (bvN n k) (bvN n l) = bvN n (k - l) := by
  rw [subLimbs_eq (canonical_bvN n k) (canonical_bvN n l), uval_bvN_eq_emod, uval_bvN_eq_emod]
  exact bvN_congr (Int.sub_emod k l _).symm

/-- 2^N is 0 modulo 2^N: the two forms of R146. -/
theorem bvN_two_pow_sub (n : Nat) (k : Int) : bvN n (2 ^ n - k) = bvN n (-k) :=
  bvN_congr (by rw [sub_eq_add_neg, Int.add_emod_left])

/-! ### The commands, on integers that the operands are residues of

An operand is `bv_N` of its unsigned and of its signed reading (`State.x_eq_bvN`, `State.x_eq_bvN_sgn`), and an extended IMM is
`bv_N` of IMM's value by definition (30_encoding.md R85). -/

section
variable {s : State} {a b : Limbs} {k l : Int}

theorem State.setX_addLimbs (rd : Reg) (ha : a = bvN s.bits k) (hb : b = bvN s.bits l) :
    s.setX rd (addLimbs s.bits a b) = s.withX rd (k + l) := by
  rw [State.withX_eq_setX, ha, hb, addLimbs_bvN]

theorem State.setX_subLimbs (rd : Reg) (ha : a = bvN s.bits k) (hb : b = bvN s.bits l) :
    s.setX rd (subLimbs s.bits a b) = s.withX rd (k - l) := by
  rw [State.withX_eq_setX, ha, hb, subLimbs_bvN]

theorem State.setX_negLimbs (rd : Reg) (ha : a = bvN s.bits k) :
    s.setX rd (negLimbs s.bits a) = s.withX rd (-k) := by
  rw [State.withX_eq_setX, ha, negLimbs_bvN]

end

theorem exec_add (rd rs1 rs2 : Reg) (s : State) : exec (.add rd rs1 rs2) s = .next (s.withX rd (s.u rs1 + s.u rs2)) :=
  congrArg Host.Outcome.next (State.setX_addLimbs rd (s.x_eq_bvN rs1) (s.x_eq_bvN rs2))

theorem exec_add_signed (rd rs1 rs2 : Reg) (s : State) :
    exec (.add rd rs1 rs2) s = .next (s.withX rd (s.sgn rs1 + s.sgn rs2)) :=
  congrArg Host.Outcome.next (State.setX_addLimbs rd (s.x_eq_bvN_sgn rs1) (s.x_eq_bvN_sgn rs2))

theorem exec_addiU (rd rs1 : Reg) (s : State) :
    exec (.addiU rd rs1) s = .next (s.withX rd (s.u rs1 + s.imm.toNat)) :=
  congrArg Host.Outcome.next (State.setX_addLimbs rd (s.x_eq_bvN rs1) rfl)

theorem exec_addiS (rd rs1 : Reg) (s : State) :
    exec (.addiS rd rs1) s = .next (s.withX rd (s.u rs1 + s.imm.toInt)) :=
  congrArg Host.Outcome.next (State.setX_addLimbs rd (s.x_eq_bvN rs1) rfl)

theorem exec_sub (rd rs1 rs2 : Reg) (s : State) :
    exec (.sub rd rs1 rs2) s = .next (s.withX rd ((s.u rs1 : Int) - s.u rs2)) :=
  congrArg Host.Outcome.next (State.setX_subLimbs rd (s.x_eq_bvN rs1) (s.x_eq_bvN rs2))

theorem exec_sub_signed (rd rs1 rs2 : Reg) (s : State) :
    exec (.sub rd rs1 rs2) s = .next (s.withX rd (s.sgn rs1 - s.sgn rs2)) :=
  congrArg Host.Outcome.next (State.setX_subLimbs rd (s.x_eq_bvN_sgn rs1) (s.x_eq_bvN_sgn rs2))

theorem exec_subiU (rd rs1 : Reg) (s : State) :
    exec (.subiU rd rs1) s = .next (s.withX rd ((s.u rs1 : Int) - s.imm.toNat)) :=
  congrArg Host.Outcome.next (State.setX_subLimbs rd (s.x_eq_bvN rs1) rfl)

theorem exec_subiS (rd rs1 : Reg) (s : State) :
    exec (.subiS rd rs1) s = .next (s.withX rd ((s.u rs1 : Int) - s.imm.toInt)) :=
  congrArg Host.Outcome.next (State.setX_subLimbs rd (s.x_eq_bvN rs1) rfl)

theorem exec_neg (rd rs1 : Reg) (s : State) : exec (.neg rd rs1) s = .next (s.withX rd (2 ^ s.bits - s.u rs1)) := by
  rw [State.withX_eq_setX, bvN_two_pow_sub, ← State.withX_eq_setX]
  exact congrArg Host.Outcome.next (State.setX_negLimbs rd (s.x_eq_bvN rs1))

theorem exec_neg_signed (rd rs1 : Reg) (s : State) : exec (.neg rd rs1) s = .next (s.withX rd (-s.sgn rs1)) :=
  congrArg Host.Outcome.next (State.setX_negLimbs rd (s.x_eq_bvN_sgn rs1))

/-! ### The statements -/

/-- Settles O24: ADD on the unsigned and on the signed readings of the same two residues. -/
theorem addWrapsModuloWidth : Obligations.AddWrapsModuloWidth :=
  fun rd rs1 rs2 s => ⟨encode_add rd rs1 rs2, exec_add rd rs1 rs2 s, exec_add_signed rd rs1 rs2 s⟩

/-- Settles O25: the extended IMM is the residue of its unsigned or signed value. -/
theorem addImmediateExtendsTheScalar : Obligations.AddImmediateExtendsTheScalar :=
  fun rd rs1 s => ⟨encode_addiU rd rs1, encode_addiS rd rs1, exec_addiU rd rs1 s, exec_addiS rd rs1 s⟩

/-- Settles O26: SUB on the unsigned and on the signed readings of the same two residues. -/
theorem subtractWrapsModuloWidth : Obligations.SubtractWrapsModuloWidth :=
  fun rd rs1 rs2 s => ⟨encode_sub rd rs1 rs2, exec_sub rd rs1 rs2 s, exec_sub_signed rd rs1 rs2 s⟩

/-- Settles O27: the extended IMM is the residue of its unsigned or signed value. -/
theorem subtractImmediateExtendsTheScalar : Obligations.SubtractImmediateExtendsTheScalar :=
  fun rd rs1 s => ⟨encode_subiU rd rs1, encode_subiS rd rs1, exec_subiU rd rs1 s, exec_subiS rd rs1 s⟩

/-- Settles O28: NEG on the signed reading, and on the unsigned one with 2^N added. -/
theorem negateIsTwosComplement : Obligations.NegateIsTwosComplement :=
  fun rd rs1 s => ⟨encode_neg rd rs1, exec_neg rd rs1 s, exec_neg_signed rd rs1 s⟩

end Sys2Proof.Machine
end

section
/-! The multiplication statements (43_multiply.md). MUL and MULI run the full product, which maps residues modulo 2^N to the residue
of the product; MULW's one-limb chain has the exact product, its low limbs in rd and the overflow limb in RES. -/

namespace Sys2Proof

/-! ### CMD words (the "Encoding" lines of R162 to R165) -/

theorem encode_mul (rd rs1 rs2 : Reg) :
    encode (.mul rd rs1 rs2) = 0x2C000000 ||| rd.field 21 ||| rs1.field 18 ||| rs2.field 15 := by
  simp [encode_eq_or, Instr.fields, Reg.field]

theorem encode_muliU (rd rs1 : Reg) : encode (.muliU rd rs1) = 0x2D000000 ||| rd.field 21 ||| rs1.field 18 := by
  simp [encode_eq_or, Instr.fields, Reg.field]

theorem encode_muliS (rd rs1 : Reg) : encode (.muliS rd rs1) = 0x2F000000 ||| rd.field 21 ||| rs1.field 18 := by
  simp [encode_eq_or, Instr.fields, Reg.field]

theorem encode_mulw (rd rs1 : Reg) : encode (.mulw rd rs1) = 0x30000000 ||| rd.field 21 ||| rs1.field 18 := by
  simp [encode_eq_or, Instr.fields, Reg.field]

end Sys2Proof

namespace Sys2Proof.Machine

/-- `signed_mul` of two residues is the residue of the product, as for `mul_wide` (R166). -/
theorem signedMul_bvN (n : Nat) (k l : Int) : signedMul n (bvN n k) (bvN n l) = bvN n (k * l) := by
  rw [signedMul_eq_mulWide (canonical_bvN n k) (canonical_bvN n l), mulWide_bvN]

/-! ### MUL and MULI, on integers that the operands are residues of -/

section
variable {s : State} {a b : Limbs} {k l : Int}

theorem State.setX_mulWide (rd : Reg) (ha : a = bvN s.bits k) (hb : b = bvN s.bits l) :
    s.setX rd (mulWide s.bits a b) = s.withX rd (k * l) := by
  rw [State.withX_eq_setX, ha, hb, mulWide_bvN]

theorem State.setX_signedMul (rd : Reg) (ha : a = bvN s.bits k) (hb : b = bvN s.bits l) :
    s.setX rd (signedMul s.bits a b) = s.withX rd (k * l) := by
  rw [State.withX_eq_setX, ha, hb, signedMul_bvN]

end

theorem exec_mul (rd rs1 rs2 : Reg) (s : State) : exec (.mul rd rs1 rs2) s = .next (s.withX rd (s.u rs1 * s.u rs2)) :=
  congrArg Host.Outcome.next (State.setX_signedMul rd (s.x_eq_bvN rs1) (s.x_eq_bvN rs2))

theorem exec_mul_signed (rd rs1 rs2 : Reg) (s : State) :
    exec (.mul rd rs1 rs2) s = .next (s.withX rd (s.sgn rs1 * s.sgn rs2)) :=
  congrArg Host.Outcome.next (State.setX_signedMul rd (s.x_eq_bvN_sgn rs1) (s.x_eq_bvN_sgn rs2))

theorem exec_muliU (rd rs1 : Reg) (s : State) :
    exec (.muliU rd rs1) s = .next (s.withX rd (s.u rs1 * s.imm.toNat)) :=
  congrArg Host.Outcome.next (State.setX_mulWide rd (s.x_eq_bvN rs1) rfl)

theorem exec_muliS (rd rs1 : Reg) (s : State) :
    exec (.muliS rd rs1) s = .next (s.withX rd (s.u rs1 * s.imm.toInt)) :=
  congrArg Host.Outcome.next (State.setX_mulWide rd (s.x_eq_bvN rs1) rfl)

/-! ### MULW -/

/-- The product's low limbs, written to rd with the padding cleared (R162). -/
theorem State.setX_mulLimb (s : State) (rd rs1 : Reg) (w : Limb) :
    s.setX rd (clearPad s.bits (mulLimb (s.x rs1) w).1) = s.withX rd (s.u rs1 * w.toNat) := by
  rw [State.withX_eq_setX, clearPad_mulLimb_eq (canonical_x s rs1), Nat.cast_mul, State.u]

/-- The overflow limb, as the word that RES takes (R162). -/
theorem mulLimb_overflow_word (s : State) (rs1 : Reg) (w : Limb) :
    (mulLimb (s.x rs1) w).2 = BitVec.ofNat 64 (s.u rs1 * w.toNat / 2 ^ (64 * limbCount s.bits)) := by
  rw [State.u, ← mulLimb_overflow (canonical_x s rs1), BitVec.ofNat_toNat, BitVec.setWidth_eq]

theorem exec_mulw (rd rs1 : Reg) (s : State) :
    exec (.mulw rd rs1) s =
      .next ((s.withX rd (s.u rs1 * s.imm.toNat)).setRes
        (BitVec.ofNat 64 (s.u rs1 * s.imm.toNat / 2 ^ (64 * limbCount s.bits)))) := by
  rw [← State.setX_mulLimb, ← mulLimb_overflow_word]; rfl

/-! ### The statements -/

/-- Settles O29: the one-limb chain is exact, so clearing the padding leaves the residue and the overflow limb is the quotient. -/
theorem multiplyByLimbGivesOverflowLimb : Obligations.MultiplyByLimbGivesOverflowLimb :=
  fun rd rs1 s => ⟨encode_mulw rd rs1, exec_mulw rd rs1 s⟩

/-- Settles O30: MUL on the unsigned and on the signed readings of the same two residues. -/
theorem multiplyWrapsModuloWidth : Obligations.MultiplyWrapsModuloWidth :=
  fun rd rs1 rs2 s => ⟨encode_mul rd rs1 rs2, exec_mul rd rs1 rs2 s, exec_mul_signed rd rs1 rs2 s⟩

/-- Settles O31: the extended IMM is the residue of its unsigned or signed value. -/
theorem multiplyImmediateExtendsTheScalar : Obligations.MultiplyImmediateExtendsTheScalar :=
  fun rd rs1 s => ⟨encode_muliU rd rs1, encode_muliS rd rs1, exec_muliU rd rs1 s, exec_muliS rd rs1 s⟩

end Sys2Proof.Machine
end

section
/-! The division and modulo statements (44_divide.md). Past the zero-divisor guard each command writes a component of one pair, the
quotient and remainder that the engine computes from the operands read at the start: `bv_N` of the quotient and remainder of their
unsigned or signed values. -/

namespace Sys2Proof

/-! ### CMD words (the "Encoding" lines of R184 and R185) -/

theorem encode_divU (rd rs1 rs2 : Reg) :
    encode (.divU rd rs1 rs2) = 0x34000000 ||| rd.field 21 ||| rs1.field 18 ||| rs2.field 15 := by
  simp [encode_eq_or, Instr.fields, Reg.field]

theorem encode_divS (rd rs1 rs2 : Reg) :
    encode (.divS rd rs1 rs2) = 0x36000000 ||| rd.field 21 ||| rs1.field 18 ||| rs2.field 15 := by
  simp [encode_eq_or, Instr.fields, Reg.field]

theorem encode_modU (rd rs1 rs2 : Reg) :
    encode (.modU rd rs1 rs2) = 0x38000000 ||| rd.field 21 ||| rs1.field 18 ||| rs2.field 15 := by
  simp [encode_eq_or, Instr.fields, Reg.field]

theorem encode_modS (rd rs1 rs2 : Reg) :
    encode (.modS rd rs1 rs2) = 0x3A000000 ||| rd.field 21 ||| rs1.field 18 ||| rs2.field 15 := by
  simp [encode_eq_or, Instr.fields, Reg.field]

/-- The decoder refuses the word of a command that is not well formed (30_encoding.md R90). -/
theorem decode_encode_of_not_wf {i : Instr} (h : i.wf = false) : decode (encode i) = .illegal .sameDestination := by
  rw [decode_encode, if_neg (Bool.eq_false_iff.1 h)]

end Sys2Proof

namespace Sys2Proof.Machine

/-! ### The guard and the engine -/

/-- A zero divisor with FAULT = 0 records DIV_ZERO and changes nothing else (R182; 60_exceptions.md R262). -/
theorem State.checkDivisor_records {s : State} {rs2 : Reg} (h0 : s.u rs2 = 0) (hf : s.fault = false) (k : Result) :
    s.checkDivisor rs2 k = .next { s with fault := true, cause := .divZero, faultCmd := s.cmd, faultImm := s.imm } := by
  rw [State.checkDivisor_of_zero h0, State.raise_of_no_fault hf]

theorem State.setX_eq_withX {s : State} {v : Limbs} {k : Int} (rd : Reg) (hv : v = bvN s.bits k) :
    s.setX rd v = s.withX rd k := by
  rw [hv, State.withX_eq_setX]

section
variable {s : State} {rs2 : Reg}

/-- The unsigned quotient and remainder of two registers (R180, R183). -/
theorem State.udivmod_x (rs1 : Reg) (h0 : s.u rs2 ≠ 0) :
    udivmod s.bits (s.x rs1) (s.x rs2) =
      (bvN s.bits ((s.u rs1 / s.u rs2 : Nat) : Int), bvN s.bits ((s.u rs1 % s.u rs2 : Nat) : Int)) :=
  udivmod_eq (canonical_x s rs1) (canonical_x s rs2) h0

/-- The signed quotient, truncated toward zero, and its remainder (R181, R183). -/
theorem State.sdivmod_x (hw : widthOk s.bits = true) (rs1 : Reg) (h0 : s.u rs2 ≠ 0) :
    sdivmod s.bits (s.x rs1) (s.x rs2) =
      (bvN s.bits ((s.sgn rs1).tdiv (s.sgn rs2)), bvN s.bits ((s.sgn rs1).tmod (s.sgn rs2))) :=
  sdivmod_eq (widthOk_pos hw) (canonical_x s rs1) (canonical_x s rs2) h0

/-! ### The commands, past the guard -/

theorem exec_divU_of_ne (rd rs1 : Reg) (h0 : s.u rs2 ≠ 0) :
    exec (.divU rd rs1 rs2) s = .next (s.withX rd ((s.u rs1 / s.u rs2 : Nat) : Int)) := by
  rw [← State.setX_eq_withX rd (congrArg Prod.fst (State.udivmod_x rs1 h0))]
  exact State.checkDivisor_of_ne h0 _

theorem exec_divS_of_ne (hw : widthOk s.bits = true) (rd rs1 : Reg) (h0 : s.u rs2 ≠ 0) :
    exec (.divS rd rs1 rs2) s = .next (s.withX rd ((s.sgn rs1).tdiv (s.sgn rs2))) := by
  rw [← State.setX_eq_withX rd (congrArg Prod.fst (State.sdivmod_x hw rs1 h0))]
  exact State.checkDivisor_of_ne h0 _

theorem exec_modU_of_ne (rd rs1 : Reg) (h0 : s.u rs2 ≠ 0) :
    exec (.modU rd rs1 rs2) s = .next (s.withX rd ((s.u rs1 % s.u rs2 : Nat) : Int)) := by
  rw [← State.setX_eq_withX rd (congrArg Prod.snd (State.udivmod_x rs1 h0))]
  exact State.checkDivisor_of_ne h0 _

theorem exec_modS_of_ne (hw : widthOk s.bits = true) (rd rs1 : Reg) (h0 : s.u rs2 ≠ 0) :
    exec (.modS rd rs1 rs2) s = .next (s.withX rd ((s.sgn rs1).tmod (s.sgn rs2))) := by
  rw [← State.setX_eq_withX rd (congrArg Prod.snd (State.sdivmod_x hw rs1 h0))]
  exact State.checkDivisor_of_ne h0 _

/-- The two writes of DIVMOD, of a pair computed before either (R186; 00_scope.md R16). -/
theorem State.setX_pair {p : Limbs × Limbs} {q r : Int} (rd rd2 : Reg) (hp : p = (bvN s.bits q, bvN s.bits r)) :
    (s.setX rd p.1).setX rd2 p.2 = (s.withX rd q).withX rd2 r := by
  rw [State.setX_eq_withX rd (congrArg Prod.fst hp)]
  exact State.setX_eq_withX rd2 (congrArg Prod.snd hp)

theorem exec_divmodU_of_ne {rd rd2 : Reg} (hne : rd ≠ rd2) (rs1 : Reg) (h0 : s.u rs2 ≠ 0) :
    exec (.divmodU rd rd2 rs1 rs2) s =
      .next ((s.withX rd ((s.u rs1 / s.u rs2 : Nat) : Int)).withX rd2 ((s.u rs1 % s.u rs2 : Nat) : Int)) := by
  rw [← State.setX_pair rd rd2 (State.udivmod_x rs1 h0)]
  exact (State.checkDests_of_ne hne _).trans (State.checkDivisor_of_ne h0 _)

theorem exec_divmodS_of_ne (hw : widthOk s.bits = true) {rd rd2 : Reg} (hne : rd ≠ rd2) (rs1 : Reg) (h0 : s.u rs2 ≠ 0) :
    exec (.divmodS rd rd2 rs1 rs2) s =
      .next ((s.withX rd ((s.sgn rs1).tdiv (s.sgn rs2))).withX rd2 ((s.sgn rs1).tmod (s.sgn rs2))) := by
  rw [← State.setX_pair rd rd2 (State.sdivmod_x hw rs1 h0)]
  exact (State.checkDests_of_ne hne _).trans (State.checkDivisor_of_ne h0 _)

end

/-! ### The statements -/

/-- Settles O32: the guard, or the first component of the engine's pair. -/
theorem divideWritesTheQuotient : Obligations.DivideWritesTheQuotient := by
  intro rd rs1 rs2 s hw
  refine ⟨encode_divU rd rs1 rs2, encode_divS rd rs1 rs2, fun h0 hf => ?_, fun h0 => ?_⟩
  · exact ⟨State.checkDivisor_records h0 hf _, State.checkDivisor_records h0 hf _⟩
  · exact ⟨exec_divU_of_ne rd rs1 h0, exec_divS_of_ne hw rd rs1 h0⟩

/-- Settles O33: the guard, or the second component of the engine's pair. -/
theorem moduloWritesTheRemainder : Obligations.ModuloWritesTheRemainder := by
  intro rd rs1 rs2 s hw
  refine ⟨encode_modU rd rs1 rs2, encode_modS rd rs1 rs2, fun h0 hf => ?_, fun h0 => ?_⟩
  · exact ⟨State.checkDivisor_records h0 hf _, State.checkDivisor_records h0 hf _⟩
  · exact ⟨exec_modU_of_ne rd rs1 h0, exec_modS_of_ne hw rd rs1 h0⟩

/-- Settles O34: the decoder's check of the destinations, the guard, or both components of the engine's pair. -/
theorem divmodWritesQuotientAndRemainder : Obligations.DivmodWritesQuotientAndRemainder := by
  intro rd rd2 rs1 rs2 s hw
  refine ⟨encode_divmodU rd rd2 rs1 rs2, encode_divmodS rd rd2 rs1 rs2, fun he => ?_, fun hne h0 hf => ?_, fun hne h0 => ?_⟩
  · subst he
    exact ⟨decode_encode_of_not_wf (bne_self_eq_false rd), decode_encode_of_not_wf (bne_self_eq_false rd)⟩
  · exact ⟨(State.checkDests_of_ne hne _).trans (State.checkDivisor_records h0 hf _),
      (State.checkDests_of_ne hne _).trans (State.checkDivisor_records h0 hf _)⟩
  · exact ⟨exec_divmodU_of_ne hne rs1 h0, exec_divmodS_of_ne hw hne rs1 h0⟩

end Sys2Proof.Machine
end

section
/-! The shift statements (45_shift.md). The distance is IMM's unsigned value, and each engine is exact at every distance
(`shlLimbs_eq`, `shrLimbs_zero_eq`, `shrLimbs_sign_eq`), so no command splits on it. -/

namespace Sys2Proof

/-! ### CMD words (the "Encoding" lines of R202 to R204) -/

theorem encode_shl (rd rs1 : Reg) : encode (.shl rd rs1) = 0x40000000 ||| rd.field 21 ||| rs1.field 18 := by
  simp [encode_eq_or, Instr.fields, Reg.field]

theorem encode_shrU (rd rs1 : Reg) : encode (.shrU rd rs1) = 0x44000000 ||| rd.field 21 ||| rs1.field 18 := by
  simp [encode_eq_or, Instr.fields, Reg.field]

theorem encode_shrS (rd rs1 : Reg) : encode (.shrS rd rs1) = 0x46000000 ||| rd.field 21 ||| rs1.field 18 := by
  simp [encode_eq_or, Instr.fields, Reg.field]

end Sys2Proof

namespace Sys2Proof.Machine

/-! ### The commands -/

theorem exec_shl (rd rs1 : Reg) (s : State) :
    exec (.shl rd rs1) s = .next (s.withX rd (s.u rs1 * 2 ^ s.imm.toNat)) :=
  congrArg Host.Outcome.next (State.setX_eq_withX rd (shlLimbs_eq s.bits (s.x rs1) s.immCount))

theorem exec_shrU (rd rs1 : Reg) (s : State) :
    exec (.shrU rd rs1) s = .next (s.withX rd ((s.u rs1 / 2 ^ s.imm.toNat : Nat) : Int)) :=
  congrArg Host.Outcome.next (State.setX_eq_withX rd (shrLimbs_zero_eq (canonical_x s rs1) s.immCount))

theorem exec_shrS (rd rs1 : Reg) (s : State) :
    exec (.shrS rd rs1) s = .next (s.withX rd (s.sgn rs1 / 2 ^ s.imm.toNat)) :=
  congrArg Host.Outcome.next (State.setX_eq_withX rd (shrLimbs_sign_eq (canonical_x s rs1) s.immCount))

/-! ### The statements -/

/-- Settles O35: the left shift of the storage is the residue of the value times 2^n. -/
theorem shiftLeftMultipliesByPowerOfTwo : Obligations.ShiftLeftMultipliesByPowerOfTwo :=
  fun rd rs1 s => ⟨encode_shl rd rs1, exec_shl rd rs1 s⟩

/-- Settles O36: with zero fill the right shift is the quotient of the unsigned reading. -/
theorem logicalShiftRightDividesUnsigned : Obligations.LogicalShiftRightDividesUnsigned :=
  fun rd rs1 s => ⟨encode_shrU rd rs1, exec_shrU rd rs1 s⟩

/-- Settles O37: with the sign as the fill the right shift is the floor of the signed reading's quotient. -/
theorem arithmeticShiftRightRoundsDown : Obligations.ArithmeticShiftRightRoundsDown :=
  fun rd rs1 s => ⟨encode_shrS rd rs1, exec_shrS rd rs1 s⟩

end Sys2Proof.Machine
end

section
/-! The comparison statements (46_compare.md). The compare functions give the sign of the difference (`ucmp_eq`, `scmp_eq`), and
each condition holds of that sign exactly when its relation holds of the operands, so every S<cond> command is one equation with
its condition and view put in. -/

namespace Sys2Proof

/-! ### CMD words (the "Encoding" lines of R221 to R228) -/

theorem encode_cmpU (rs1 rs2 : Reg) : encode (.cmpU rs1 rs2) = 0x48000000 ||| rs1.field 18 ||| rs2.field 15 := by
  simp [encode_eq_or, Instr.fields, Reg.field]

theorem encode_cmpS (rs1 rs2 : Reg) : encode (.cmpS rs1 rs2) = 0x4A000000 ||| rs1.field 18 ||| rs2.field 15 := by
  simp [encode_eq_or, Instr.fields, Reg.field]

theorem CmdWord.or_or_or_rotate (a b c d : CmdWord) : a ||| b ||| c ||| d = a ||| d ||| b ||| c := by
  ac_rfl

/-- The CMD of an S<cond> command: its view is S and its condition f3 (30_encoding.md R89). -/
theorem toWord_cond (view : BitVec 1) (cond : BitVec 3) (rs1 rs2 : Reg) :
    Fields.toWord { op := 0x13, s := view, rs1 := rs1.bits, rs2 := rs2.bits, f3 := cond } =
      (0x4C000000 : CmdWord) ||| view.setWidth 32 <<< 25 ||| cond.setWidth 32 <<< 12 ||| rs1.field 18 ||| rs2.field 15 := by
  rw [← CmdWord.or_or_or_rotate]
  simp [Fields.toWord_eq_or, Reg.field]

theorem encode_isnegU (rs1 : Reg) : encode (.isnegU rs1) = 0x50000000 ||| rs1.field 18 := by
  simp [encode_eq_or, Instr.fields, Reg.field]

theorem encode_isnegS (rs1 : Reg) : encode (.isnegS rs1) = 0x52000000 ||| rs1.field 18 := by
  simp [encode_eq_or, Instr.fields, Reg.field]

end Sys2Proof

namespace Sys2Proof.Machine

/-! ### The compare functions on the operands (R220) -/

theorem State.ucmp_x (s : State) (rs1 rs2 : Reg) :
    ucmp (s.x rs1) (s.x rs2) = ((s.u rs1 : Int) - s.u rs2).sign :=
  ucmp_eq ((canonical_x s rs1).1.trans (canonical_x s rs2).1.symm)

theorem State.scmp_x {s : State} (hw : widthOk s.bits = true) (rs1 rs2 : Reg) :
    scmp s.bits (s.x rs1) (s.x rs2) = (s.sgn rs1 - s.sgn rs2).sign :=
  scmp_eq (widthOk_pos hw) (canonical_x s rs1) (canonical_x s rs2)

/-! ### CMP -/

theorem exec_cmpU (rs1 rs2 : Reg) (s : State) :
    exec (.cmpU rs1 rs2) s = .next { s with res := BitVec.ofInt 64 (Int.sign ((s.u rs1 : Int) - s.u rs2)) } := by
  rw [← State.ucmp_x]; rfl

theorem exec_cmpS {s : State} (hw : widthOk s.bits = true) (rs1 rs2 : Reg) :
    exec (.cmpS rs1 rs2) s = .next { s with res := BitVec.ofInt 64 (Int.sign (s.sgn rs1 - s.sgn rs2)) } := by
  rw [← State.scmp_x hw]; rfl

/-- Settles O38: RES is the compare function's value, the sign of the difference. -/
theorem compareWritesTheSign : Obligations.CompareWritesTheSign :=
  fun rs1 rs2 s hw => ⟨encode_cmpU rs1 rs2, encode_cmpS rs1 rs2, exec_cmpU rs1 rs2 s, exec_cmpS hw rs1 rs2⟩

/-! ### The relations of S<cond> (30_encoding.md R89) -/

/-- The relation between the operands that a condition names. -/
def Cond.Relates (a b : Int) : Cond → Prop
  | .eq => a = b
  | .ne => a ≠ b
  | .lt => a < b
  | .le => a ≤ b
  | .gt => b < a
  | .ge => b ≤ a

/-- A condition holds of the sign of a difference exactly when its relation holds of the operands. -/
theorem Cond.holds_sign_sub (c : Cond) (a b : Int) : c.holds (a - b).sign = true ↔ c.Relates a b := by
  cases c with
  | eq => rw [Cond.holds, decide_eq_true_iff, Int.sign_eq_zero_iff_zero, sub_eq_zero, Cond.Relates]
  | ne => rw [Cond.holds, decide_eq_true_iff, Ne, Int.sign_eq_zero_iff_zero, sub_eq_zero, Cond.Relates]
  | lt => rw [Cond.holds, decide_eq_true_iff, Int.sign_neg_iff, sub_neg, Cond.Relates]
  | le => rw [Cond.holds, decide_eq_true_iff, Int.sign_nonpos_iff, sub_nonpos, Cond.Relates]
  | gt => rw [Cond.holds, decide_eq_true_iff, gt_iff_lt, Int.sign_pos_iff, sub_pos, Cond.Relates]
  | ge => rw [Cond.holds, decide_eq_true_iff, ge_iff_le, Int.sign_nonneg_iff, sub_nonneg, Cond.Relates]

theorem truth_eq_ite {b : Bool} {P : Prop} [Decidable P] (h : b = true ↔ P) : truth b = if P then 1 else 0 :=
  if_congr h rfl rfl

/-! ### S<cond>, for every condition -/

section
variable {s : State} {rs1 rs2 : Reg} {P : Prop} [Decidable P]

theorem State.setRes_cond_ucmp (c : Cond) (h : c.Relates (s.u rs1) (s.u rs2) ↔ P) :
    s.setRes (truth (c.holds (ucmp (s.x rs1) (s.x rs2)))) = { s with res := if P then 1 else 0 } := by
  rw [State.ucmp_x, truth_eq_ite ((c.holds_sign_sub _ _).trans h), State.setRes]

theorem State.setRes_cond_scmp (hw : widthOk s.bits = true) (c : Cond) (h : c.Relates (s.sgn rs1) (s.sgn rs2) ↔ P) :
    s.setRes (truth (c.holds (scmp s.bits (s.x rs1) (s.x rs2)))) = { s with res := if P then 1 else 0 } := by
  rw [State.scmp_x hw, truth_eq_ite ((c.holds_sign_sub _ _).trans h), State.setRes]

end

/-! ### SEQ and SNE -/

theorem exec_seqU (rs1 rs2 : Reg) (s : State) :
    exec (.seqU rs1 rs2) s = .next { s with res := if s.u rs1 = s.u rs2 then 1 else 0 } :=
  congrArg Host.Outcome.next (State.setRes_cond_ucmp .eq Nat.cast_inj)

theorem exec_seqS {s : State} (hw : widthOk s.bits = true) (rs1 rs2 : Reg) :
    exec (.seqS rs1 rs2) s = .next { s with res := if s.sgn rs1 = s.sgn rs2 then 1 else 0 } :=
  congrArg Host.Outcome.next (State.setRes_cond_scmp hw .eq Iff.rfl)

theorem exec_sneU (rs1 rs2 : Reg) (s : State) :
    exec (.sneU rs1 rs2) s = .next { s with res := if s.u rs1 ≠ s.u rs2 then 1 else 0 } :=
  congrArg Host.Outcome.next (State.setRes_cond_ucmp .ne Nat.cast_inj.not)

theorem exec_sneS {s : State} (hw : widthOk s.bits = true) (rs1 rs2 : Reg) :
    exec (.sneS rs1 rs2) s = .next { s with res := if s.sgn rs1 ≠ s.sgn rs2 then 1 else 0 } :=
  congrArg Host.Outcome.next (State.setRes_cond_scmp hw .ne Iff.rfl)

/-- Settles O39: the conditions EQ (0) and NE (1) in both views. -/
theorem equalityWritesOneOrZero : Obligations.EqualityWritesOneOrZero :=
  fun rs1 rs2 s hw =>
    ⟨toWord_cond 0 0 rs1 rs2, toWord_cond 1 0 rs1 rs2, toWord_cond 0 1 rs1 rs2, toWord_cond 1 1 rs1 rs2,
      exec_seqU rs1 rs2 s, exec_seqS hw rs1 rs2, exec_sneU rs1 rs2 s, exec_sneS hw rs1 rs2⟩

/-! ### SLT, SLE, SGT and SGE -/

theorem exec_sltU (rs1 rs2 : Reg) (s : State) :
    exec (.sltU rs1 rs2) s = .next { s with res := if s.u rs1 < s.u rs2 then 1 else 0 } :=
  congrArg Host.Outcome.next (State.setRes_cond_ucmp .lt Nat.cast_lt)

theorem exec_sltS {s : State} (hw : widthOk s.bits = true) (rs1 rs2 : Reg) :
    exec (.sltS rs1 rs2) s = .next { s with res := if s.sgn rs1 < s.sgn rs2 then 1 else 0 } :=
  congrArg Host.Outcome.next (State.setRes_cond_scmp hw .lt Iff.rfl)

theorem exec_sleU (rs1 rs2 : Reg) (s : State) :
    exec (.sleU rs1 rs2) s = .next { s with res := if s.u rs1 ≤ s.u rs2 then 1 else 0 } :=
  congrArg Host.Outcome.next (State.setRes_cond_ucmp .le Nat.cast_le)

theorem exec_sleS {s : State} (hw : widthOk s.bits = true) (rs1 rs2 : Reg) :
    exec (.sleS rs1 rs2) s = .next { s with res := if s.sgn rs1 ≤ s.sgn rs2 then 1 else 0 } :=
  congrArg Host.Outcome.next (State.setRes_cond_scmp hw .le Iff.rfl)

theorem exec_sgtU (rs1 rs2 : Reg) (s : State) :
    exec (.sgtU rs1 rs2) s = .next { s with res := if s.u rs2 < s.u rs1 then 1 else 0 } :=
  congrArg Host.Outcome.next (State.setRes_cond_ucmp .gt Nat.cast_lt)

theorem exec_sgtS {s : State} (hw : widthOk s.bits = true) (rs1 rs2 : Reg) :
    exec (.sgtS rs1 rs2) s = .next { s with res := if s.sgn rs2 < s.sgn rs1 then 1 else 0 } :=
  congrArg Host.Outcome.next (State.setRes_cond_scmp hw .gt Iff.rfl)

theorem exec_sgeU (rs1 rs2 : Reg) (s : State) :
    exec (.sgeU rs1 rs2) s = .next { s with res := if s.u rs2 ≤ s.u rs1 then 1 else 0 } :=
  congrArg Host.Outcome.next (State.setRes_cond_ucmp .ge Nat.cast_le)

theorem exec_sgeS {s : State} (hw : widthOk s.bits = true) (rs1 rs2 : Reg) :
    exec (.sgeS rs1 rs2) s = .next { s with res := if s.sgn rs2 ≤ s.sgn rs1 then 1 else 0 } :=
  congrArg Host.Outcome.next (State.setRes_cond_scmp hw .ge Iff.rfl)

/-- Settles O40: the conditions LT (2), LE (3), GT (4) and GE (5) in both views. -/
theorem orderRelationsWriteOneOrZero : Obligations.OrderRelationsWriteOneOrZero := by
  intro rs1 rs2 s hw
  refine ⟨⟨?_, ?_, ?_, ?_, ?_, ?_, ?_, ?_⟩, exec_sltU rs1 rs2 s, exec_sltS hw rs1 rs2, exec_sleU rs1 rs2 s,
    exec_sleS hw rs1 rs2, exec_sgtU rs1 rs2 s, exec_sgtS hw rs1 rs2, exec_sgeU rs1 rs2 s, exec_sgeS hw rs1 rs2⟩
  · exact toWord_cond 0 2 rs1 rs2
  · exact toWord_cond 1 2 rs1 rs2
  · exact toWord_cond 0 3 rs1 rs2
  · exact toWord_cond 1 3 rs1 rs2
  · exact toWord_cond 0 4 rs1 rs2
  · exact toWord_cond 1 4 rs1 rs2
  · exact toWord_cond 0 5 rs1 rs2
  · exact toWord_cond 1 5 rs1 rs2

/-! ### ISNEG -/

theorem exec_isnegU (rs1 : Reg) (s : State) : exec (.isnegU rs1) s = .next { s with res := 0 } := rfl

/-- Bit N-1 of the unsigned reading is the sign bit of the storage (00_scope.md R12). -/
theorem State.testBit_u_sign (s : State) (r : Reg) : (s.u r).testBit (s.bits - 1) = signBit s.bits (s.x r) :=
  testBit_uval (s.x r) (s.bits - 1)

theorem exec_isnegS (rs1 : Reg) (s : State) :
    exec (.isnegS rs1) s = .next { s with res := if (s.u rs1).testBit (s.bits - 1) then 1 else 0 } := by
  rw [State.testBit_u_sign]; rfl

theorem State.testBit_u_eq_decide_sgn_neg {s : State} (hw : widthOk s.bits = true) (r : Reg) :
    (s.u r).testBit (s.bits - 1) = decide (s.sgn r < 0) :=
  (s.testBit_u_sign r).trans (sval_neg_iff (widthOk_pos hw) (canonical_x s r))

/-- Settles O41: RES is the sign bit of the storage, which is set exactly when the signed reading is negative. -/
theorem isNegativeReadsTheSignBit : Obligations.IsNegativeReadsTheSignBit :=
  fun rs1 s hw =>
    ⟨encode_isnegU rs1, encode_isnegS rs1, exec_isnegU rs1 s, exec_isnegS rs1 s, State.testBit_u_eq_decide_sgn_neg hw rs1⟩

end Sys2Proof.Machine
end

section
/-! The bitwise statements (47_bitwise.md). AND, OR and XOR work limb by limb, and their storage is the residue of the operator on
the unsigned readings; NOT maps the residue of k to that of -k - 1, whichever reading k is; CLZ counts within the N bits. -/

namespace Sys2Proof

/-! ### CMD words (the "Encoding" lines of R240 to R245) -/

theorem encode_and (rd rs1 rs2 : Reg) :
    encode (.and rd rs1 rs2) = 0x54000000 ||| rd.field 21 ||| rs1.field 18 ||| rs2.field 15 := by
  simp [encode_eq_or, Instr.fields, Reg.field]

theorem encode_or (rd rs1 rs2 : Reg) :
    encode (.or rd rs1 rs2) = 0x58000000 ||| rd.field 21 ||| rs1.field 18 ||| rs2.field 15 := by
  simp [encode_eq_or, Instr.fields, Reg.field]

theorem encode_xor (rd rs1 rs2 : Reg) :
    encode (.xor rd rs1 rs2) = 0x5C000000 ||| rd.field 21 ||| rs1.field 18 ||| rs2.field 15 := by
  simp [encode_eq_or, Instr.fields, Reg.field]

theorem encode_not (rd rs1 : Reg) : encode (.not rd rs1) = 0x60000000 ||| rd.field 21 ||| rs1.field 18 := by
  simp [encode_eq_or, Instr.fields, Reg.field]

theorem encode_clz (rs1 : Reg) : encode (.clz rs1) = 0x64000000 ||| rs1.field 18 := by
  simp [encode_eq_or, Instr.fields, Reg.field]

end Sys2Proof

namespace Sys2Proof.Machine

/-! ### AND, OR and XOR -/

theorem exec_and (rd rs1 rs2 : Reg) (s : State) :
    exec (.and rd rs1 rs2) s = .next (s.withX rd ((s.u rs1 &&& s.u rs2 : Nat) : Int)) :=
  congrArg Host.Outcome.next (State.setX_eq_withX rd (zipWith_and_eq (canonical_x s rs1) (canonical_x s rs2)))

/-- Settles O42: the limb-wise AND of two canonical vectors is the residue of the AND of their values. -/
theorem andIsBitwise : Obligations.AndIsBitwise :=
  fun rd rs1 rs2 s => ⟨encode_and rd rs1 rs2, exec_and rd rs1 rs2 s⟩

theorem exec_or (rd rs1 rs2 : Reg) (s : State) :
    exec (.or rd rs1 rs2) s = .next (s.withX rd ((s.u rs1 ||| s.u rs2 : Nat) : Int)) :=
  congrArg Host.Outcome.next (State.setX_eq_withX rd (zipWith_or_eq (canonical_x s rs1) (canonical_x s rs2)))

/-- Settles O43: the limb-wise OR of two canonical vectors is the residue of the OR of their values. -/
theorem orIsBitwise : Obligations.OrIsBitwise :=
  fun rd rs1 rs2 s => ⟨encode_or rd rs1 rs2, exec_or rd rs1 rs2 s⟩

theorem exec_xor (rd rs1 rs2 : Reg) (s : State) :
    exec (.xor rd rs1 rs2) s = .next (s.withX rd ((s.u rs1 ^^^ s.u rs2 : Nat) : Int)) :=
  congrArg Host.Outcome.next (State.setX_eq_withX rd (zipWith_xor_eq (canonical_x s rs1) (canonical_x s rs2)))

/-- Settles O44: the limb-wise XOR of two canonical vectors is the residue of the XOR of their values. -/
theorem xorIsBitwise : Obligations.XorIsBitwise :=
  fun rd rs1 rs2 s => ⟨encode_xor rd rs1 rs2, exec_xor rd rs1 rs2 s⟩

/-! ### NOT -/

/-- Inversion of a residue is the residue of the one's complement (R243; 00_scope.md R13). -/
theorem invert_bvN (n : Nat) (k : Int) : invert n (bvN n k) = bvN n (-k - 1) := by
  rw [invert_eq (canonical_bvN n k), uval_bvN_eq_emod]
  exact bvN_congr (by rw [Int.sub_emod_emod, neg_sub_comm])

/-- The two forms of R243 differ by 2^N. -/
theorem bvN_two_pow_sub_one_sub (n : Nat) (k : Int) : bvN n (2 ^ n - 1 - k) = bvN n (-k - 1) := by
  rw [sub_sub, add_comm, bvN_two_pow_sub, neg_add']

theorem State.setX_invert {s : State} {a : Limbs} {k : Int} (rd : Reg) (ha : a = bvN s.bits k) :
    s.setX rd (invert s.bits a) = s.withX rd (-k - 1) :=
  State.setX_eq_withX rd (by rw [ha, invert_bvN])

theorem exec_not (rd rs1 : Reg) (s : State) :
    exec (.not rd rs1) s = .next (s.withX rd (2 ^ s.bits - 1 - s.u rs1)) := by
  rw [State.withX_eq_setX, bvN_two_pow_sub_one_sub, ← State.withX_eq_setX]
  exact congrArg Host.Outcome.next (State.setX_invert rd (s.x_eq_bvN rs1))

theorem exec_not_signed (rd rs1 : Reg) (s : State) : exec (.not rd rs1) s = .next (s.withX rd (-s.sgn rs1 - 1)) :=
  congrArg Host.Outcome.next (State.setX_invert rd (s.x_eq_bvN_sgn rs1))

/-- Settles O45: NOT on the signed reading, and on the unsigned one with 2^N added. -/
theorem notComplementsWithinTheWidth : Obligations.NotComplementsWithinTheWidth :=
  fun rd rs1 s => ⟨encode_not rd rs1, exec_not rd rs1 s, exec_not_signed rd rs1 s⟩

/-! ### CLZ -/

theorem exec_clz (rs1 : Reg) (s : State) :
    exec (.clz rs1) s = .next { s with res := BitVec.ofNat 64 (s.bits - Nat.size (s.u rs1)) } :=
  congrArg (fun count => Host.Outcome.next (s.setRes (BitVec.ofNat 64 count))) (clzN_eq (canonical_x s rs1))

/-- Settles O46: the count from bit N-1 down is N less the bit length of the value. -/
theorem countLeadingZerosWithinTheWidth : Obligations.CountLeadingZerosWithinTheWidth :=
  fun rs1 s => ⟨encode_clz rs1, exec_clz rs1 s⟩

end Sys2Proof.Machine
end

section
/-! The fault and reset statements (60_exceptions.md; 70_reset_and_hazards.md). One equation for the step on each event that can reach
or leave the fault state; what keeps the record is read from the ways out of an edge (`EdgeTo`). -/

namespace Sys2Proof.Machine

/-! ### A command on a ready block: a fault entry, or none -/

section
variable {s : State} {c : Command} {rest : List HostEvent} {i : Instr}

/-- An illegal CMD is the first row of the table (60_exceptions.md R260, R265). -/
theorem State.faultOf_of_illegal {why : Illegal} (hd : decode c.cmd = .illegal why) : s.faultOf c = .illegal := by
  rw [State.faultOf, hd]

/-- The operand check is made on the accepted command: it reads IMM, N and the registers, and acceptance samples IMM. -/
theorem State.operandFault_accept (hd : decode c.cmd = .instr i) :
    (({ s with inputs := rest } : State).accept c).operandFault i = s.faultOf c :=
  (faultOf_of_decode hd).symm

/-- The fault entry of the accepted command, completed (60_exceptions.md R262, R263). -/
theorem State.complete_raise_accept (h : s.Ready c rest) (k : Cause) :
    ((({ s with inputs := rest } : State).accept c).raise k).complete = s.faulted c rest k := by
  rw [State.raise_of_no_fault (s := ({ s with inputs := rest } : State).accept c) h.noFault]
  rfl

/-- A decoded command whose operand check fails is a fault entry and nothing else (60_exceptions.md R262). -/
theorem step_of_ready_operandFault (h : s.Ready c rest) (hd : decode c.cmd = .instr i) (hf : s.faultOf c ≠ .none) :
    step s = .next (s.faulted c rest (s.faultOf c)) := by
  have hcheck : (({ s with inputs := rest } : State).accept c).operandFault i = s.faultOf c := State.operandFault_accept hd
  rw [step_of_ready_instr h hd, exec_of_operandFault (hcheck ▸ hf), hcheck, completed_next, State.complete_raise_accept h]

/-- A decoded command whose operand check passes writes registers and results, and no fault record (60_exceptions.md R261). -/
theorem step_of_ready_no_fault (h : s.Ready c rest) (hd : decode c.cmd = .instr i) (hf : s.faultOf c = .none) :
    ∃ f a b, step s = .next ((({ s with inputs := rest } : State).accept c).withResults f a b).complete := by
  obtain ⟨f, a, b, hexec, -⟩ := exec_of_no_operandFault ((State.operandFault_accept hd).trans hf)
  exact ⟨f, a, b, by rw [step_of_ready_instr h hd, hexec, completed_next]⟩

end

/-- Settles O49: an illegal CMD raises ILLEGAL, and a decoded command the cause of its operand check. -/
theorem faultEntryRecordsTheCommand : Obligations.FaultEntryRecordsTheCommand := by
  refine ⟨⟨rfl, rfl, rfl, rfl, rfl⟩, fun s c rest hready hf => ?_⟩
  cases hd : decode c.cmd with
  | illegal why => rw [State.faultOf_of_illegal hd]; exact step_of_ready_illegal hready hd
  | instr i => exact step_of_ready_operandFault hready hd hf

/-- Settles O50: with no code from the table the CMD is decoded and its operand check passes. -/
theorem noOtherConditionFaults : Obligations.NoOtherConditionFaults := by
  intro s c rest hready hf
  cases hd : decode c.cmd with
  | illegal why => cases (State.faultOf_of_illegal hd).symm.trans hf
  | instr i =>
    obtain ⟨f, a, b, hstep⟩ := step_of_ready_no_fault hready hd hf
    exact ⟨_, hstep, hready.noFault, rfl, rfl, rfl⟩

/-! ### The fault state -/

/-- Every event but a reset keeps the record of the first fault (60_exceptions.md R264, R266). -/
theorem EdgeTo.keeps_record {s t : State} {e : HostEvent} (h : EdgeTo s e t) (hf : s.fault = true) (he : e.resets = false) :
    t.fault = true ∧ t.cause = s.cause ∧ t.faultCmd = s.faultCmd ∧ t.faultImm = s.faultImm := by
  cases h with
  | reset | abandoned => cases he
  | faulted c _ noFault => cases hf.symm.trans noFault
  | idle | hostRead | heldCommand | heldAbandoned | completed => exact ⟨hf, rfl, rfl, rfl⟩

/-- Settles O52: an idle edge writes no record, and no other event that is not a reset does in the fault state. -/
theorem onlyResetClearsTheFault : Obligations.OnlyResetClearsTheFault := by
  intro s t hf hnoReset h
  obtain ⟨-, rfl⟩ | ⟨e, rest, hcons, hedge⟩ := step_cases h
  · exact ⟨hf, hf, rfl, rfl, rfl⟩
  · obtain ⟨hfault, hrecord⟩ := hedge.keeps_record hf (hnoReset e rest hcons)
    exact ⟨hfault, hfault, hrecord⟩

/-- The conservative machine stops in the fault state at every event that is not a reset (60_exceptions.md R264; 93 U2). -/
theorem strictStep_of_fault {s : State} {e : HostEvent} {rest : List HostEvent} (hf : s.fault = true)
    (hi : s.inputs = e :: rest) (he : e.resets = false) : Safety.strictStep s = .fault .faultState := by
  refine if_pos ?_
  simp [hf, hi, he]

/-- Settles O51: the command is accepted and completed without being decoded. -/
theorem faultStateDiscardsCommands : Obligations.FaultStateDiscardsCommands := by
  intro s c rest hw hout hf hi
  have hstep : step s = .next (({ s with inputs := rest } : State).accept c).complete := by
    rw [step_of_inputs hw hi, State.edge_command, if_neg (Bool.eq_false_iff.1 hout)]
    exact State.runCommand_of_fault (s := { s with inputs := rest }) hf c
  refine ⟨_, hstep, rfl, ?_, strictStep_of_fault hf hi rfl⟩
  simp [State.cmdReady, hout]

/-! ### Reset -/

/-- The first edge with `rst` = 0 ends reset and changes nothing else (70_reset_and_hazards.md R290). -/
theorem step_of_idle {s : State} {rest : List HostEvent} (hw : widthOk s.bits = true) (hi : s.inputs = .idle :: rest) :
    step s = .next { s with inReset := false, inputs := rest } :=
  step_of_inputs hw hi

theorem step_of_reset {s : State} {rest : List HostEvent} (hw : widthOk s.bits = true) (hi : s.inputs = .reset :: rest) :
    step s = .next ({ s with inputs := rest } : State).resetEdge :=
  step_of_inputs hw hi

/-- A command presented at the edge that ends reset stays presented (70_reset_and_hazards.md R293; log 8). -/
theorem step_of_held_command {s : State} {c : Command} {rest : List HostEvent} (hw : widthOk s.bits = true)
    (held : s.inReset = true) (hi : s.inputs = .command c :: rest) : step s = .next { s with inReset := false } := by
  rw [step_of_inputs hw hi, State.edge_command, if_pos held, ← hi]

/-- Reset leaves no trace of the acceptance before it (70_reset_and_hazards.md R291). -/
theorem State.resetEdge_accept (s : State) (c : Command) : (s.accept c).resetEdge = s.resetEdge := rfl

theorem step_of_abandoned {s : State} {c : Command} {rest : List HostEvent} (hw : widthOk s.bits = true)
    (hout : s.inReset = false) (hi : s.inputs = .commandAbandoned c :: rest) :
    step s = .next ({ s with inputs := rest } : State).resetEdge := by
  rw [step_of_inputs hw hi, State.edge_commandAbandoned, if_neg (Bool.eq_false_iff.1 hout), State.resetEdge_accept]

/-- Settles O53: the edge leaves the state after reset (10_state.md R45), and the idle edge ends reset. -/
theorem resetEdgeSetsEveryPiece : Obligations.ResetEdgeSetsEveryPiece := by
  intro s rest hw hi
  have hregs : ∀ r, (∀ j, ((RegFile.reset s.bits).get r).isWritten j = false) ∧
      ∀ p, s.bits ≤ p → bitAt ((RegFile.reset s.bits).get r).limbs p = false := by
    obtain ⟨-, -, -, -, -, -, -, -, -, h⟩ := stateAfterReset s.bits
    exact h
  refine ⟨_, step_of_reset hw hi, rfl, rfl, rfl, rfl, rfl, rfl, rfl, rfl, rfl, rfl, hregs, fun rest' hrest => ?_⟩
  exact ⟨_, step_of_idle hw hrest, rfl, rfl⟩

/-- Settles O54: `cmd_ready` is 0 in reset; an exhausted list, an idle edge and a command each end it. -/
theorem heldInResetAcceptsNoCommand : Obligations.HeldInResetAcceptsNoCommand := by
  intro s hw held
  refine ⟨?_, step_of_no_inputs hw, fun _ => step_of_idle hw, fun _ _ => step_of_held_command hw held⟩
  simp [State.cmdReady, held]

/-- Settles O55: both steps answer the state after a reset edge. -/
theorem resetAbandonsTheCommand : Obligations.ResetAbandonsTheCommand := by
  intro s c rest hw hout hi
  have hstep := step_of_abandoned hw hout hi
  have hreset : step { s with inputs := .reset :: rest } = .next ({ s with inputs := rest } : State).resetEdge :=
    step_of_reset hw rfl
  exact ⟨hstep.trans hreset.symm, _, hstep, rfl⟩

end Sys2Proof.Machine
end
